-- ==== Sys2Proof/Word.lean ====
section
/-! DEFINITION. The byte and the register-file shapes of the block (spec/10_state.md, spec/44_host_ops.md R198). -/

namespace Sys2Proof

/-- A byte, 0..255 (00_scope.md R10). -/
abbrev Byte := BitVec 8

/-- The record registers, written together by `ACCEPT` (10_state.md R29, R30, R40 to R47). -/
structure Record where
  /-- `SEQ`, sequenceMarker (R40). -/
  seq : BitVec 32
  /-- `FCNT`, frameCounter (R41). -/
  fcnt : BitVec 16
  /-- `THR_IN`, UQ13.8 percent (R42). -/
  thrIn : BitVec 21
  /-- `THR_OUT`, UQ13.8 percent (R42). -/
  thrOut : BitVec 21
  /-- `RPM_Q`, quotient of the rotor speed (R43). -/
  rpmQ : BitVec 20
  /-- `RPM_R`, remainder of the rotor speed (R43). -/
  rpmR : BitVec 8
  /-- `VBUS`, unit 0.1 V (R44). -/
  vbus : BitVec 16
  /-- `IBUS`, UQ10.6 A (R45). -/
  ibus : BitVec 16
  /-- `IPH`, UQ10.6 A (R45). -/
  iph : BitVec 16
  /-- `TMOS`, two's complement, unit 0.5 degree (R46). -/
  tmos : BitVec 16
  /-- `TMOS_MISS` (R30). -/
  tmosMiss : Bool
  /-- `TCAP`, two's complement, unit 0.5 degree (R46). -/
  tcap : BitVec 16
  /-- `TCAP_MISS` (R30). -/
  tcapMiss : Bool
  /-- `STATUS`, statusCode (R47). -/
  status : BitVec 16
  /-- `FAULT` (R29). -/
  fault : Bool
  deriving DecidableEq, Repr, Inhabited

/-- The output wires of the hardware binding, one field a wire (44_host_ops.md R198). -/
structure Outputs where
  ready : Bool
  pollResult : Bool
  recValid : Bool
  /-- `seq` to `fault`: the fifteen record wires. -/
  record : Record
  evRecord : Bool
  evCksum : Bool
  evTmissMos : Bool
  evTmissCap : Bool
  ckValid : Bool
  ckRx : BitVec 16
  ckCalc : BitVec 16
  cfgError : Bool
  polePairs : BitVec 8
  offset : BitVec 5
  deriving DecidableEq, Repr, Inhabited

end Sys2Proof
end

