-- ==== Sys2Proof/Config.lean ====
section
/-! DEFINITION. The constants of 00_scope.md R6 and R8, the open parameter TEMP_PAIRS (R7), and the free values. -/

namespace Sys2Proof

/-- `HEADER0`, frame byte 0 (R6). -/
abbrev Config.header0 : Byte := 0x9B
/-- `HEADER1`, frame byte 1 (R6). -/
abbrev Config.header1 : Byte := 0x16
/-- `PACKET_SIZE`, bytes in a frame (R6). -/
abbrev Config.packetSize : Nat := 24
/-- `SUM_LEN`, bytes covered by the checksum (R6). -/
abbrev Config.sumLen : Nat := 22
/-- `PAYLOAD_LEN`, bytes at offsets 2..21 (R6). -/
abbrev Config.payloadLen : Nat := 20
/-- `TEMP_SENTINEL`, degrees Celsius of a lookup miss (R6). -/
abbrev Config.tempSentinel : Int := 130
/-- `PP_DEFAULT`, the default pole-pair count (R6). -/
abbrev Config.ppDefault : BitVec 8 := 21
/-- `PP_MAX`, the largest pole-pair count, `PP` being held in 8 bits (R8). -/
abbrev Config.ppMax : Nat := 255
/-- `ACC_W`, the width of the hardware's checksum accumulator (R8, 42_checksum.md R151). -/
abbrev Config.accW : Nat := 16
/-- `BAUD`, the line rate; used by no rule (R6). -/
abbrev Config.baud : Nat := 19200

/-- `TEMP_PAIRS` (R7, 40_temperature_lut.md R121): the ordered list of keys and values the ROM is built from, each
value in units of half a degree, two's complement in 16 bits, which is exactly the range R124 admits. OPEN in the spec
(D8), so it has no body: a claim that uses it holds for every table. Log 7. -/
opaque Config.tempPairs : List (Byte × BitVec 16)

/-- FREE VALUE: quotient and remainder of X.RPM's `num` by a pole-pair count of 0, which 43_extract.md R166 says no
reachable state has. Log 17. -/
opaque Config.rpmAtZeroPoles : Nat → BitVec 20 × BitVec 8

/-- FREE VALUE: what the output wires show while the state behind them holds no value (44_host_ops.md R194 "hardware
returns whatever its flip-flops hold"), for each count of INITs issued. Log 19. -/
opaque Config.floating : Nat → Outputs

end Sys2Proof
end

