-- ==== Sys2Proof/Syntax.lean ====
section
/-! DEFINITION. The operation set of 30_encoding.md R99 and R109, one constructor per row of spec/opcode_table.json. -/

namespace Sys2Proof

/-- The register names `READ f` takes (44_host_ops.md R194). -/
inductive RegName where
  | seq | fcnt | thrIn | thrOut | rpmQ | rpmR | vbus | ibus | iph
  | tmos | tmosMiss | tcap | tcapMiss | status | fault
  | ckRx | ckCalc
  | ready | recValid | ckValid | n | pp | halt
  deriving DecidableEq, Repr

/-- The field letters a..l of the frame format (30_encoding.md R91), the operands of `FRAMEF`. -/
structure FrameFields where
  a : Byte
  b : Byte
  c : BitVec 16
  d : BitVec 16
  e : BitVec 16
  f : BitVec 16
  g : BitVec 16
  h : BitVec 16
  i : BitVec 16
  j : Byte
  k : Byte
  l : BitVec 16
  deriving DecidableEq, Repr

/-- The operations. Host operations, the six cases of `SUBMIT`, completion, functions, pseudo-operations. -/
inductive Instr where
  -- host operations
  | init (pp : Int)
  | take
  | isready
  | submit (b : Byte)
  | idle
  | read (f : RegName)
  -- dispatch cases (the 13-bit word `N ++ b` of R100)
  | sync0
  | skip (b : Byte)
  | sync1
  | desync (b : Byte)
  | final (b : Byte)
  | store (n : BitVec 5) (b : Byte)
  -- completion, and the functions
  | complete
  | cksum
  | accept
  | reject
  | extract
  | xSeq
  | xFcnt
  | xThrIn
  | xThrOut
  | xRpm
  | xVbus
  | xIbus
  | xIph
  | xTmos
  | xTcap
  | xStatus
  | xFault
  | decode (k : Byte)
  -- pseudo-operations
  | bytes (bs : List Byte)
  | frame (payload : List Byte)
  | framef (fields : FrameFields)
  | pollread
  deriving DecidableEq, Repr

/-- The word formats of spec/opcode_table.json (its "format" column). -/
inductive Format where
  | hostCmd4 | submit13 | completion | frame24 | lutKey8 | pseudo
  deriving DecidableEq, Repr

/-- A word of one format, its bytes in order. -/
structure Packet where
  format : Format
  bytes : List Byte
  deriving DecidableEq, Repr

end Sys2Proof
end

