-- ==== Sys2Proof/WellFormed.lean ====
section
/-! DEFINITION. Which terms of Instr are operations of the spec: the operand limits of R100 and R109. -/

namespace Sys2Proof

/-- The operand limits the dispatch table (30_encoding.md R100) and `FRAME` (R109) give; every other operand is free,
the list of `BYTES` among them, which may be empty (log 24). -/
def Instr.wellFormed : Instr → Bool
  | .skip b => b != Config.header0
  | .desync b => b != Config.header1
  | .store n _ => decide (2 ≤ n.toNat) && decide (n.toNat ≤ 22)
  | .frame p => p.length == Config.payloadLen
  | .init _ | .take | .isready | .submit _ | .idle | .read _ | .sync0 | .sync1 | .final _ | .complete | .cksum
  | .accept | .reject | .extract | .xSeq | .xFcnt | .xThrIn | .xThrOut | .xRpm | .xVbus | .xIbus | .xIph | .xTmos
  | .xTcap | .xStatus | .xFault | .decode _ | .bytes _ | .framef _ | .pollread => true

/-- Whether the operation has a word: all but an `INIT` whose operand the 8-bit port `cfg_pole_pairs` cannot carry
(44_host_ops.md R190). -/
def Instr.hasWord : Instr → Bool
  | .init pp => decide (0 ≤ pp) && decide (pp ≤ 255)
  | .take | .isready | .submit _ | .idle | .read _ | .sync0 | .skip _ | .sync1 | .desync _ | .final _ | .store _ _
  | .complete | .cksum | .accept | .reject | .extract | .xSeq | .xFcnt | .xThrIn | .xThrOut | .xRpm | .xVbus | .xIbus
  | .xIph | .xTmos | .xTcap | .xStatus | .xFault | .decode _ | .bytes _ | .frame _ | .framef _ | .pollread => true

end Sys2Proof
end

