-- ==== Sys2Proof/Decode.lean ====
section
/-! DEFINITION. The word formats of spec/30_encoding.md: the frame (R91, R92), the dispatch word of `SUBMIT` (R100), the
host's strobe vector (R101), and the frame builder (R109). First the decoder, total on any bytes, then the encoder.
Selector bytes, where the spec gives several rows one word or no word, are the model's own (log 13). -/

namespace Sys2Proof

/-- Why bytes are no word of a format. -/
inductive DecodeError where
  /-- Not the number of bytes the format has. -/
  | badLength
  /-- A bit above the format's width is set. -/
  | strayBits
  /-- The dispatch word has `N` in 24..31, priority 6 of R100: "a model refuses". -/
  | unreachableOffset
  /-- The first two bytes are not the fixed bytes of R92. -/
  | notAFrame
  /-- The trailer is not the sum of the first 22 bytes, so the bytes are not what `FRAME` expands to (R109). -/
  | badTrailer
  /-- The model's selector byte names no row. -/
  | badSelector
  deriving DecidableEq, Repr

/-! ## Field assembly and the frame builder -/

/-- The low `n` bytes of `w`, least significant first. -/
def bytesLE : Nat → Nat → List Byte
  | 0, _ => []
  | n + 1, w => BitVec.ofNat 8 w :: bytesLE n (w / 256)

/-- The arithmetic sum of bytes, a natural number (42_checksum.md R150). -/
def byteSum : List Byte → Nat
  | [] => 0
  | b :: bs => b.toNat + byteSum bs

/-- The more significant byte of a 16-bit value. -/
def hiByte (v : BitVec 16) : Byte := v.extractLsb' 8 8

/-- The less significant byte of a 16-bit value. -/
def loByte (v : BitVec 16) : Byte := v.extractLsb' 0 8

/-- Header and payload, the 22 bytes the checksum covers (R91). -/
def summedPart (payload : List Byte) : List Byte := Config.header0 :: Config.header1 :: payload

/-- The trailer of 22 bytes: their sum, low byte first (R109: `lo = s mod 256`, `hi = s div 256`). -/
def trailer (summed : List Byte) : List Byte := bytesLE 2 (byteSum summed)

/-- The bytes `FRAME p2 ... p21` submits (R109). -/
def frameBytes (payload : List Byte) : List Byte := summedPart payload ++ trailer (summedPart payload)

/-- The payload of field values, 16-bit values high byte first (R91, R109 `FRAMEF`). -/
def payloadOf (x : FrameFields) : List Byte :=
  [x.a, x.b, hiByte x.c, loByte x.c, hiByte x.d, loByte x.d, hiByte x.e, loByte x.e, hiByte x.f, loByte x.f,
   hiByte x.g, loByte x.g, hiByte x.h, loByte x.h, hiByte x.i, loByte x.i, x.j, x.k, hiByte x.l, loByte x.l]

/-- The field values of a payload, the inverse of `payloadOf`. -/
def fieldsOf : List Byte → Option FrameFields
  | [a, b, c1, c0, d1, d0, e1, e0, f1, f0, g1, g0, h1, h0, i1, i0, j, k, l1, l0] =>
    some { a := a, b := b, c := c1 ++ c0, d := d1 ++ d0, e := e1 ++ e0, f := f1 ++ f0, g := g1 ++ g0,
           h := h1 ++ h0, i := i1 ++ i0, j := j, k := k, l := l1 ++ l0 }
  | _ => none

/-! ## The host's strobe vector, `cmd[3:0] = rst ++ take ++ poll ++ in_valid` (R101) -/

/-- The operations the strobes can ask for. -/
inductive Strobe where
  | init | take | isready | submit | idle
  deriving DecidableEq, Repr

/-- The rows of R101 that a strobe selects, each with its mask and match, in the table's order; the first whose
`(cmd & mask) = match` holds is the operation that runs first (20_memory.md R73). -/
def strobeRows : List (Strobe × BitVec 4 × BitVec 4) :=
  [(.init, 0x8, 0x8), (.take, 0xC, 0x4), (.isready, 0xE, 0x2), (.submit, 0x9, 0x1), (.idle, 0xF, 0x0)]

/-- The operation a strobe vector asks for first. -/
def firstStrobe (cmd : BitVec 4) : Strobe :=
  match strobeRows.find? fun r => cmd &&& r.2.1 == r.2.2 with
  | some r => r.1
  | none => .idle

/-- The strobes still to be served in the same cycle, after the first operation: `INIT` runs alone, `TAKE` subsumes
`ISREADY`, and a `SUBMIT` runs second (R101, 20_memory.md R73). -/
def remainingStrobes (cmd : BitVec 4) : BitVec 4 :=
  match firstStrobe cmd with
  | .take | .isready => cmd &&& 0x1
  | .init | .submit | .idle => 0

/-- The model's codes for the operand of `READ f`, 1 to 23 in the order of RegName (log 13). -/
def regOfCode (c : Byte) : Option RegName :=
  match c.toNat with
  | 1 => some .seq | 2 => some .fcnt | 3 => some .thrIn | 4 => some .thrOut | 5 => some .rpmQ | 6 => some .rpmR
  | 7 => some .vbus | 8 => some .ibus | 9 => some .iph | 10 => some .tmos | 11 => some .tmosMiss | 12 => some .tcap
  | 13 => some .tcapMiss | 14 => some .status | 15 => some .fault | 16 => some .ckRx | 17 => some .ckCalc
  | 18 => some .ready | 19 => some .recValid | 20 => some .ckValid | 21 => some .n | 22 => some .pp | 23 => some .halt
  | _ => none

/-- The operation of the first strobe, with its operand from the pins. -/
def strobeInstr (cmd : BitVec 4) (cfg inByte : Byte) : Instr :=
  match firstStrobe cmd with
  | .init => .init cfg.toNat
  | .take => .take
  | .isready => .isready
  | .submit => .submit inByte
  | .idle => .idle

/-- A strobe vector with its operands and the model's `READ` selector (0: no register is read): the operation that
runs first, and what is left of the cycle (nothing, or another word of the format). A `READ` comes first, the outputs
being registered (44_host_ops.md R198), and none happens while `rst` is 1 (R101). -/
def decodeHostCmd (cmd : BitVec 4) (cfg inByte sel : Byte) : Except DecodeError (Instr × Option (List Byte)) :=
  if sel = 0 ∨ firstStrobe cmd = .init then
    .ok (strobeInstr cmd cfg inByte,
      if remainingStrobes cmd = 0 then none else some [(remainingStrobes cmd).setWidth 8, cfg, inByte, 0])
  else
    match regOfCode sel with
    | some f => .ok (.read f, if cmd = 0 then none else some [cmd.setWidth 8, cfg, inByte, 0])
    | none => .error .badSelector

/-! ## The dispatch word of `SUBMIT`, `w[12:0] = N[4:0] ++ b[7:0]` (R100) -/

/-- The cases of R100, the unreachable one among them. -/
inductive Case where
  | sync0 | skip | sync1 | desync | final | unreachable | store
  deriving DecidableEq, Repr

/-- The rows of R100 in priority order, each with its mask and match. -/
def caseRows : List (Case × BitVec 13 × BitVec 13) :=
  [(.sync0, 0x1FFF, 0x009B), (.skip, 0x1F00, 0x0000), (.sync1, 0x1FFF, 0x0116), (.desync, 0x1F00, 0x0100),
   (.final, 0x1F00, 0x1700), (.unreachable, 0x1800, 0x1800), (.store, 0x0000, 0x0000)]

/-- "Rows are tried in the order given; the first whose `(w & mask) = match` holds is taken." -/
def caseOf (w : BitVec 13) : Case :=
  match caseRows.find? fun r => w &&& r.2.1 == r.2.2 with
  | some r => r.1
  | none => .unreachable

/-- The case a dispatch word selects, with its operands. -/
def decodeSubmit (n : BitVec 5) (b : Byte) : Except DecodeError Instr :=
  match caseOf (n ++ b) with
  | .sync0 => .ok .sync0
  | .skip => .ok (.skip b)
  | .sync1 => .ok .sync1
  | .desync => .ok (.desync b)
  | .final => .ok (.final b)
  | .unreachable => .error .unreachableOffset
  | .store => .ok (.store n b)

/-! ## The frame word (R92), completion rows, ROM key, pseudo-operations -/

/-- Whether the fixed bits of R92 hold: the two header bytes. -/
def hasHeader : List Byte → Bool
  | b0 :: b1 :: _ => b0 == Config.header0 && b1 == Config.header1
  | _ => false

/-- The functions whose word is the frame, told apart by the model's selector (log 13). -/
def frameFunction (sel : Byte) : Except DecodeError Instr :=
  match sel.toNat with
  | 0 => .ok .cksum
  | 1 => .ok .xSeq
  | 2 => .ok .xFcnt
  | 3 => .ok .xThrIn
  | 4 => .ok .xThrOut
  | 5 => .ok .xRpm
  | 6 => .ok .xVbus
  | 7 => .ok .xIbus
  | 8 => .ok .xIph
  | 9 => .ok .xTmos
  | 10 => .ok .xTcap
  | 11 => .ok .xStatus
  | 12 => .ok .xFault
  | _ => .error .badSelector

/-- The completion rows, which have no word: the model's selector (log 13). -/
def completionRow (sel : Byte) : Except DecodeError Instr :=
  match sel.toNat with
  | 0 => .ok .complete
  | 1 => .ok .accept
  | 2 => .ok .reject
  | 3 => .ok .extract
  | _ => .error .badSelector

/-- The 24 bytes of a whole frame back to the payload `FRAME` takes: length, fixed bytes and trailer as R109 has them. -/
def payloadOfFrame (bs : List Byte) : Except DecodeError (List Byte) :=
  if bs.length ≠ Config.packetSize then .error .badLength
  else if hasHeader bs = false then .error .notAFrame
  else if bs = frameBytes ((bs.drop 2).take Config.payloadLen) then .ok ((bs.drop 2).take Config.payloadLen)
  else .error .badTrailer

/-- Pseudo-operations (R109): the model's selector, then the bytes to submit. -/
def decodePseudo (sel : Byte) (bs : List Byte) : Except DecodeError Instr :=
  match sel.toNat with
  | 0 => .ok (.bytes bs)
  | 1 =>
    match payloadOfFrame bs with
    | .ok p => .ok (.frame p)
    | .error e => .error e
  | 2 =>
    match payloadOfFrame bs with
    | .ok p =>
      match fieldsOf p with
      | some x => .ok (.framef x)
      | none => .error .badLength
    | .error e => .error e
  | 3 => if bs = [] then .ok .pollread else .error .badLength
  | _ => .error .badSelector

/-- The decoder: the operation a word of a format stands for, with what is left of it (a strobe vector may ask for two
operations). Total; every rejection has a name. -/
def decode (p : Packet) : Except DecodeError (Instr × Option Packet) :=
  match p.format, p.bytes with
  | .hostCmd4, [cmd, cfg, inByte, sel] =>
    if 16 ≤ cmd.toNat then .error .strayBits
    else
      match decodeHostCmd (cmd.setWidth 4) cfg inByte sel with
      | .ok (i, left) => .ok (i, left.map fun bs => { format := .hostCmd4, bytes := bs })
      | .error e => .error e
  | .submit13, [lo, hi] =>
    if 32 ≤ hi.toNat then .error .strayBits
    else
      match decodeSubmit (hi.setWidth 5) lo with
      | .ok i => .ok (i, none)
      | .error e => .error e
  | .completion, [sel] =>
    match completionRow sel with
    | .ok i => .ok (i, none)
    | .error e => .error e
  | .frame24, bs =>
    if bs.length ≠ Config.packetSize + 1 then .error .badLength
    else if hasHeader bs = false then .error .notAFrame
    else
      match frameFunction (bs.getLastD 0) with
      | .ok i => .ok (i, none)
      | .error e => .error e
  | .lutKey8, [k] => .ok (.decode k, none)
  | .pseudo, sel :: bs =>
    match decodePseudo sel bs with
    | .ok i => .ok (i, none)
    | .error e => .error e
  | .hostCmd4, _ => .error .badLength
  | .submit13, _ => .error .badLength
  | .completion, _ => .error .badLength
  | .lutKey8, _ => .error .badLength
  | .pseudo, _ => .error .badLength

/-! ## The encoder -/

/-- The model's code of a register name, the inverse of `regOfCode`. -/
def codeOfReg : RegName → Byte
  | .seq => 1 | .fcnt => 2 | .thrIn => 3 | .thrOut => 4 | .rpmQ => 5 | .rpmR => 6 | .vbus => 7 | .ibus => 8
  | .iph => 9 | .tmos => 10 | .tmosMiss => 11 | .tcap => 12 | .tcapMiss => 13 | .status => 14 | .fault => 15
  | .ckRx => 16 | .ckCalc => 17 | .ready => 18 | .recValid => 19 | .ckValid => 20 | .n => 21 | .pp => 22 | .halt => 23

/-- A word of the host's pins. -/
def hostWord (cmd cfg inByte sel : Byte) : Packet := { format := .hostCmd4, bytes := [cmd, cfg, inByte, sel] }

/-- A dispatch word, low byte first. -/
def submitWord (n : BitVec 5) (b : Byte) : Packet := { format := .submit13, bytes := [b, n.setWidth 8] }

/-- A completion row. -/
def completionWord (sel : Byte) : Packet := { format := .completion, bytes := [sel] }

/-- A function over the frame: the fixed bytes, zeros for the letters (the letters are BUF's contents, no operand of
the function), the selector. -/
def frameWord (sel : Byte) : Packet :=
  { format := .frame24, bytes := Config.header0 :: Config.header1 :: (List.replicate 22 0 ++ [sel]) }

/-- A pseudo-operation. -/
def pseudoWord (sel : Byte) (bs : List Byte) : Packet := { format := .pseudo, bytes := sel :: bs }

/-- The word of an operation; none for an `INIT` whose operand the 8-bit port cannot carry. -/
def encode : Instr → Option Packet
  | .init pp => if 0 ≤ pp ∧ pp ≤ 255 then some (hostWord 0x8 (BitVec.ofInt 8 pp) 0 0) else none
  | .take => some (hostWord 0x4 0 0 0)
  | .isready => some (hostWord 0x2 0 0 0)
  | .submit b => some (hostWord 0x1 0 b 0)
  | .idle => some (hostWord 0x0 0 0 0)
  | .read f => some (hostWord 0x0 0 0 (codeOfReg f))
  | .sync0 => some (submitWord 0 0x9B)
  | .skip b => some (submitWord 0 b)
  | .sync1 => some (submitWord 1 0x16)
  | .desync b => some (submitWord 1 b)
  | .final b => some (submitWord 23 b)
  | .store n b => some (submitWord n b)
  | .complete => some (completionWord 0)
  | .accept => some (completionWord 1)
  | .reject => some (completionWord 2)
  | .extract => some (completionWord 3)
  | .cksum => some (frameWord 0)
  | .xSeq => some (frameWord 1)
  | .xFcnt => some (frameWord 2)
  | .xThrIn => some (frameWord 3)
  | .xThrOut => some (frameWord 4)
  | .xRpm => some (frameWord 5)
  | .xVbus => some (frameWord 6)
  | .xIbus => some (frameWord 7)
  | .xIph => some (frameWord 8)
  | .xTmos => some (frameWord 9)
  | .xTcap => some (frameWord 10)
  | .xStatus => some (frameWord 11)
  | .xFault => some (frameWord 12)
  | .decode k => some { format := .lutKey8, bytes := [k] }
  | .bytes bs => some (pseudoWord 0 bs)
  | .frame p => some (pseudoWord 1 (frameBytes p))
  | .framef x => some (pseudoWord 2 (frameBytes (payloadOf x)))
  | .pollread => some (pseudoWord 3 [])

/-! ## The table's numbering of bits -/

/-- The word of `nbits` bits `w`, as spec/opcode_table.json numbers them, in the format that has that many bits, every
byte above them 0: one byte is a strobe vector when its upper half is 0 and else a ROM key, two bytes a dispatch word, 24
bytes a frame. The bytes of the word are its bits from the lowest up: of a frame, of which 30_encoding.md R92 gives a
picture and no number, the first byte stands at bits 7:0 (0x169B for `9B 16`), of a dispatch word the byte `b`, whose
number R100 gives. DESIGN CHOICE, safe, log 14. -/
def tablePacket (nbits w : Nat) : Option Packet :=
  if nbits = 0 then none
  else if nbits ≤ 8 then
    if w < 16 then some { format := .hostCmd4, bytes := bytesLE 1 w ++ [0, 0, 0] }
    else if w < 256 then some { format := .lutKey8, bytes := bytesLE 1 w }
    else none
  else if nbits ≤ 16 then some { format := .submit13, bytes := bytesLE 2 w }
  else if nbits ≤ 192 then some { format := .frame24, bytes := bytesLE 24 w ++ [0] }
  else none

/-- The instruction the decoder reads from a word numbered as the table numbers it. -/
def decodeTableWord (nbits w : Nat) : Option Instr :=
  match tablePacket nbits w with
  | none => none
  | some p =>
    match decode p with
    | .ok (i, _) => some i
    | .error _ => none

end Sys2Proof
end

