-- ==== Sys2Proof/Machine/State.lean ====
section
/-! DEFINITION. The state of one instance of the block (spec/10_state.md), what an operation returns and emits, and why
the model stops. -/

namespace Sys2Proof.Machine

/-- Which temperature a `TempMiss` is about: `MOS` is offset 18, `CAP` offset 19 (60_exceptions.md R211). -/
inductive Sensor where
  | mos | cap
  deriving DecidableEq, Repr

/-- An event, an output of the operation that emits it (10_state.md R31, 60_exceptions.md R212). -/
inductive Event where
  | recordReady
  /-- Received value first, calculated value second (42_checksum.md R154). -/
  | checksumMismatch (rx sum : BitVec 16)
  | tempMiss (sensor : Sensor) (raw : Byte)
  deriving DecidableEq, Repr

/-- The three error conditions with what each records (60_exceptions.md R210, R211). -/
inductive ErrorReport where
  | checksumMismatch (rx sum : BitVec 16)
  /-- The document's `UnrecognizedTemperatureCode`. -/
  | tempMiss (sensor : Sensor) (raw : Byte)
  | malformedConfiguration (pp : Int)
  deriving DecidableEq, Repr

/-- What an operation hands to the host (00_scope.md R11 `return v`). -/
inductive Value where
  /-- `INIT` succeeded (44_host_ops.md R190 `return ok`). -/
  | ok
  /-- `INIT` failed (R190 `return error MalformedConfiguration(pp)`). -/
  | malformedConfiguration (pp : Int)
  /-- A one-bit register, or `ISREADY`'s answer. -/
  | bit (b : Bool)
  /-- An unsigned integer. -/
  | unsigned (v : Nat)
  /-- A signed integer: `TMOS`, `TCAP`. -/
  | signed (v : Int)
  /-- Quotient and remainder: `X.RPM` (43_extract.md R166). -/
  | quotRem (q r : Nat)
  /-- Half degrees and the miss bit: `DECODE`, `X.TMOS`, `X.TCAP` (40_temperature_lut.md R122). -/
  | temperature (t2 : Int) (miss : Bool)
  /-- `TAKE`'s answer (44_host_ops.md R193). -/
  | record (r : Option Record)
  deriving DecidableEq, Repr

/-- One thing the host does next. Log 5. -/
inductive Stimulus where
  /-- A word: the pins of one cycle, or a word of another format of the opcode table. -/
  | word (p : Packet)
  /-- An operation at the transaction level, as a constructor (30_encoding.md R101, last sentence). -/
  | op (i : Instr)
  /-- The host goes on with the `READ`s of a `POLLREAD` it has begun (30_encoding.md R109, log 18). -/
  | resume
  deriving DecidableEq, Repr

/-- Why the machine stops with a fault. -/
inductive Fault where
  /-- Raised by the frame-buffer operations of Machine/Ops.lean for an offset outside 0..23, which the address space does
  not have (10_state.md R48). No instruction reaches it (20_memory.md R70: "There is no address fault"). Safe. Log 21. -/
  | noSuchOffset (offset : Nat)
  deriving DecidableEq, Repr

/-- Why an operation has no meaning in a state: the spec's `refuse` (00_scope.md R11). All are safe. -/
inductive Refusal where
  /-- Raised by `exec` for an instruction that has no meaning yet. Safe. -/
  | notModelled (mnemonic : String)
  /-- Raised by every operation but `INIT` and (while halted) `READ HALT`, on an instance that was never initialised or
  whose last `INIT` failed (10_state.md R33, 44_host_ops.md R191, U11). Safe: the spec's own refusal. -/
  | noDecoder
  /-- Raised by `READ` of a record register while `REC_VALID = 0`. Safe: the spec's own: "if REC_VALID = 1 then return the
  register else refuse" (44_host_ops.md R194; 93_implementation_defined.md U2, 92_eei_decisions.md D12, 10_state.md R52,
  and vector H13 of 95_test_vectors.md). -/
  | recordNotValid (f : RegName)
  /-- Raised by `READ` of `CK_RX`, `CK_CALC` while `CK_VALID = 0`. Safe: the spec's own: "if CK_VALID = 1 then return the
  register else refuse" (44_host_ops.md R194; 93_implementation_defined.md U3, 92_eei_decisions.md D3, 10_state.md R52,
  and vector H14 of 95_test_vectors.md). -/
  | checksumNotLatched (f : RegName)
  /-- Raised by any read of a frame-buffer cell not written since `INIT` (00_scope.md R11, U1). Safe: the spec's own. -/
  | noValue (offset : Nat)
  /-- Raised by `SUBMIT` with `N` in 24..31 (30_encoding.md R100 priority 6, U12). Safe: the spec's own. -/
  | unreachableOffset
  /-- Raised by a dispatch case or a completion action asked for on its own where its select condition does not hold
  (30_encoding.md R99, R100, 42_checksum.md R153, R154): the spec gives it no effect there. Safe. Log 15. -/
  | notSelected (mnemonic : String)
  /-- Raised by the fetch for bytes that are no word of their format. Safe. -/
  | undecodable (e : DecodeError)
  /-- Raised by the fetch for a term of Instr that is no operation of the spec (WellFormed). Safe. -/
  | illFormed
  deriving DecidableEq, Repr

/-- Why an operation stops, of either kind. -/
inductive Stop where
  | fault (f : Fault)
  | refuse (r : Refusal)
  deriving DecidableEq, Repr

/-- One instance of the block. -/
structure State where
  /-- `BUF[0..23]` (R20): the cells that hold a value, by rising offset; a cell not listed holds no value. -/
  buf : List Host.Cell
  /-- `N`, the offset counter (R25). -/
  n : BitVec 5
  /-- `PP`, the pole-pair count (R32). -/
  pp : BitVec 8
  /-- `HALT` (R33). -/
  halt : Bool
  /-- `READY` (R28). -/
  ready : Bool
  /-- `REC_VALID` (R34). -/
  recValid : Bool
  /-- `CK_VALID` (R36). -/
  ckValid : Bool
  /-- `CK_RX` (R35). -/
  ckRx : BitVec 16
  /-- `CK_CALC` (R35). -/
  ckCalc : BitVec 16
  /-- The record registers `SEQ` to `FAULT` (R29, R30, R40 to R47). -/
  record : Record
  /-- The registered output `poll_result` (44_host_ops.md R198). -/
  pollResult : Bool
  /-- The events of the last step's operations, in order (60_exceptions.md R212). -/
  events : List Event
  /-- The registered outputs `ev_record`, `ev_cksum`, `ev_tmiss_mos`, `ev_tmiss_cap`: the events of the last operation
  alone, which in a sequence of `SUBMIT`s is the last of them (44_host_ops.md R198). -/
  pulses : List Event
  /-- The return values of the last step's operations, in order (00_scope.md R11). -/
  results : List Value
  /-- TEMP_PAIRS in half degrees (R49): a parameter, changed by nothing. Log 7. -/
  rom : List (Byte × BitVec 16)
  /-- The model's own: how many `INIT`s have been issued. Log 10. -/
  inits : Nat
  /-- The model's own: what the host presents next, first to last. Log 5. -/
  input : List Stimulus
  /-- The model's own: the `READ`s the host has still to make of a `POLLREAD` it has begun. Log 18. -/
  pending : List RegName
  deriving DecidableEq, Repr

/-- What the record registers are set to where the spec says they hold no value. DESIGN CHOICE, unsafe, log 2. -/
def blankRecord : Record :=
  { seq := 0, fcnt := 0, thrIn := 0, thrOut := 0, rpmQ := 0, rpmR := 0, vbus := 0, ibus := 0, iph := 0,
    tmos := 0, tmosMiss := false, tcap := 0, tcapMiss := false, status := 0, fault := false }

/-- The machine right after reset: reset is `INIT pp` (10_state.md R52, 70_reset_and_hazards.md R240), here with the
document's default pole-pair count 21 (DESIGN CHOICE, log 1). No input is presented. -/
def State.reset : State :=
  { buf := [], n := 0, pp := Config.ppDefault, halt := false, ready := false, recValid := false, ckValid := false,
    ckRx := 0, ckCalc := 0, record := blankRecord, pollResult := false, events := [],
    pulses := [], results := [], rom := Config.tempPairs, inits := 1, input := [], pending := [] }

end Sys2Proof.Machine
end

