-- ==== Sys2Proof/Machine/Ops.lean ====
section
/-! DEFINITION. The named operations over the frame buffer and the registers, and raising an error condition. -/

namespace Sys2Proof.Machine

/-- An operation's result before it becomes the outcome of a step: a value, or why there is none. -/
abbrev Res (α : Type) := Except Stop α

/-- The outcome of an operation on states. -/
def answer : Res State → Host.Outcome State Fault Refusal
  | .ok s => .next s
  | .error (.fault f) => .fault f
  | .error (.refuse r) => .refused r

/-! ## The frame buffer as memory: cells by strictly rising offset -/

/-- The byte at an offset; none where the cell holds no value (10_state.md R20). -/
def memRead : List Host.Cell → Nat → Option Byte
  | [], _ => none
  | (k, v) :: m, a => if k = a then some v else memRead m a

/-- Write one byte, keeping the rising order. -/
def memWrite : List Host.Cell → Nat → Byte → List Host.Cell
  | [], a, v => [(a, v)]
  | (k, w) :: m, a, v =>
    if a < k then (a, v) :: (k, w) :: m
    else if a = k then (a, v) :: m
    else (k, w) :: memWrite m a v

/-- Offsets strictly rise. -/
def memRising : List Host.Cell → Bool
  | [] => true
  | [_] => true
  | (a, _) :: (b, w) :: m => decide (a < b) && memRising ((b, w) :: m)

/-- The canonical form of the frame buffer: offsets strictly rise and lie in 0..23. An unlisted offset reads as no value,
which no listed cell can equal. -/
def memWf (m : List Host.Cell) : Bool := memRising m && m.all fun c => decide (c.1 < Config.packetSize)

/-- `BUF[i]` as an operation reads it: refused where the cell holds no value (00_scope.md R11). -/
def bufRead (s : State) (i : Nat) : Res Byte :=
  if i < Config.packetSize then
    match memRead s.buf i with
    | some v => .ok v
    | none => .error (.refuse (.noValue i))
  else .error (.fault (.noSuchOffset i))

/-- The buffer with one byte written. -/
def putByte (i : Nat) (v : Byte) (s : State) : State := { s with buf := memWrite s.buf i v }

/-- `BUF[i] <- v` (00_scope.md R11). -/
def bufWrite (s : State) (i : Nat) (v : Byte) : Res State :=
  if i < Config.packetSize then .ok (putByte i v s)
  else .error (.fault (.noSuchOffset i))

/-! ## Registers, return values, events -/

/-- An operation starts with no event pulsing (44_host_ops.md R198: "pulse, one cycle"). -/
def quiet (s : State) : State := { s with pulses := [] }

/-- A step starts with no event emitted, none pulsing, and nothing returned. -/
def fresh (s : State) : State := { s with events := [], pulses := [], results := [] }

/-- `return v` (00_scope.md R11). -/
def give (v : Value) (s : State) : State := { s with results := s.results ++ [v] }

/-- `emit Event` (00_scope.md R11): append to the output of the current operation, and pulse (44_host_ops.md R198). -/
def emit (e : Event) (s : State) : State := { s with events := s.events ++ [e], pulses := s.pulses ++ [e] }

/-- `N <- v`. -/
def setN (v : BitVec 5) (s : State) : State := { s with n := v }

/-- `READY <- 1` and `REC_VALID <- 1` (42_checksum.md R153). -/
def setReady (s : State) : State := { s with ready := true, recValid := true }

/-- The record registers, all together (43_extract.md R160). -/
def latchRecord (r : Record) (s : State) : State := { s with record := r }

/-- `CK_RX`, `CK_CALC`, `CK_VALID <- 1` (42_checksum.md R154). -/
def latchChecksums (rx sum : BitVec 16) (s : State) : State := { s with ckRx := rx, ckCalc := sum, ckValid := true }

/-- `READY <- 0`, and the answer to the observer on the output `poll_result` (44_host_ops.md R192, R193, R198). -/
def observeReady (s : State) : State := { s with ready := false, pollResult := s.ready }

/-- The `READ`s the host has still to make of a `POLLREAD` (log 18). -/
def setPending (fs : List RegName) (s : State) : State := { s with pending := fs }

/-- Every piece of state but `HALT`, `PP` and the parameter loses its value (44_host_ops.md R190, 10_state.md R52). What
then stands in the fields that hold no value is the model's choice (log 2, log 4, log 9). -/
def forget (pp : BitVec 8) (halt : Bool) (s : State) : State :=
  { s with buf := [], n := 0, pp := pp, halt := halt, ready := false, recValid := false, ckValid := false,
           ckRx := 0, ckCalc := 0, record := blankRecord, pollResult := false, inits := s.inits + 1 }

/-! ## A decoder must exist -/

/-- Whether the instance exists: `INIT` has been issued and the last one succeeded (44_host_ops.md R191). -/
def live (s : State) : Bool := decide (s.inits ≠ 0) && !s.halt

/-- Refuse on an instance that does not exist (R191). -/
def whenLive (s : State) (r : Res State) : Res State := if live s then r else .error (.refuse .noDecoder)

/-- The state before the first `INIT`, where nothing holds a value (10_state.md R52). Log 10. -/
def powerOn : State := { State.reset with pp := 0, inits := 0 }

/-! ## Error conditions (60_exceptions.md): the analogue of taking an exception. There is no return (R221). -/

/-- The spec's number of a condition (60_exceptions.md R211). -/
def errorCode : ErrorReport → Nat
  | .checksumMismatch _ _ => 1
  | .tempMiss _ _ => 2
  | .malformedConfiguration _ => 3

/-- The error condition an event reports; `RecordReady` is no error (60_exceptions.md R211). -/
def errorOfEvent : Event → Option ErrorReport
  | .recordReady => none
  | .checksumMismatch rx sum => some (.checksumMismatch rx sum)
  | .tempMiss x raw => some (.tempMiss x raw)

/-- What raising a condition changes (60_exceptions.md R219): a checksum mismatch latches the pair and is emitted; a
temperature miss is emitted, its miss bit being latched with the record; a malformed configuration halts the instance,
leaves nothing else with a value, and is the `INIT`'s return value. -/
def raiseError : ErrorReport → State → State
  | .checksumMismatch rx sum, s => emit (.checksumMismatch rx sum) (latchChecksums rx sum s)
  | .tempMiss x raw, s => emit (.tempMiss x raw) s
  | .malformedConfiguration pp, s => give (.malformedConfiguration pp) (forget 0 true s)

end Sys2Proof.Machine
end

