-- ==== Sys2Proof/Machine/Operands.lean ====
section
/-! DEFINITION. Field assembly from the frame buffer (spec/30_encoding.md R94 to R97) and the temperature table
(spec/40_temperature_lut.md). -/

namespace Sys2Proof.Machine

/-- `be16(i) = (BUF[i] << 8) | BUF[i+1]`, 0..65535 (R94). -/
def be16 (s : State) (i : Nat) : Res Nat := do
  let hi ← bufRead s i
  let lo ← bufRead s (i + 1)
  return (hi.toNat <<< 8) ||| lo.toNat

/-- `rx = BUF[22] | (BUF[23] << 8)`, 0..65535 (R95). -/
def receivedSum (s : State) : Res Nat := do
  let lo ← bufRead s 22
  let hi ← bufRead s 23
  return lo.toNat ||| (hi.toNat <<< 8)

/-- `seq = (BUF[0] << 8) | (BUF[1] << 16) | (BUF[2] << 24) | BUF[3]` (R96; conflict C3). -/
def sequenceMarker (s : State) : Res Nat := do
  let b0 ← bufRead s 0
  let b1 ← bufRead s 1
  let b2 ← bufRead s 2
  let b3 ← bufRead s 3
  return (b0.toNat <<< 8) ||| (b1.toNat <<< 16) ||| (b2.toNat <<< 24) ||| b3.toNat

/-- `BUF[0] + ... + BUF[k-1]`, a natural number (42_checksum.md R150). -/
def sumFirst (s : State) : Nat → Res Nat
  | 0 => return 0
  | k + 1 => do
    let acc ← sumFirst s k
    let b ← bufRead s k
    return acc + b.toNat

/-! ## The temperature table -/

/-- `LUT[k]` of an ordered list of pairs: start with every key absent, each pair replacing what its key had (R121). -/
def lut (pairs : List (Byte × BitVec 16)) (k : Byte) : Option (BitVec 16) :=
  pairs.foldl (fun found p => if p.1 = k then some p.2 else found) none

/-- `DECODE(k)`: half degrees as a signed integer, and the miss bit (R122). -/
def decodeTemperature (pairs : List (Byte × BitVec 16)) (k : Byte) : Int × Bool :=
  match lut pairs k with
  | some t2 => (t2.toInt, false)
  | none => (2 * Config.tempSentinel, true)

/-- A value of TEMP_PAIRS in half degrees; none where `2 * value` is no integer or lies outside 16 bits (R124). -/
def halfDegrees (v : Rat) : Option (BitVec 16) :=
  let t2 : Option Int := if v.den = 1 then some (2 * v.num) else if v.den = 2 then some v.num else none
  match t2 with
  | some t => if -32768 ≤ t ∧ t ≤ 32767 then some (BitVec.ofInt 16 t) else none
  | none => none

/-- TEMP_PAIRS as the host supplies it, in degrees, to the table State.rom holds; none for a table R124 has refused. -/
def suppliedTable : List (Byte × Rat) → Option (List (Byte × BitVec 16))
  | [] => some []
  | (k, v) :: rest =>
    match halfDegrees v, suppliedTable rest with
    | some t, some table => some ((k, t) :: table)
    | _, _ => none

end Sys2Proof.Machine
end

