-- ==== Sys2Proof/Machine/Flags.lean ====
section
/-! DEFINITION. The flag computations: `FAULT` (R29, R172), the validity test (42_checksum.md R155), the miss bits' events
(43_extract.md R160), and the registers `READ` returns (44_host_ops.md R194). -/

namespace Sys2Proof.Machine

/-- `FAULT = 1` if and only if `STATUS != 0` (10_state.md R29). -/
def faultFlag (status : Nat) : Bool := decide (status ≠ 0)

/-- The comparison at completion: equality of two naturals (42_checksum.md R155). -/
def checksumsAgree (sum rx : Nat) : Bool := sum == rx

/-- The miss events of an extraction, MOSFET first (43_extract.md R160). -/
def raiseMisses (r : Record) (j k : Byte) (s : State) : State :=
  let s := if r.tmosMiss then raiseError (.tempMiss .mos j) s else s
  if r.tcapMiss then raiseError (.tempMiss .cap k) s else s

/-- Whether a register is one of the record's (44_host_ops.md R194, first case). -/
def isRecordReg : RegName → Bool
  | .seq | .fcnt | .thrIn | .thrOut | .rpmQ | .rpmR | .vbus | .ibus | .iph | .tmos | .tmosMiss | .tcap | .tcapMiss
  | .status | .fault => true
  | .ckRx | .ckCalc | .ready | .recValid | .ckValid | .n | .pp | .halt => false

/-- Whether a register is one of the latched checksums (R194, second case). -/
def isChecksumReg : RegName → Bool
  | .ckRx | .ckCalc => true
  | .seq | .fcnt | .thrIn | .thrOut | .rpmQ | .rpmR | .vbus | .ibus | .iph | .tmos | .tmosMiss | .tcap | .tcapMiss
  | .status | .fault | .ready | .recValid | .ckValid | .n | .pp | .halt => false

/-- The value of a register: temperatures signed, one-bit registers as a bit, the others unsigned (10_state.md). -/
def regValue (s : State) : RegName → Value
  | .seq => .unsigned s.record.seq.toNat
  | .fcnt => .unsigned s.record.fcnt.toNat
  | .thrIn => .unsigned s.record.thrIn.toNat
  | .thrOut => .unsigned s.record.thrOut.toNat
  | .rpmQ => .unsigned s.record.rpmQ.toNat
  | .rpmR => .unsigned s.record.rpmR.toNat
  | .vbus => .unsigned s.record.vbus.toNat
  | .ibus => .unsigned s.record.ibus.toNat
  | .iph => .unsigned s.record.iph.toNat
  | .tmos => .signed s.record.tmos.toInt
  | .tmosMiss => .bit s.record.tmosMiss
  | .tcap => .signed s.record.tcap.toInt
  | .tcapMiss => .bit s.record.tcapMiss
  | .status => .unsigned s.record.status.toNat
  | .fault => .bit s.record.fault
  | .ckRx => .unsigned s.ckRx.toNat
  | .ckCalc => .unsigned s.ckCalc.toNat
  | .ready => .bit s.ready
  | .recValid => .bit s.recValid
  | .ckValid => .bit s.ckValid
  | .n => .unsigned s.n.toNat
  | .pp => .unsigned s.pp.toNat
  | .halt => .bit s.halt

end Sys2Proof.Machine
end

