-- ==== Sys2Proof/Machine/Codec.lean ====
section
/-! DEFINITION. The temperature codec: `DECODE` (spec/40_temperature_lut.md), and the answer of a pure function. -/

namespace Sys2Proof.Machine

/-- A pure function of the instance: it returns a value and writes nothing (30_encoding.md R99, 43_extract.md). -/
def answerFunction (f : State → Res Value) (s : State) : Host.Outcome State Fault Refusal :=
  answer (whenLive s (do
    let v ← f s
    return give v (fresh s)))

/-- `DECODE k` (R122): a function of the key and the table alone, which on an existing instance "never refuses, never
faults". Without a decoder it is refused as every operation but `INIT` is (10_state.md R33, R52, 70_reset_and_hazards.md
R240, U11; log 20). -/
def execDecode (k : Byte) (s : State) : Host.Outcome State Fault Refusal :=
  answerFunction (fun s => return .temperature (decodeTemperature s.rom k).1 (decodeTemperature s.rom k).2) s

end Sys2Proof.Machine
end

