-- ==== Sys2Proof/Machine/Extract.lean ====
section
/-! DEFINITION. The field extractor and fixed-point scaler (spec/43_extract.md). -/

namespace Sys2Proof.Machine

/-- `X.SEQ` (R161). -/
def xSeq (s : State) : Res Nat := sequenceMarker s

/-- `X.FCNT` (R162). -/
def xFcnt (s : State) : Res Nat := be16 s 4

/-- A throttle: `be16(i) * 25`, unit 1/256 percent (R163, R164). -/
def throttle (s : State) (i : Nat) : Res Nat := do
  let raw ← be16 s i
  return raw * 25

/-- `X.THR_IN` (R163). -/
def xThrIn (s : State) : Res Nat := throttle s 6

/-- `X.THR_OUT` (R164). -/
def xThrOut (s : State) : Res Nat := throttle s 8

/-- `num div PP` and `num mod PP` (R166); a free value for a pole-pair count of 0, which no reachable state has (log 17). -/
def scaleRpm (num : Nat) (pp : BitVec 8) : Nat × Nat :=
  if pp = 0 then ((Config.rpmAtZeroPoles num).1.toNat, (Config.rpmAtZeroPoles num).2.toNat)
  else (num / pp.toNat, num % pp.toNat)

/-- `X.RPM` (R166): `num = be16(10) * 10`. -/
def xRpm (s : State) : Res (Nat × Nat) := do
  let raw ← be16 s 10
  return scaleRpm (raw * 10) s.pp

/-- `X.VBUS` (R167). -/
def xVbus (s : State) : Res Nat := be16 s 12

/-- `X.IBUS` (R168). -/
def xIbus (s : State) : Res Nat := be16 s 14

/-- `X.IPH` (R169). -/
def xIph (s : State) : Res Nat := be16 s 16

/-- A temperature: `DECODE` of the byte at an offset (R170, 30_encoding.md R97). -/
def temperatureAt (s : State) (i : Nat) : Res (Int × Bool) := do
  let k ← bufRead s i
  return decodeTemperature s.rom k

/-- `X.TMOS` (R170). -/
def xTmos (s : State) : Res (Int × Bool) := temperatureAt s 18

/-- `X.TCAP` (R170). -/
def xTcap (s : State) : Res (Int × Bool) := temperatureAt s 19

/-- `X.STATUS` (R171). -/
def xStatus (s : State) : Res Nat := be16 s 20

/-- `X.FAULT` (R172). -/
def xFault (s : State) : Res Bool := do
  let status ← be16 s 20
  return faultFlag status

/-- Every record register, each from its own function, at the widths of 10_state.md R40 to R47. -/
def recordOf (s : State) : Res Record := do
  let seq ← xSeq s
  let fcnt ← xFcnt s
  let thrIn ← xThrIn s
  let thrOut ← xThrOut s
  let rpm ← xRpm s
  let vbus ← xVbus s
  let ibus ← xIbus s
  let iph ← xIph s
  let tmos ← xTmos s
  let tcap ← xTcap s
  let status ← xStatus s
  let fault ← xFault s
  return { seq := BitVec.ofNat 32 seq, fcnt := BitVec.ofNat 16 fcnt, thrIn := BitVec.ofNat 21 thrIn,
           thrOut := BitVec.ofNat 21 thrOut, rpmQ := BitVec.ofNat 20 rpm.1, rpmR := BitVec.ofNat 8 rpm.2,
           vbus := BitVec.ofNat 16 vbus, ibus := BitVec.ofNat 16 ibus, iph := BitVec.ofNat 16 iph,
           tmos := BitVec.ofInt 16 tmos.1, tmosMiss := tmos.2, tcap := BitVec.ofInt 16 tcap.1, tcapMiss := tcap.2,
           status := BitVec.ofNat 16 status, fault := fault }

/-- `EXTRACT` (R160): write the record, raise the temperature misses, MOSFET first. -/
def extract (s : State) : Res State := do
  let r ← recordOf s
  let j ← bufRead s 18
  let k ← bufRead s 19
  return raiseMisses r j k (latchRecord r s)

/-- `EXTRACT` on its own. -/
def execExtract (s : State) : Host.Outcome State Fault Refusal := answer (whenLive s (extract (fresh s)))

/-- `X.SEQ` on its own: the value is returned, no register is written (log 16), as for all the functions below. -/
def execXSeq (s : State) : Host.Outcome State Fault Refusal :=
  answerFunction (fun s => do let v ← xSeq s; return .unsigned v) s

/-- `X.FCNT` on its own. -/
def execXFcnt (s : State) : Host.Outcome State Fault Refusal :=
  answerFunction (fun s => do let v ← xFcnt s; return .unsigned v) s

/-- `X.THR_IN` on its own. -/
def execXThrIn (s : State) : Host.Outcome State Fault Refusal :=
  answerFunction (fun s => do let v ← xThrIn s; return .unsigned v) s

/-- `X.THR_OUT` on its own. -/
def execXThrOut (s : State) : Host.Outcome State Fault Refusal :=
  answerFunction (fun s => do let v ← xThrOut s; return .unsigned v) s

/-- `X.RPM` on its own. -/
def execXRpm (s : State) : Host.Outcome State Fault Refusal :=
  answerFunction (fun s => do let v ← xRpm s; return .quotRem v.1 v.2) s

/-- `X.VBUS` on its own. -/
def execXVbus (s : State) : Host.Outcome State Fault Refusal :=
  answerFunction (fun s => do let v ← xVbus s; return .unsigned v) s

/-- `X.IBUS` on its own. -/
def execXIbus (s : State) : Host.Outcome State Fault Refusal :=
  answerFunction (fun s => do let v ← xIbus s; return .unsigned v) s

/-- `X.IPH` on its own. -/
def execXIph (s : State) : Host.Outcome State Fault Refusal :=
  answerFunction (fun s => do let v ← xIph s; return .unsigned v) s

/-- `X.TMOS` on its own. -/
def execXTmos (s : State) : Host.Outcome State Fault Refusal :=
  answerFunction (fun s => do let v ← xTmos s; return .temperature v.1 v.2) s

/-- `X.TCAP` on its own. -/
def execXTcap (s : State) : Host.Outcome State Fault Refusal :=
  answerFunction (fun s => do let v ← xTcap s; return .temperature v.1 v.2) s

/-- `X.STATUS` on its own. -/
def execXStatus (s : State) : Host.Outcome State Fault Refusal :=
  answerFunction (fun s => do let v ← xStatus s; return .unsigned v) s

/-- `X.FAULT` on its own. -/
def execXFault (s : State) : Host.Outcome State Fault Refusal :=
  answerFunction (fun s => do let v ← xFault s; return .bit v) s

end Sys2Proof.Machine
end

