-- ==== Sys2Proof/Machine/Checksum.lean ====
section
/-! DEFINITION. The checksum validator (spec/42_checksum.md) and the completion procedure (41_sync.md R136). -/

namespace Sys2Proof.Machine

/-- `CKSUM` (R150): the sum of `BUF[0..21]`, a natural number. -/
def cksum (s : State) : Res Nat := sumFirst s Config.sumLen

/-- `ACCEPT` (R153): extract, set `REC_VALID` and `READY`, emit `RecordReady`. -/
def accept (s : State) : Res State := do
  let t ← extract s
  return emit .recordReady (setReady t)

/-- `REJECT(rx, calc)` (R154): raise `ChecksumMismatch`. -/
def reject (rx sum : Nat) (s : State) : State :=
  raiseError (.checksumMismatch (BitVec.ofNat 16 rx) (BitVec.ofNat 16 sum)) s

/-- `COMPLETE` (41_sync.md R136). -/
def complete (s : State) : Res State := do
  let sum ← cksum s
  let rx ← receivedSum s
  if checksumsAgree sum rx then accept s else return reject rx sum s

/-- `CKSUM` on its own. -/
def execCksum (s : State) : Host.Outcome State Fault Refusal :=
  answerFunction (fun s => do let v ← cksum s; return .unsigned v) s

/-- `COMPLETE` on its own. -/
def execComplete (s : State) : Host.Outcome State Fault Refusal := answer (whenLive s (complete (fresh s)))

/-- `ACCEPT` on its own: "Runs when `calc = rx`." (R153): it is selected only then (log 15). -/
def execAccept (s : State) : Host.Outcome State Fault Refusal :=
  answer (whenLive s (do
    let sum ← cksum s
    let rx ← receivedSum s
    if checksumsAgree sum rx then accept (fresh s) else .error (.refuse (.notSelected "ACCEPT"))))

/-- `REJECT` on its own: "Runs when `calc != rx`." (R154): it is selected only then (log 15). -/
def execReject (s : State) : Host.Outcome State Fault Refusal :=
  answer (whenLive s (do
    let sum ← cksum s
    let rx ← receivedSum s
    if checksumsAgree sum rx then .error (.refuse (.notSelected "REJECT")) else return reject rx sum (fresh s)))

end Sys2Proof.Machine
end

