-- ==== Sys2Proof/Machine/Sync.lean ====
section
/-! DEFINITION. The frame synchronizer: `SUBMIT` and its six cases (spec/41_sync.md). -/

namespace Sys2Proof.Machine

/-- `SYNC0` (R131): `BUF[0] <- b` (b is 0x9B), `N <- 1`. -/
def sync0 (s : State) : Res State := do
  let t ← bufWrite s 0 Config.header0
  return setN 1 t

/-- `SYNC1` (R132): `BUF[1] <- b` (b is 0x16), `N <- 2`. -/
def sync1 (s : State) : Res State := do
  let t ← bufWrite s 1 Config.header1
  return setN 2 t

/-- `SKIP` (R138): nothing is written. -/
def skip (s : State) : Res State := return s

/-- `DESYNC` (R133): `N <- 0`; the byte is not stored. -/
def desync (s : State) : Res State := return setN 0 s

/-- `STORE` (R134): `BUF[N] <- b`, `N <- N + 1`. -/
def store (b : Byte) (s : State) : Res State := do
  let t ← bufWrite s s.n.toNat b
  return setN (s.n + 1) t

/-- `FINAL` (R135): `BUF[23] <- b`, `N <- 0`, then `COMPLETE` in the same operation. -/
def final (b : Byte) (s : State) : Res State := do
  let t ← bufWrite s 23 b
  complete (setN 0 t)

/-- The dispatch of `SUBMIT b` on `(N, b)` (R130); `N` in 24..31 is refused (30_encoding.md R100, U12). -/
def submitCase (b : Byte) (s : State) : Res State :=
  if s.n = 0 ∧ b = Config.header0 then sync0 s
  else if s.n = 0 then skip s
  else if s.n = 1 ∧ b = Config.header1 then sync1 s
  else if s.n = 1 then desync s
  else if 2 ≤ s.n.toNat ∧ s.n.toNat ≤ 22 then store b s
  else if s.n = 23 then final b s
  else .error (.refuse .unreachableOffset)

/-- `SUBMIT b` (R130), as one operation of a sequence. -/
def submit (b : Byte) (s : State) : Res State := whenLive s (submitCase b s)

/-- A dispatch case on its own: it has a meaning only where its row of R100 selects it (log 15). -/
def whenSelected (selected : Bool) (mnemonic : String) (s : State) (r : Res State) : Res State :=
  whenLive s (if selected then r else .error (.refuse (.notSelected mnemonic)))

/-- `SUBMIT b`. -/
def execSubmit (b : Byte) (s : State) : Host.Outcome State Fault Refusal := answer (submit b (fresh s))

/-- `SYNC0`: `N = 0`, the byte is 0x9B. -/
def execSync0 (s : State) : Host.Outcome State Fault Refusal :=
  answer (whenSelected (s.n == 0) "SYNC0" s (sync0 (fresh s)))

/-- `SKIP`: `N = 0`, any other byte. -/
def execSkip (b : Byte) (s : State) : Host.Outcome State Fault Refusal :=
  answer (whenSelected (s.n == 0 && b != Config.header0) "SKIP" s (skip (fresh s)))

/-- `SYNC1`: `N = 1`, the byte is 0x16. -/
def execSync1 (s : State) : Host.Outcome State Fault Refusal :=
  answer (whenSelected (s.n == 1) "SYNC1" s (sync1 (fresh s)))

/-- `DESYNC`: `N = 1`, any other byte. -/
def execDesync (b : Byte) (s : State) : Host.Outcome State Fault Refusal :=
  answer (whenSelected (s.n == 1 && b != Config.header1) "DESYNC" s (desync (fresh s)))

/-- `STORE`: `2 <= N <= 22`, any byte; the word carries `N` itself. -/
def execStore (n : BitVec 5) (b : Byte) (s : State) : Host.Outcome State Fault Refusal :=
  answer (whenSelected (s.n == n && decide (2 ≤ n.toNat) && decide (n.toNat ≤ 22)) "STORE" s (store b (fresh s)))

/-- `FINAL`: `N = 23`, any byte. -/
def execFinal (b : Byte) (s : State) : Host.Outcome State Fault Refusal :=
  answer (whenSelected (s.n == 23) "FINAL" s (final b (fresh s)))

end Sys2Proof.Machine
end

