-- ==== Sys2Proof/Machine/HostOps.lean ====
section
/-! DEFINITION. The host operations other than `SUBMIT` (spec/44_host_ops.md): `INIT`, `ISREADY`, `TAKE`, `READ`, `IDLE`. -/

namespace Sys2Proof.Machine

/-- `INIT pp` (R190): construct the decoder, or raise `MalformedConfiguration`. It runs in any state. -/
def initialise (pp : Int) (s : State) : State :=
  if pp ≤ 0 ∨ 255 < pp then raiseError (.malformedConfiguration pp) s
  else give .ok (forget (BitVec.ofInt 8 pp) false s)

/-- `ISREADY` (R192): return `READY` and clear it. -/
def isReady (s : State) : Res State := whenLive s (return give (.bit s.ready) (observeReady s))

/-- `TAKE` (R193): the record if `READY` is 1, which it clears; else none. -/
def take (s : State) : Res State :=
  whenLive s (return give (.record (if s.ready then some s.record else none)) (observeReady s))

/-- `READ f` on an instance that exists, the three cases of R194's pseudocode: a record register is returned where
`REC_VALID = 1`, "else refuse"; `CK_RX` and `CK_CALC` where `CK_VALID = 1`, "else refuse"; any other register always. -/
def readLive (f : RegName) (s : State) : Res State :=
  if isRecordReg f && !s.recValid then .error (.refuse (.recordNotValid f))
  else if isChecksumReg f && !s.ckValid then .error (.refuse (.checksumNotLatched f))
  else return give (regValue s f) s

/-- `READ f` (R194); of `HALT` also while halted (R191), once an `INIT` has been issued (log 10). -/
def readReg (f : RegName) (s : State) : Res State :=
  if f = .halt ∧ s.inits ≠ 0 then return give (regValue s .halt) s
  else whenLive s (readLive f s)

/-- `IDLE` (R195): no effect, no result. -/
def idle (s : State) : Res State := whenLive s (return s)

/-- `INIT pp`. -/
def execInit (pp : Int) (s : State) : Host.Outcome State Fault Refusal := answer (.ok (initialise pp (fresh s)))

/-- `ISREADY`. -/
def execIsready (s : State) : Host.Outcome State Fault Refusal := answer (isReady (fresh s))

/-- `TAKE`. -/
def execTake (s : State) : Host.Outcome State Fault Refusal := answer (take (fresh s))

/-- `READ f`. -/
def execRead (f : RegName) (s : State) : Host.Outcome State Fault Refusal := answer (readReg f (fresh s))

/-- `IDLE`. -/
def execIdle (s : State) : Host.Outcome State Fault Refusal := answer (idle (fresh s))

end Sys2Proof.Machine
end

