-- ==== Sys2Proof/Machine/Pseudo.lean ====
section
/-! DEFINITION. The pseudo-operations (spec/30_encoding.md R109), each the sequence it expands to. `BYTES`, `FRAME` and
`FRAMEF` run their `SUBMIT`s in order in one step; `POLLREAD`, which is not atomic, runs its `ISREADY` and leaves its
`READ`s to later steps (log 18). -/

namespace Sys2Proof.Machine

/-- `SUBMIT b0`, `SUBMIT b1`, ..., in that order; the pulses are those of the last. No byte at all, which R109 gives no
form, is no `SUBMIT`: nothing happens (DESIGN CHOICE, safe, log 24). -/
def submitAll : List Byte → State → Res State
  | [], s => return s
  | b :: bs, s => do
    let t ← submit b (quiet s)
    submitAll bs t

/-- The record registers in the order `TAKE` returns them (44_host_ops.md R193). -/
def recordRegs : List RegName :=
  [.seq, .fcnt, .thrIn, .thrOut, .rpmQ, .rpmR, .vbus, .ibus, .iph, .tmos, .tmosMiss, .tcap, .tcapMiss, .status, .fault]

/-- `ISREADY`; if it returned 1, `READ` of every record register is what the host has still to do: the sequence is not
atomic (R109, 20_memory.md R75, 70_reset_and_hazards.md R246), so other operations may come between (log 18). -/
def pollRead (s : State) : Res State := do
  let t ← isReady s
  return if s.ready then setPending (s.pending ++ recordRegs) t else t

/-- `SUBMIT`s in order as one step, on an instance that exists; without a decoder a chunk is refused, the empty one too
(44_host_ops.md R191, 10_state.md R33; log 24). -/
def execChunk (bs : List Byte) (s : State) : Host.Outcome State Fault Refusal :=
  answer (whenLive s (submitAll bs (fresh s)))

/-- `BYTES b0 ... bk`. That the list may be empty is the model's choice (DESIGN CHOICE, safe, log 24). -/
def execBytes (bs : List Byte) (s : State) : Host.Outcome State Fault Refusal := execChunk bs s

/-- `FRAME p2 ... p21`. -/
def execFrame (p : List Byte) (s : State) : Host.Outcome State Fault Refusal := execChunk (frameBytes p) s

/-- `FRAMEF a ... l`. -/
def execFramef (x : FrameFields) (s : State) : Host.Outcome State Fault Refusal := execChunk (frameBytes (payloadOf x)) s

/-- `POLLREAD`. -/
def execPollread (s : State) : Host.Outcome State Fault Refusal := answer (pollRead (fresh s))

end Sys2Proof.Machine
end

