-- ==== Sys2Proof/Machine/Dispatch.lean ====
section
/-! DEFINITION. The dispatch: one arm per constructor of Instr, each one call of its meaning. -/

namespace Sys2Proof.Machine

/-- One operation on one instance. -/
def exec (i : Instr) (s : State) : Host.Outcome State Fault Refusal :=
  match i with
  | .init pp => Sys2Proof.Machine.execInit pp s
  | .take => Sys2Proof.Machine.execTake s
  | .isready => Sys2Proof.Machine.execIsready s
  | .submit b => Sys2Proof.Machine.execSubmit b s
  | .idle => Sys2Proof.Machine.execIdle s
  | .read f => Sys2Proof.Machine.execRead f s
  | .sync0 => Sys2Proof.Machine.execSync0 s
  | .skip b => Sys2Proof.Machine.execSkip b s
  | .sync1 => Sys2Proof.Machine.execSync1 s
  | .desync b => Sys2Proof.Machine.execDesync b s
  | .final b => Sys2Proof.Machine.execFinal b s
  | .store n b => Sys2Proof.Machine.execStore n b s
  | .complete => Sys2Proof.Machine.execComplete s
  | .cksum => Sys2Proof.Machine.execCksum s
  | .accept => Sys2Proof.Machine.execAccept s
  | .reject => Sys2Proof.Machine.execReject s
  | .extract => Sys2Proof.Machine.execExtract s
  | .xSeq => Sys2Proof.Machine.execXSeq s
  | .xFcnt => Sys2Proof.Machine.execXFcnt s
  | .xThrIn => Sys2Proof.Machine.execXThrIn s
  | .xThrOut => Sys2Proof.Machine.execXThrOut s
  | .xRpm => Sys2Proof.Machine.execXRpm s
  | .xVbus => Sys2Proof.Machine.execXVbus s
  | .xIbus => Sys2Proof.Machine.execXIbus s
  | .xIph => Sys2Proof.Machine.execXIph s
  | .xTmos => Sys2Proof.Machine.execXTmos s
  | .xTcap => Sys2Proof.Machine.execXTcap s
  | .xStatus => Sys2Proof.Machine.execXStatus s
  | .xFault => Sys2Proof.Machine.execXFault s
  | .decode k => Sys2Proof.Machine.execDecode k s
  | .bytes bs => Sys2Proof.Machine.execBytes bs s
  | .frame p => Sys2Proof.Machine.execFrame p s
  | .framef x => Sys2Proof.Machine.execFramef x s
  | .pollread => Sys2Proof.Machine.execPollread s

end Sys2Proof.Machine
end

