-- ==== Sys2Proof/Machine/Fetch.lean ====
section
/-! DEFINITION. What the next step runs: the head of the input, decoded (log 5, log 11, log 12, log 18), and how an instruction's
word is presented (log 14). -/

namespace Sys2Proof.Machine

/-- What the fetch finds, with the state to run it in: the input that follows. -/
inductive Fetched where
  /-- An operation. -/
  | run (i : Instr) (t : State)
  /-- Strobes on an instance that does not exist: "every strobe but `rst` is ignored" (44_host_ops.md R191). -/
  | ignore (t : State)
  /-- No operation. -/
  | stop (x : Stop)
  deriving DecidableEq, Repr

/-- `MemRead(BUF, 0, k)`: the first `k` bytes of the buffer, in order (00_scope.md R11). -/
def readBytes (s : State) : Nat → Res (List Byte)
  | 0 => return []
  | k + 1 => do
    let bs ← readBytes s k
    let b ← bufRead s k
    return bs ++ [b]

/-- A word as the decoder gets it: the 24 bytes of a frame word are BUF's (30_encoding.md R91). -/
def wordOf (s : State) (p : Packet) : Res Packet :=
  match p.format with
  | .frame24 => do
    let bs ← readBytes s Config.packetSize
    return { p with bytes := bs ++ p.bytes.drop Config.packetSize }
  | .hostCmd4 | .submit13 | .completion | .lutKey8 | .pseudo => return p

/-- Whether an operation is asked for by a strobe other than `rst` (30_encoding.md R101). -/
def isStrobe : Instr → Bool
  | .take | .isready | .submit _ | .idle => true
  | .init _ | .read _ | .sync0 | .skip _ | .sync1 | .desync _ | .final _ | .store _ _ | .complete | .cksum | .accept
  | .reject | .extract | .xSeq | .xFcnt | .xThrIn | .xThrOut | .xRpm | .xVbus | .xIbus | .xIph | .xTmos | .xTcap
  | .xStatus | .xFault | .decode _ | .bytes _ | .frame _ | .framef _ | .pollread => false

/-- The rest of a word, if any, before the rest of the input. -/
def putBack (left : Option Packet) (rest : List Stimulus) : List Stimulus :=
  match left with
  | some p => .word p :: rest
  | none => rest

/-- Take the rest of the input. -/
def setInput (rest : List Stimulus) (s : State) : State := { s with input := rest }

/-- The operation of a word. -/
def fetchWord (s : State) (p : Packet) (rest : List Stimulus) : Fetched :=
  match wordOf s p with
  | .error x => .stop x
  | .ok q =>
    match decode q with
    | .error e => .stop (.refuse (.undecodable e))
    | .ok (i, left) =>
      let t := setInput (putBack left rest) s
      if p.format = .hostCmd4 ∧ isStrobe i = true ∧ live s = false then .ignore t else .run i t

/-- The next `READ` of a `POLLREAD` the host has begun (30_encoding.md R109, log 18); where there is none a cycle without
a strobe passes (44_host_ops.md R195). -/
def fetchPending (s : State) (rest : List Stimulus) : Fetched :=
  match s.pending with
  | f :: fs => .run (.read f) (setPending fs (setInput rest s))
  | [] => fetchWord s (hostWord 0 0 0 0) rest

/-- The next operation: what the host presents, and where it presents nothing what is pending. -/
def fetch (s : State) : Fetched :=
  match s.input with
  | [] => fetchPending s []
  | .resume :: rest => fetchPending s rest
  | .word p :: rest => fetchWord s p rest
  | .op i :: rest => if i.wellFormed then .run i (setInput rest s) else .stop (.refuse .illFormed)

/-! ## Presenting a word -/

/-- Give the cells below an offset a value where they have none: a candidate frame of that length, header and zeros
(10_state.md R23 (c): with `N = n` the cells below `n` hold values). -/
def fillBelow : Nat → List Host.Cell → List Host.Cell
  | 0, m => m
  | k + 1, m =>
    let m := fillBelow k m
    if (memRead m k).isSome then m
    else memWrite m k (if k = 0 then Config.header0 else if k = 1 then Config.header1 else 0)

/-- Write bytes at rising offsets. -/
def writeBytes : Nat → List Byte → List Host.Cell → List Host.Cell
  | _, [], m => m
  | a, b :: bs, m => writeBytes (a + 1) bs (memWrite m a b)

/-- Make a word the next the machine runs, with the state its format reads: a dispatch word's `N` is the offset counter
and a frame word is the buffer. -/
def present (p : Packet) (s : State) : State :=
  let s := { s with input := .word p :: s.input }
  match p.format, p.bytes with
  | .submit13, [_, hi] => { s with n := hi.setWidth 5, buf := fillBelow (min (hi.toNat % 32) 23) s.buf }
  | .frame24, bs => { s with buf := writeBytes 0 (bs.take Config.packetSize) s.buf }
  | _, _ => s

/-- Present the word the opcode table numbers; a state without change where no format has that many bits. -/
def presentTableWord (nbits w : Nat) (s : State) : State :=
  match tablePacket nbits w with
  | some p => present p s
  | none => s

end Sys2Proof.Machine
end

