-- ==== Sys2Proof/Machine/Observe.lean ====
section
/-! DEFINITION. What the host sees without an operation: the output wires (44_host_ops.md R198), the document's state
names (10_state.md R26), and the engineering values (00_scope.md R13, 43_extract.md R175). -/

namespace Sys2Proof.Machine

/-- Whether a `TempMiss` of a sensor is among the events. -/
def missEmitted (x : Sensor) (es : List Event) : Bool :=
  es.any fun e =>
    match e with
    | .tempMiss y _ => x == y
    | .recordReady => false
    | .checksumMismatch _ _ => false

/-- Whether a `ChecksumMismatch` is among the events. -/
def mismatchEmitted (es : List Event) : Bool :=
  es.any fun e =>
    match e with
    | .checksumMismatch _ _ => true
    | .recordReady => false
    | .tempMiss _ _ => false

/-- The output wires (R198). On an instance that does not exist `cfg_error` is high and `ready` low (R191); a wire whose
register holds no value shows a free value (log 19). The `ev_` wires pulse the last operation's events alone. -/
def outputs (s : State) : Outputs :=
  let free := Config.floating s.inits
  { ready := live s && s.ready
    pollResult := if live s then s.pollResult else free.pollResult
    recValid := if live s then s.recValid else free.recValid
    record := if live s && s.recValid then s.record else free.record
    evRecord := s.pulses.contains .recordReady
    evCksum := mismatchEmitted s.pulses
    evTmissMos := missEmitted .mos s.pulses
    evTmissCap := missEmitted .cap s.pulses
    ckValid := if live s then s.ckValid else free.ckValid
    ckRx := if live s && s.ckValid then s.ckRx else free.ckRx
    ckCalc := if live s && s.ckValid then s.ckCalc else free.ckCalc
    cfgError := !live s
    polePairs := if live s then s.pp else free.polePairs
    offset := if live s then s.n else free.offset }

/-- The document's three persistent states (10_state.md R26). -/
inductive SyncState where
  | seekHeader0
  | seekHeader1
  | collecting (n : Nat)
  deriving DecidableEq, Repr

/-- The document's state a value of `N` stands for; none for 24..31 (R26, conflict C1: collecting runs over 2..23). -/
def syncState (s : State) : Option SyncState :=
  if s.n = 0 then some .seekHeader0
  else if s.n = 1 then some .seekHeader1
  else if s.n.toNat ≤ 23 then some (.collecting s.n.toNat)
  else none

/-- The document's TelemetryRecord, in its units, exact rationals (R175). -/
structure TelemetryRecord where
  sequenceMarker : Nat
  frameCounter : Nat
  throttleInputPercent : Rat
  throttleOutputPercent : Rat
  rotorSpeedRPM : Rat
  busVoltage : Rat
  busCurrent : Rat
  phaseCurrent : Rat
  mosfetTempC : Rat
  capacitorTempC : Rat
  statusCode : Nat
  faultFlag : Bool
  deriving DecidableEq

/-- The engineering values of a record decoded with a pole-pair count (R175). -/
def telemetry (r : Record) (pp : BitVec 8) : TelemetryRecord :=
  { sequenceMarker := r.seq.toNat
    frameCounter := r.fcnt.toNat
    throttleInputPercent := (r.thrIn.toNat : Rat) / 256
    throttleOutputPercent := (r.thrOut.toNat : Rat) / 256
    rotorSpeedRPM := ((r.rpmQ.toNat : Rat) * pp.toNat + r.rpmR.toNat) / pp.toNat
    busVoltage := (r.vbus.toNat : Rat) / 10
    busCurrent := (r.ibus.toNat : Rat) / 64
    phaseCurrent := (r.iph.toNat : Rat) / 64
    mosfetTempC := (r.tmos.toInt : Rat) / 2
    capacitorTempC := (r.tcap.toInt : Rat) / 2
    statusCode := r.status.toNat
    faultFlag := r.fault }

end Sys2Proof.Machine
end

