-- ==== Sys2Proof/Safety.lean ====
section
/-! DEFINITION. The terms claims are stated in: a buffer that holds a frame, what the spec says a frame decodes to, and
the invariant of 10_state.md R53 and R23. -/

namespace Sys2Proof.Machine

/-- The 24 cells of the buffer hold the bytes `f 0` to `f 23`. -/
def HoldsFrame (s : State) (f : Nat → Byte) : Prop := ∀ i < 24, memRead s.buf i = some (f i)

/-- The bytes of a list as a frame. -/
def frameAt (bs : List Byte) (i : Nat) : Byte := bs.getD i 0

/-- The big-endian 16-bit value at offsets `i`, `i + 1` (20_memory.md R61). -/
def word16 (f : Nat → Byte) (i : Nat) : Nat := (f i).toNat * 256 + (f (i + 1)).toNat

/-- The sum of the first 22 bytes (42_checksum.md R150). -/
def frameSum (f : Nat → Byte) : Nat := ((List.range 22).map fun i => (f i).toNat).sum

/-- The trailer, low byte at offset 22 (20_memory.md R62). -/
def frameTrailer (f : Nat → Byte) : Nat := (f 22).toNat + 256 * (f 23).toNat

/-- The record a frame decodes to with a table and a pole-pair count (10_state.md R40 to R47, R29, R30). -/
def recordOfFrame (rom : List (Byte × BitVec 16)) (pp : BitVec 8) (f : Nat → Byte) : Record :=
  { seq := f 2 ++ f 1 ++ f 0 ++ f 3
    fcnt := f 4 ++ f 5
    thrIn := BitVec.ofNat 21 (word16 f 6 * 25)
    thrOut := BitVec.ofNat 21 (word16 f 8 * 25)
    rpmQ := BitVec.ofNat 20 (word16 f 10 * 10 / pp.toNat)
    rpmR := BitVec.ofNat 8 (word16 f 10 * 10 % pp.toNat)
    vbus := f 12 ++ f 13
    ibus := f 14 ++ f 15
    iph := f 16 ++ f 17
    tmos := (lut rom (f 18)).getD 260
    tmosMiss := (lut rom (f 18)).isNone
    tcap := (lut rom (f 19)).getD 260
    tcapMiss := (lut rom (f 19)).isNone
    status := f 20 ++ f 21
    fault := f 20 != 0 || f 21 != 0 }

/-- The temperature misses of a frame, MOSFET first (60_exceptions.md R212). -/
def missEvents (rom : List (Byte × BitVec 16)) (f : Nat → Byte) : List Event :=
  (if (lut rom (f 18)).isNone then [.tempMiss .mos (f 18)] else []) ++
  (if (lut rom (f 19)).isNone then [.tempMiss .cap (f 19)] else [])

/-- The event of a frame whose sums differ: received value first (60_exceptions.md R212). -/
def mismatchEvent (f : Nat → Byte) : Event :=
  .checksumMismatch (BitVec.ofNat 16 (frameTrailer f)) (BitVec.ofNat 16 (frameSum f))

/-- What `COMPLETE` makes of a buffer that holds `f`, the frame being accepted: record, flags and events. -/
def accepted (f : Nat → Byte) (s : State) : State :=
  { s with record := recordOfFrame s.rom s.pp f, ready := true, recValid := true
           events := s.events ++ missEvents s.rom f ++ [.recordReady]
           pulses := s.pulses ++ missEvents s.rom f ++ [.recordReady] }

/-- What `COMPLETE` makes of it, the frame being rejected: the latched pair and the event. -/
def rejected (f : Nat → Byte) (s : State) : State :=
  { s with ckRx := BitVec.ofNat 16 (frameTrailer f), ckCalc := BitVec.ofNat 16 (frameSum f), ckValid := true
           events := s.events ++ [mismatchEvent f], pulses := s.pulses ++ [mismatchEvent f] }

/-- The outcome of a completion: the validity test of 42_checksum.md R155. -/
def completed (f : Nat → Byte) (s : State) : State :=
  if frameSum f = frameTrailer f then accepted f s else rejected f s

/-- The invariant of 10_state.md R53 and R23, with the canonical form of the buffer. -/
structure BlockInv (s : State) : Prop where
  /-- The buffer is in canonical form. -/
  form : memWf s.buf = true
  /-- R53 (a): `0 <= N <= 23`. -/
  offset : s.n.toNat ≤ 23
  /-- R53 (b): `1 <= PP <= 255` on an instance that exists. -/
  poles : live s = true → 1 ≤ s.pp.toNat
  /-- R53 (c): `READY = 1` implies `REC_VALID = 1`. -/
  readyRecord : s.ready = true → s.recValid = true
  /-- R53 (d), R29: `FAULT = (STATUS != 0)`. -/
  faultBit : s.recValid = true → (s.record.fault = true ↔ s.record.status ≠ 0)
  /-- R53 (d): `RPM_R < PP`. -/
  remainder : s.recValid = true → s.record.rpmR.toNat < s.pp.toNat
  /-- R53 (d): `TMOS_MISS = 1` implies `TMOS = 260`. -/
  mosSentinel : s.recValid = true → s.record.tmosMiss = true → s.record.tmos = 260
  /-- R53 (d): the same for `TCAP`. -/
  capSentinel : s.recValid = true → s.record.tcapMiss = true → s.record.tcap = 260
  /-- R53 (e): `CK_VALID = 1` implies `CK_RX != CK_CALC` and `177 <= CK_CALC <= 5277`. -/
  checksums : s.ckValid = true → s.ckRx ≠ s.ckCalc ∧ 177 ≤ s.ckCalc.toNat ∧ s.ckCalc.toNat ≤ 5277
  /-- R23 (a): `BUF[0]`, once written, holds 0x9B. -/
  header0 : memRead s.buf 0 = none ∨ memRead s.buf 0 = some 0x9B
  /-- R23 (b): `BUF[1]`, once written, holds 0x16. -/
  header1 : memRead s.buf 1 = none ∨ memRead s.buf 1 = some 0x16
  /-- R23 (c): with `N = n` the cells below `n` hold values. -/
  collected : ∀ i < s.n.toNat, (memRead s.buf i).isSome = true

/-- One byte of the buffer is written and every other cell reads as before. -/
def StoresByte (s t : State) (a : Nat) (v : Byte) : Prop :=
  memRead t.buf a = some v ∧ ∀ i, i ≠ a → memRead t.buf i = memRead s.buf i

/-- The frame's two header bytes (30_encoding.md R91). -/
def Headed (f : Nat → Byte) : Prop := f 0 = 0x9B ∧ f 1 = 0x16

/-- The offsets of the cells an operation on the buffer reads, before anything else it does (42_checksum.md R150, 41_sync.md
R136, 43_extract.md R160 to R172). -/
def cellsRead : Instr → List Nat
  | .complete | .accept | .reject => List.range 24
  | .cksum | .extract => List.range 22
  | .xSeq => [0, 1, 2, 3]
  | .xFcnt => [4, 5]
  | .xThrIn => [6, 7]
  | .xThrOut => [8, 9]
  | .xRpm => [10, 11]
  | .xVbus => [12, 13]
  | .xIbus => [14, 15]
  | .xIph => [16, 17]
  | .xTmos => [18]
  | .xTcap => [19]
  | .xStatus | .xFault => [20, 21]
  | .init _ | .take | .isready | .submit _ | .idle | .read _ | .sync0 | .skip _ | .sync1 | .desync _ | .final _
  | .store _ _ | .decode _ | .bytes _ | .frame _ | .framef _ | .pollread => []

/-- What the document's host operations are: the six rows a host can ask for (30_encoding.md R99). -/
def isHostOperation : Instr → Bool
  | .init _ | .submit _ | .isready | .take | .read _ | .idle => true
  | .sync0 | .skip _ | .sync1 | .desync _ | .final _ | .store _ _ | .complete | .cksum | .accept | .reject | .extract
  | .xSeq | .xFcnt | .xThrIn | .xThrOut | .xRpm | .xVbus | .xIbus | .xIph | .xTmos | .xTcap | .xStatus | .xFault
  | .decode _ | .bytes _ | .frame _ | .framef _ | .pollread => false

/-- The operations that may store into the buffer: `INIT`, `SUBMIT`, the cases that store, and what expands to `SUBMIT`
(10_state.md R21, R22). -/
def mayStore : Instr → Bool
  | .init _ | .submit _ | .sync0 | .sync1 | .store _ _ | .final _ | .bytes _ | .frame _ | .framef _ => true
  | .isready | .take | .read _ | .idle | .skip _ | .desync _ | .complete | .cksum | .accept | .reject | .extract
  | .xSeq | .xFcnt | .xThrIn | .xThrOut | .xRpm | .xVbus | .xIbus | .xIph | .xTmos | .xTcap | .xStatus | .xFault
  | .decode _ | .pollread => false

/-- Whether the operation is an `INIT`. -/
def isInit : Instr → Bool
  | .init _ => true
  | .submit _ | .isready | .take | .read _ | .idle | .sync0 | .skip _ | .sync1 | .desync _ | .final _ | .store _ _
  | .complete | .cksum | .accept | .reject | .extract | .xSeq | .xFcnt | .xThrIn | .xThrOut | .xRpm | .xVbus | .xIbus
  | .xIph | .xTmos | .xTcap | .xStatus | .xFault | .decode _ | .bytes _ | .frame _ | .framef _ | .pollread => false

/-- The byte pair that opens a frame stands nowhere in the bytes (41_sync.md R140 (a)). -/
def noHeaderPair : List Byte → Prop
  | [] => True
  | [_] => True
  | a :: b :: bs => ¬ (a = 0x9B ∧ b = 0x16) ∧ noHeaderPair (b :: bs)

end Sys2Proof.Machine
end

