-- ==== Sys2Proof/Certificates/Slice0/Obligations.lean ====
section
/-! DEFINITION. The statements for the provers. Each cites the rules of spec/ it formalises. -/

open Sys2Proof Sys2Proof.Machine

/-! ## Host operations (44_host_ops.md) -/

/-- R190, R52, R240, R241: a legal `INIT`, in any state at all, constructs the decoder: the flags are clear, the offset is
0, no cell of the buffer and no guarded register holds a value, the table is untouched, no event is emitted. What stands
in the fields that hold no value is not claimed (logs 2, 9). That the `READ`s of a `POLLREAD` still to be made stay to be
made (and are then refused) is the model's choice (log 18). -/
def Obligations.InitConstructsTheDecoder : Prop :=
  ∀ (s : State) (pp : Int), 1 ≤ pp → pp ≤ 255 →
    ∃ t, exec (.init pp) s = .next t ∧ (t.pp.toNat : Int) = pp ∧ t.halt = false ∧ t.n = 0 ∧ t.ready = false ∧
      t.recValid = false ∧ t.ckValid = false ∧ live t = true ∧ (∀ i, memRead t.buf i = none) ∧
      (∀ f, isRecordReg f = true → exec (.read f) t = .refused (.recordNotValid f)) ∧
      (∀ f, isChecksumReg f = true → exec (.read f) t = .refused (.checksumNotLatched f)) ∧
      t.rom = s.rom ∧ t.events = [] ∧ t.pulses = [] ∧ t.results = [.ok] ∧ t.input = s.input ∧ t.pending = s.pending

/-- R215, R219, U9, U10: an `INIT` with an illegal count answers with the error, halts the instance, leaves it without a
decoder and the buffer without a value, emits no event and touches no table. -/
def Obligations.InitRejectsMalformedConfiguration : Prop :=
  ∀ (s : State) (pp : Int), pp ≤ 0 ∨ 255 < pp →
    ∃ t, exec (.init pp) s = .next t ∧ t.halt = true ∧ live t = false ∧ (outputs t).ready = false ∧
      (outputs t).cfgError = true ∧ (∀ i, memRead t.buf i = none) ∧ t.rom = s.rom ∧ t.events = [] ∧
      t.pulses = [] ∧ t.results = [.malformedConfiguration pp] ∧ t.input = s.input

/-- R33, R191, R240, U11: without a decoder every operation but `INIT` and `READ HALT` is refused, the functions, the
cases, the completion actions and the pseudo-operations too; only `INIT` leaves this condition; at the pins `cfg_error` is
high, `ready` low, and every strobe but `rst` is ignored. The model's choices here: `READ HALT` answers on an instance
halted by `INIT` and is refused on one never initialised (log 10); at the pins the strobes pass, as does a cycle without
any, while the operations as such are refused (log 11); `DECODE` is refused with the rest (log 20). -/
def Obligations.NoDecoderRefusesHostOperations : Prop :=
  ∀ s : State, live s = false →
    (∀ i, isInit i = false → i ≠ .read .halt → exec i s = .refused .noDecoder) ∧
    (s.inits = 0 → exec (.read .halt) s = .refused .noDecoder) ∧
    (s.inits ≠ 0 →
      exec (.read .halt) s = .next { s with results := [.bit true], events := [], pulses := [] }) ∧
    (∀ i t, isInit i = false → exec i s = .next t → live t = false) ∧
    (outputs s).cfgError = true ∧ (outputs s).ready = false ∧
    (∀ (cmd : BitVec 4) (cfg b : Byte) (rest : List Stimulus), cmd &&& 0x8 = 0 →
      s.input = .word (hostWord (cmd.setWidth 8) cfg b 0) :: rest →
      ∃ left, step s = .next { s with input := left, events := [], pulses := [], results := [] })

/-- R192: `ISREADY` returns `READY` and clears it, with no event and no other effect but the output `poll_result`. -/
def Obligations.IsreadyReturnsAndClearsReady : Prop :=
  ∀ s : State, live s = true →
    exec .isready s =
      .next { s with ready := false, pollResult := s.ready, results := [.bit s.ready], events := [], pulses := [] }

/-- R193: `TAKE` returns the whole record and clears `READY` where it is 1, else none; the record registers stay. -/
def Obligations.TakeHandsOverTheRecordOnce : Prop :=
  ∀ s : State, live s = true →
    (s.ready = true → exec .take s = .next { s with
      ready := false, pollResult := true, results := [.record (some s.record)], events := [], pulses := [] }) ∧
    (s.ready = false → exec .take s =
      .next { s with pollResult := false, results := [.record none], events := [], pulses := [] })

/-- R194, R40 to R47, R25, R28 to R36: a `READ` of a register that holds a value returns the register of that name, each
of the 23 named here, temperatures signed, one-bit registers as a bit, the others unsigned, and changes nothing. -/
def Obligations.ReadReturnsTheRegister : Prop :=
  ∀ (s : State) (f : RegName), live s = true → (isRecordReg f = true → s.recValid = true) →
    (isChecksumReg f = true → s.ckValid = true) →
    ∃ v, exec (.read f) s = .next { s with results := [v], events := [], pulses := [] } ∧
      (f = .seq → v = .unsigned s.record.seq.toNat) ∧ (f = .fcnt → v = .unsigned s.record.fcnt.toNat) ∧
      (f = .thrIn → v = .unsigned s.record.thrIn.toNat) ∧ (f = .thrOut → v = .unsigned s.record.thrOut.toNat) ∧
      (f = .rpmQ → v = .unsigned s.record.rpmQ.toNat) ∧ (f = .rpmR → v = .unsigned s.record.rpmR.toNat) ∧
      (f = .vbus → v = .unsigned s.record.vbus.toNat) ∧ (f = .ibus → v = .unsigned s.record.ibus.toNat) ∧
      (f = .iph → v = .unsigned s.record.iph.toNat) ∧ (f = .tmos → v = .signed s.record.tmos.toInt) ∧
      (f = .tmosMiss → v = .bit s.record.tmosMiss) ∧ (f = .tcap → v = .signed s.record.tcap.toInt) ∧
      (f = .tcapMiss → v = .bit s.record.tcapMiss) ∧ (f = .status → v = .unsigned s.record.status.toNat) ∧
      (f = .fault → v = .bit s.record.fault) ∧ (f = .ckRx → v = .unsigned s.ckRx.toNat) ∧
      (f = .ckCalc → v = .unsigned s.ckCalc.toNat) ∧ (f = .ready → v = .bit s.ready) ∧
      (f = .recValid → v = .bit s.recValid) ∧ (f = .ckValid → v = .bit s.ckValid) ∧
      (f = .n → v = .unsigned s.n.toNat) ∧ (f = .pp → v = .unsigned s.pp.toNat) ∧ (f = .halt → v = .bit s.halt)

/-- R194, U2, U3: a `READ` of a record register before any accepted frame, or of a latched checksum before any rejected
one, is refused. R191: `READ HALT` answers on a halted instance. -/
def Obligations.ReadRefusesWhatHoldsNoValue : Prop :=
  ∀ (s : State) (f : RegName),
    (live s = true → isRecordReg f = true → s.recValid = false → exec (.read f) s = .refused (.recordNotValid f)) ∧
    (live s = true → isChecksumReg f = true → s.ckValid = false →
      exec (.read f) s = .refused (.checksumNotLatched f)) ∧
    (s.inits ≠ 0 → s.halt = true → exec (.read .halt) s =
      .next { s with results := [.bit true], events := [], pulses := [] })

/-- R195: `IDLE` has no effect, no result and no event. -/
def Obligations.IdleChangesNothing : Prop :=
  ∀ s : State, live s = true → exec .idle s = .next { s with results := [], events := [], pulses := [] }

/-! ## The synchronizer (41_sync.md) -/

/-- R131: `SYNC0`, alone and as the case of `SUBMIT 0x9B` at `N = 0`: the byte at offset 0, `N` 1, nothing else. -/
def Obligations.Sync0StoresTheFirstHeaderByte : Prop :=
  ∀ s : State, live s = true → s.n = 0 →
    ∃ t, exec .sync0 s = .next t ∧ exec (.submit 0x9B) s = .next t ∧ StoresByte s t 0 0x9B ∧
      { t with buf := s.buf } = { s with n := 1, results := [], events := [], pulses := [] }

/-- R138: `SKIP`, alone and as the case of any other byte at `N = 0`: nothing is written. -/
def Obligations.SkipWritesNothing : Prop :=
  ∀ (s : State) (b : Byte), live s = true → s.n = 0 → b ≠ 0x9B →
    exec (.skip b) s = .next { s with results := [], events := [], pulses := [] } ∧
    exec (.submit b) s = .next { s with results := [], events := [], pulses := [] }

/-- R132: `SYNC1`, alone and as the case of `SUBMIT 0x16` at `N = 1`: the byte at offset 1, `N` 2, nothing else. -/
def Obligations.Sync1StoresTheSecondHeaderByte : Prop :=
  ∀ s : State, live s = true → s.n = 1 →
    ∃ t, exec .sync1 s = .next t ∧ exec (.submit 0x16) s = .next t ∧ StoresByte s t 1 0x16 ∧
      { t with buf := s.buf } = { s with n := 2, results := [], events := [], pulses := [] }

/-- R133: `DESYNC`, alone and as the case of any other byte at `N = 1`, `0x9B` among them: `N` 0, nothing stored. -/
def Obligations.DesyncDiscardsBothBytes : Prop :=
  ∀ (s : State) (b : Byte), live s = true → s.n = 1 → b ≠ 0x16 →
    exec (.desync b) s = .next { s with n := 0, results := [], events := [], pulses := [] } ∧
    exec (.submit b) s = .next { s with n := 0, results := [], events := [], pulses := [] }

/-- R134: `STORE`, alone and as the case of any byte at `2 <= N <= 22`: the byte at offset `N`, `N` one more. -/
def Obligations.StoreStoresAtTheOffset : Prop :=
  ∀ (s : State) (b : Byte), live s = true → 2 ≤ s.n.toNat → s.n.toNat ≤ 22 →
    ∃ t, exec (.store s.n b) s = .next t ∧ exec (.submit b) s = .next t ∧ StoresByte s t s.n.toNat b ∧
      t.n.toNat = s.n.toNat + 1 ∧
      { t with buf := s.buf, n := s.n } = { s with results := [], events := [], pulses := [] }

/-- R135, with R136: `FINAL`, alone and as the case of any byte at `N = 23`: the byte at offset 23, `N` 0, and the
completion of the 24 bytes, in one operation. -/
def Obligations.FinalStoresThenCompletes : Prop :=
  ∀ (s : State) (f : Nat → Byte) (b : Byte), live s = true → s.pp ≠ 0 → s.n = 23 →
    (∀ i < 23, memRead s.buf i = some (f i)) →
    ∃ t, exec (.final b) s = .next t ∧ exec (.submit b) s = .next t ∧ StoresByte s t 23 b ∧
      { t with buf := s.buf } =
        completed (Function.update f 23 b) { s with n := 0, results := [], events := [], pulses := [] }

/-- R100: the dispatch table is total, and `SUBMIT b` does exactly what the case does that the word `N ++ b` decodes
to; with `N` in 24..31 both refuse. -/
def Obligations.SubmitRunsTheCaseItsWordSelects : Prop :=
  ∀ (s : State) (b : Byte), live s = true →
    (s.n.toNat ≤ 23 → ∃ i, decode (submitWord s.n b) = .ok (i, none) ∧
      i ∈ [.sync0, .skip b, .sync1, .desync b, .final b, .store s.n b] ∧ exec (.submit b) s = exec i s) ∧
    (24 ≤ s.n.toNat → decode (submitWord s.n b) = .error .unreachableOffset ∧
      exec (.submit b) s = .refused .unreachableOffset)

/-- R216, R137: on a configured instance `SUBMIT` always answers, and keeps the instance configured. -/
def Obligations.SubmitNeverFailsOnAConfiguredInstance : Prop :=
  ∀ (s : State) (b : Byte), BlockInv s → live s = true → ∃ t, exec (.submit b) s = .next t ∧ BlockInv t ∧ live t = true

/-- R27: how `SUBMIT` moves `N`: up by one at most, to 0 from 1 and from 23, never past 23. R130: it changes neither
`PP` nor `HALT`, and the flags, the record and the latched checksums only where it finds `N = 23`. -/
def Obligations.SubmitMovesTheOffsetByTheDocumentsStates : Prop :=
  ∀ (s t : State) (b : Byte), exec (.submit b) s = .next t →
    (s.n = 0 → b = 0x9B → t.n = 1) ∧ (s.n = 0 → b ≠ 0x9B → t.n = 0) ∧
    (s.n = 1 → b = 0x16 → t.n = 2) ∧ (s.n = 1 → b ≠ 0x16 → t.n = 0) ∧
    (2 ≤ s.n.toNat → s.n.toNat ≤ 22 → t.n.toNat = s.n.toNat + 1) ∧ (s.n = 23 → t.n = 0) ∧ s.n.toNat ≤ 23 ∧
    t.pp = s.pp ∧ t.halt = s.halt ∧
    (s.n ≠ 23 → t.ready = s.ready ∧ t.recValid = s.recValid ∧ t.record = s.record ∧ t.ckValid = s.ckValid ∧
      t.ckRx = s.ckRx ∧ t.ckCalc = s.ckCalc)

/-- R140 (a): from `N = 0`, bytes without the pair `0x9B 0x16` never make a record ready, emit no event and touch
neither the record nor the latched checksums. -/
def Obligations.NoHeaderPairNoReadyRecord : Prop :=
  ∀ (s : State) (bs : List Byte), live s = true → s.n = 0 → noHeaderPair bs →
    ∃ t, exec (.bytes bs) s = .next t ∧ t.n.toNat ≤ 1 ∧ t.events = [] ∧ t.pulses = [] ∧ t.ready = s.ready ∧
      t.recValid = s.recValid ∧ t.record = s.record ∧ t.ckValid = s.ckValid ∧ t.ckRx = s.ckRx ∧ t.ckCalc = s.ckCalc

/-- R140 (b): two good frames back to back from `N = 0` are both accepted: the events are those of the first frame and
then those of the second, two `RecordReady` among them, and the record is the second's. R198: what pulses after it is what
the last `SUBMIT` emitted. -/
def Obligations.TwoFramesBackToBackAreBothAccepted : Prop :=
  ∀ (s : State) (p q : List Byte), live s = true → s.n = 0 → s.pp ≠ 0 → p.length = 20 → q.length = 20 →
    ∃ t, exec (.bytes (frameBytes p ++ frameBytes q)) s = .next t ∧ t.n = 0 ∧ t.ready = true ∧ t.recValid = true ∧
      t.record = recordOfFrame s.rom s.pp (frameAt (frameBytes q)) ∧
      t.events = missEvents s.rom (frameAt (frameBytes p)) ++ [.recordReady] ++
        missEvents s.rom (frameAt (frameBytes q)) ++ [.recordReady] ∧
      t.pulses = missEvents s.rom (frameAt (frameBytes q)) ++ [.recordReady]

/-- R141: submitting a chunk and then another is submitting both as one: the state after does not depend on the cut, and
the events are those of the first chunk followed by those of the second. R198: what pulses is what the last `SUBMIT`
emitted, which an empty second chunk (log 24) does not have. -/
def Obligations.ChunksOfAStreamCompose : Prop :=
  ∀ (s t u : State) (a b : List Byte), exec (.bytes a) s = .next t → exec (.bytes b) t = .next u →
    exec (.bytes (a ++ b)) s =
      .next { u with events := t.events ++ u.events, pulses := if b = [] then t.pulses else u.pulses }

/-- R109, R216: `BYTES` runs to the end on a configured instance and leaves it configured; no byte at all is admitted and
does nothing (the model's choice, log 24). -/
def Obligations.BytesCompleteOnAConfiguredInstance : Prop :=
  ∀ (s : State) (bs : List Byte), BlockInv s → live s = true →
    (∃ t, exec (.bytes bs) s = .next t ∧ BlockInv t ∧ live t = true ∧ t.results = [] ∧ t.input = s.input ∧
      t.pending = s.pending) ∧
    exec (.bytes []) s = .next { s with results := [], events := [], pulses := [] }

/-! ## Completion, checksum, extraction (42_checksum.md, 43_extract.md) -/

/-- R136: `COMPLETE` compares the sum with the trailer and accepts or rejects the 24 bytes (asked for on its own, log 15). -/
def Obligations.CompleteAcceptsOrRejects : Prop :=
  ∀ (s : State) (f : Nat → Byte), live s = true → s.pp ≠ 0 → HoldsFrame s f →
    (frameSum f = frameTrailer f →
      exec .complete s = .next (accepted f { s with results := [], events := [], pulses := [] })) ∧
    (frameSum f ≠ frameTrailer f →
      exec .complete s = .next (rejected f { s with results := [], events := [], pulses := [] }))

/-- R150, R151: `CKSUM` returns the plain sum of the bytes at offsets 0 to 21 and writes nothing; any accumulator of 13
bits or more, wrapping or not, gives that value. -/
def Obligations.CksumReturnsThePlainSum : Prop :=
  ∀ (s : State) (f : Nat → Byte), live s = true → (∀ i < 22, memRead s.buf i = some (f i)) →
    exec .cksum s = .next { s with results := [.unsigned (frameSum f)], events := [], pulses := [] } ∧ frameSum f ≤ 5610 ∧
    ∀ w : Nat, 13 ≤ w →
      ((List.range 22).foldl (fun acc i => acc + (f i).setWidth w) (0#w)).toNat = frameSum f

/-- R152: behind the header the sum is 177 plus the payload's, lies in 177..5277, and a trailer outside that range, such
as any with a high byte above 0x14, is always rejected. -/
def Obligations.SumRangeRejectsTrailersOutsideIt : Prop :=
  ∀ (s : State) (f : Nat → Byte), live s = true → s.pp ≠ 0 → HoldsFrame s f → Headed f →
    frameSum f = 177 + ((List.range 20).map fun i => (f (i + 2)).toNat).sum ∧
    177 ≤ frameSum f ∧ frameSum f ≤ 5277 ∧
    (frameTrailer f < 177 ∨ 5277 < frameTrailer f →
      exec .complete s = .next (rejected f { s with results := [], events := [], pulses := [] })) ∧
    (0x14 < (f 23).toNat → exec .complete s = .next (rejected f { s with results := [], events := [], pulses := [] }))

/-- R153: `ACCEPT`, where the sum is the trailer, writes the record, sets `REC_VALID` and `READY`, and emits the misses
and then `RecordReady`, whatever `READY` was. -/
def Obligations.AcceptWritesTheRecord : Prop :=
  ∀ (s : State) (f : Nat → Byte), live s = true → s.pp ≠ 0 → HoldsFrame s f → frameSum f = frameTrailer f →
    exec .accept s = .next { s with
      record := recordOfFrame s.rom s.pp f, ready := true, recValid := true
      events := missEvents s.rom f ++ [.recordReady], pulses := missEvents s.rom f ++ [.recordReady], results := [] }

/-- R154: `REJECT`, where the sum is not the trailer, latches received and calculated sum, sets `CK_VALID`, emits the one
event, and changes neither `READY` nor the record. -/
def Obligations.RejectLatchesBothChecksums : Prop :=
  ∀ (s : State) (f : Nat → Byte), live s = true → HoldsFrame s f → frameSum f ≠ frameTrailer f →
    exec .reject s = .next { s with
      ckRx := BitVec.ofNat 16 (frameTrailer f), ckCalc := BitVec.ofNat 16 (frameSum f), ckValid := true
      events := [.checksumMismatch (BitVec.ofNat 16 (frameTrailer f)) (BitVec.ofNat 16 (frameSum f))]
      pulses := [.checksumMismatch (BitVec.ofNat 16 (frameTrailer f)) (BitVec.ofNat 16 (frameSum f))], results := [] } ∧
    (BitVec.ofNat 16 (frameTrailer f)).toNat = frameTrailer f ∧ (BitVec.ofNat 16 (frameSum f)).toNat = frameSum f

/-- R100, R153, R154, with log 15: a dispatch case or a completion action asked for on its own where its condition does
not hold is refused by name (the model's reading of "runs when" and of a row that does not match). -/
def Obligations.CasesAndActionsNeedTheirCondition : Prop :=
  ∀ (s : State) (n : BitVec 5) (b : Byte), live s = true →
    (s.n ≠ 0 → exec .sync0 s = .refused (.notSelected "SYNC0")) ∧
    (s.n ≠ 0 ∨ b = 0x9B → exec (.skip b) s = .refused (.notSelected "SKIP")) ∧
    (s.n ≠ 1 → exec .sync1 s = .refused (.notSelected "SYNC1")) ∧
    (s.n ≠ 1 ∨ b = 0x16 → exec (.desync b) s = .refused (.notSelected "DESYNC")) ∧
    (s.n ≠ n ∨ n.toNat < 2 ∨ 22 < n.toNat → exec (.store n b) s = .refused (.notSelected "STORE")) ∧
    (s.n ≠ 23 → exec (.final b) s = .refused (.notSelected "FINAL")) ∧
    (∀ f, HoldsFrame s f → frameSum f ≠ frameTrailer f → exec .accept s = .refused (.notSelected "ACCEPT")) ∧
    (∀ f, HoldsFrame s f → frameSum f = frameTrailer f → exec .reject s = .refused (.notSelected "REJECT"))

/-- R11, U1: an operation that reads cells of the buffer is refused wherever one of the cells it reads (`cellsRead`) holds
no value, naming such a cell; so is the `SUBMIT` that would complete a frame, with `FINAL` as its case, where one of the
first 23 cells holds none. That a cell without a value is one that is not listed: log 3. -/
def Obligations.ReadingAnUnwrittenCellIsRefused : Prop :=
  (∀ (s : State) (i : Instr) (a : Nat), live s = true → a ∈ cellsRead i → memRead s.buf a = none →
    ∃ c ∈ cellsRead i, memRead s.buf c = none ∧ exec i s = .refused (.noValue c)) ∧
  (∀ (s : State) (b : Byte) (a : Nat), live s = true → s.n = 23 → a < 23 → memRead s.buf a = none →
    ∃ c < 23, memRead s.buf c = none ∧ exec (.final b) s = .refused (.noValue c) ∧
      exec (.submit b) s = .refused (.noValue c))

/-- R155: flip any single bit of the trailer of a frame whose sums agree: the frame is rejected, with the flipped trailer
as received and the old sum as calculated. -/
def Obligations.FlippedTrailerBitIsRejected : Prop :=
  ∀ (s : State) (f : Nat → Byte) (k j : Nat), live s = true → s.pp ≠ 0 → frameSum f = frameTrailer f →
    k = 22 ∨ k = 23 → j < 8 → HoldsFrame s (Function.update f k (f k ^^^ (1#8 <<< j))) →
    ∃ t, exec .complete s = .next t ∧ t.ready = s.ready ∧ t.recValid = s.recValid ∧ t.record = s.record ∧
      t.ckValid = true ∧ t.ckCalc.toNat = frameSum f ∧
      t.ckRx.toNat = frameTrailer (Function.update f k (f k ^^^ (1#8 <<< j))) ∧
      t.events = [.checksumMismatch t.ckRx t.ckCalc]

/-- R156: a change of one payload byte is detected; an exchange of two payload bytes is not. -/
def Obligations.OneChangedPayloadByteIsRejected : Prop :=
  ∀ (s : State) (f : Nat → Byte) (k m : Nat) (v : Byte), live s = true → s.pp ≠ 0 → frameSum f = frameTrailer f →
    2 ≤ k → k ≤ 21 → 2 ≤ m → m ≤ 21 →
    (v ≠ f k → HoldsFrame s (Function.update f k v) →
      ∃ t, exec .complete s = .next t ∧ t.events = [.checksumMismatch t.ckRx t.ckCalc] ∧
        t.ckRx.toNat = frameSum f ∧ t.record = s.record ∧ t.ready = s.ready) ∧
    (HoldsFrame s (Function.update (Function.update f k (f m)) m (f k)) →
      ∃ t, exec .complete s = .next t ∧ t.ready = true ∧ t.ckValid = s.ckValid)

/-- R160: `EXTRACT` writes every record register from the 24 bytes and emits the temperature misses, MOSFET first. -/
def Obligations.ExtractWritesEveryRecordRegister : Prop :=
  ∀ (s : State) (f : Nat → Byte), live s = true → s.pp ≠ 0 → HoldsFrame s f →
    exec .extract s = .next { s with
      record := recordOfFrame s.rom s.pp f, events := missEvents s.rom f, pulses := missEvents s.rom f
      results := [] }

/-- R161: `X.SEQ` is the document's formula over the first four bytes; behind the header bits 23:8 are 0x169B. -/
def Obligations.XSeqFollowsTheDocumentsFormula : Prop :=
  ∀ (s : State) (b0 b1 b2 b3 : Byte), live s = true → memRead s.buf 0 = some b0 → memRead s.buf 1 = some b1 →
    memRead s.buf 2 = some b2 → memRead s.buf 3 = some b3 →
    exec .xSeq s = .next { s with
      results := [.unsigned (b0.toNat * 256 + b1.toNat * 65536 + b2.toNat * 16777216 + b3.toNat)]
      events := [], pulses := [] } ∧
    (b0 = 0x9B → b1 = 0x16 → exec .xSeq s = .next { s with
      results := [.unsigned ((b2.toNat <<< 24) ||| 0x00169B00 ||| b3.toNat)], events := [], pulses := [] })

/-- R163, R164: the throttles are 25 times the big-endian values at 6, 7 and 8, 9, below 2^21, and their 256th part is
the document's `raw * 100 / 1024` exactly. -/
def Obligations.ThrottlesAreTwentyFiveTimesRaw : Prop :=
  ∀ (s : State) (hi lo : Byte), live s = true →
    (memRead s.buf 6 = some hi → memRead s.buf 7 = some lo →
      exec .xThrIn s = .next { s with
        results := [.unsigned ((hi.toNat * 256 + lo.toNat) * 25)], events := [], pulses := [] }) ∧
    (memRead s.buf 8 = some hi → memRead s.buf 9 = some lo →
      exec .xThrOut s = .next { s with
        results := [.unsigned ((hi.toNat * 256 + lo.toNat) * 25)], events := [], pulses := [] }) ∧
    (hi.toNat * 256 + lo.toNat) * 25 ≤ 1638375 ∧
    (((hi.toNat * 256 + lo.toNat) * 25 : Nat) : Rat) / 256 = ((hi.toNat * 256 + lo.toNat : Nat) : Rat) * 100 / 1024

/-- R166: `X.RPM` is quotient and remainder of ten times the big-endian value at 10, 11 by `PP`; together they are the
document's `raw * 10 / polePairs` exactly, and fit 20 and 8 bits. -/
def Obligations.XRpmDividesByThePolePairs : Prop :=
  ∀ (s : State) (hi lo : Byte), live s = true → s.pp ≠ 0 → memRead s.buf 10 = some hi → memRead s.buf 11 = some lo →
    ∃ q r : Nat, exec .xRpm s = .next { s with results := [.quotRem q r], events := [], pulses := [] } ∧
      (hi.toNat * 256 + lo.toNat) * 10 = q * s.pp.toNat + r ∧ r < s.pp.toNat ∧ q ≤ 655350 ∧
      (q : Rat) + (r : Rat) / s.pp.toNat = ((hi.toNat * 256 + lo.toNat : Nat) : Rat) * 10 / s.pp.toNat

/-- R162, R167, R168, R169: frame counter, voltage and currents are the big-endian values at 4, 12, 14 and 16, unsigned
and unscaled. -/
def Obligations.CounterVoltageAndCurrentsAreRaw : Prop :=
  ∀ (s : State) (hi lo : Byte), live s = true →
    (memRead s.buf 4 = some hi → memRead s.buf 5 = some lo →
      exec .xFcnt s = .next { s with results := [.unsigned (hi.toNat * 256 + lo.toNat)], events := [], pulses := [] }) ∧
    (memRead s.buf 12 = some hi → memRead s.buf 13 = some lo →
      exec .xVbus s = .next { s with results := [.unsigned (hi.toNat * 256 + lo.toNat)], events := [], pulses := [] }) ∧
    (memRead s.buf 14 = some hi → memRead s.buf 15 = some lo →
      exec .xIbus s = .next { s with results := [.unsigned (hi.toNat * 256 + lo.toNat)], events := [], pulses := [] }) ∧
    (memRead s.buf 16 = some hi → memRead s.buf 17 = some lo →
      exec .xIph s = .next { s with results := [.unsigned (hi.toNat * 256 + lo.toNat)], events := [], pulses := [] })

/-- R170: the temperatures are `DECODE` of the bytes at offsets 18 and 19, the sentinel 260 with the miss bit where the
table has no entry; as functions they write nothing (log 16). -/
def Obligations.TemperaturesAreDecoded : Prop :=
  ∀ (s : State) (k : Byte), live s = true →
    (memRead s.buf 18 = some k → exec .xTmos s = .next { s with
      results := [match lut s.rom k with
        | some t => .temperature t.toInt false
        | none => .temperature 260 true], events := [], pulses := [] }) ∧
    (memRead s.buf 19 = some k → exec .xTcap s = .next { s with
      results := [match lut s.rom k with
        | some t => .temperature t.toInt false
        | none => .temperature 260 true], events := [], pulses := [] })

/-- R171, R172: the status is the big-endian value at 20, 21, and the fault bit says that it is not 0. -/
def Obligations.StatusAndFaultBit : Prop :=
  ∀ (s : State) (hi lo : Byte), live s = true → memRead s.buf 20 = some hi → memRead s.buf 21 = some lo →
    exec .xStatus s = .next { s with results := [.unsigned (hi.toNat * 256 + lo.toNat)], events := [], pulses := [] } ∧
    exec .xFault s = .next { s with results := [.bit (hi != 0 || lo != 0)], events := [], pulses := [] }

/-- R122: `DECODE` answers for every key on an existing instance, writing nothing and emitting nothing. That an instance
without a decoder has no `DECODE` either, where R122 says "never refuses", is the model's choice (log 20). -/
def Obligations.DecodeAnswersEveryKey : Prop :=
  ∀ (s : State) (k : Byte), live s = true →
    exec (.decode k) s = .next { s with
      results := [match lut s.rom k with
        | some t => .temperature t.toInt false
        | none => .temperature 260 true], events := [], pulses := [] }

/-- R126, R121: with a table supplied in degrees, `DECODE` is twice the value of the last pair of its key without a miss,
and the sentinel with the miss bit where no pair has the key; as an operation it returns that on an existing instance. -/
def Obligations.LastPairOfAKeyWins : Prop :=
  ∀ (s : State) (pairs : List (Byte × Rat)) (k : Byte), suppliedTable pairs = some s.rom →
    (∀ before after v, pairs = before ++ (k, v) :: after → (∀ x ∈ after, x.1 ≠ k) →
      ∃ t2 : Int, (t2 : Rat) = 2 * v ∧ decodeTemperature s.rom k = (t2, false) ∧
        (live s = true → exec (.decode k) s =
          .next { s with results := [.temperature t2 false], events := [], pulses := [] })) ∧
    ((∀ x ∈ pairs, x.1 ≠ k) → decodeTemperature s.rom k = (260, true) ∧
      (live s = true → exec (.decode k) s =
        .next { s with results := [.temperature 260 true], events := [], pulses := [] }))

/-- R124: a table is supplied exactly when twice every value is an integer of 16 bits, two's complement. -/
def Obligations.TableIsRefusedExactlyByR124 : Prop :=
  ∀ pairs : List (Byte × Rat),
    (suppliedTable pairs).isSome = true ↔
      ∀ x ∈ pairs, ∃ t : Int, (t : Rat) = 2 * x.2 ∧ -32768 ≤ t ∧ t ≤ 32767

/-- R175, R13: the engineering values of an extracted record are the document's formulas over the raw fields, exactly. -/
def Obligations.EngineeringValuesAreExact : Prop :=
  ∀ (rom : List (Byte × BitVec 16)) (pp : BitVec 8) (f : Nat → Byte), pp ≠ 0 →
    let x := telemetry (recordOfFrame rom pp f) pp
    x.sequenceMarker = (f 0).toNat * 256 + (f 1).toNat * 65536 + (f 2).toNat * 16777216 + (f 3).toNat ∧
    x.frameCounter = word16 f 4 ∧
    x.throttleInputPercent = (word16 f 6 : Rat) * 100 / 1024 ∧
    x.throttleOutputPercent = (word16 f 8 : Rat) * 100 / 1024 ∧
    x.rotorSpeedRPM = (word16 f 10 : Rat) * 10 / pp.toNat ∧
    x.busVoltage = (word16 f 12 : Rat) / 10 ∧ x.busCurrent = (word16 f 14 : Rat) / 64 ∧
    x.phaseCurrent = (word16 f 16 : Rat) / 64 ∧
    (lut rom (f 18) = none → x.mosfetTempC = 130) ∧ (lut rom (f 19) = none → x.capacitorTempC = 130) ∧
    (∀ t, lut rom (f 18) = some t → x.mosfetTempC = (t.toInt : Rat) / 2) ∧
    (∀ t, lut rom (f 19) = some t → x.capacitorTempC = (t.toInt : Rat) / 2) ∧
    x.statusCode = word16 f 20 ∧ x.faultFlag = decide (word16 f 20 ≠ 0)

/-! ## Pseudo-operations (30_encoding.md R109, R110) -/

/-- R110, R140 (c): from `N = 0` a built frame of any payload ends in `ACCEPT`: the buffer holds its 24 bytes, the record
is theirs, one `RecordReady` is emitted after the misses, and nothing else changes. -/
def Obligations.BuiltFrameIsAccepted : Prop :=
  ∀ (s : State) (p : List Byte), live s = true → s.n = 0 → s.pp ≠ 0 → p.length = 20 →
    ∃ t, exec (.frame p) s = .next t ∧ HoldsFrame t (frameAt (frameBytes p)) ∧
      (∀ i, 24 ≤ i → memRead t.buf i = memRead s.buf i) ∧
      { t with buf := s.buf } = { s with
        record := recordOfFrame s.rom s.pp (frameAt (frameBytes p)), ready := true, recValid := true
        events := missEvents s.rom (frameAt (frameBytes p)) ++ [.recordReady]
        pulses := missEvents s.rom (frameAt (frameBytes p)) ++ [.recordReady], results := [] }

/-- R109, R91: `FRAMEF` from `N = 0` yields a record of exactly its field values, scaled as R163 to R172 say. -/
def Obligations.BuiltFrameDecodesToItsFields : Prop :=
  ∀ (s : State) (x : FrameFields), live s = true → s.n = 0 → s.pp ≠ 0 →
    ∃ t, exec (.framef x) s = .next t ∧ t.ready = true ∧ t.recValid = true ∧ t.n = 0 ∧
      t.record.seq = x.a ++ (0x169B : BitVec 16) ++ x.b ∧ t.record.fcnt = x.c ∧
      t.record.thrIn.toNat = x.d.toNat * 25 ∧ t.record.thrOut.toNat = x.e.toNat * 25 ∧
      t.record.rpmQ.toNat = x.f.toNat * 10 / s.pp.toNat ∧ t.record.rpmR.toNat = x.f.toNat * 10 % s.pp.toNat ∧
      t.record.vbus = x.g ∧ t.record.ibus = x.h ∧ t.record.iph = x.i ∧
      t.record.tmos = (lut s.rom x.j).getD 260 ∧ t.record.tmosMiss = (lut s.rom x.j).isNone ∧
      t.record.tcap = (lut s.rom x.k).getD 260 ∧ t.record.tcapMiss = (lut s.rom x.k).isNone ∧
      t.record.status = x.l ∧ t.record.fault = decide (x.l ≠ 0)

/-- R109, R75, R246: `POLLREAD` is `ISREADY` and, where it returned 1, a `READ` of each of the fifteen record registers,
which the host has still to make (in `TAKE`'s order, which is the model's, log 18): a step with nothing presented, or one
at which the host goes on with them, makes the next, in the state as it then stands; whatever else the host presents comes
first, a `SUBMIT` too, and leaves them to be made. -/
def Obligations.PollreadReadsTheRecordWhenReady : Prop :=
  (∀ s : State, live s = true →
    (s.ready = true → exec .pollread s = .next { s with
      ready := false, pollResult := true, pending := s.pending ++ recordRegs, results := [.bit true], events := []
      pulses := [] }) ∧
    (s.ready = false → exec .pollread s = .next { s with
      pollResult := false, results := [.bit false], events := [], pulses := [] })) ∧
  recordRegs = [.seq, .fcnt, .thrIn, .thrOut, .rpmQ, .rpmR, .vbus, .ibus, .iph, .tmos, .tmosMiss, .tcap, .tcapMiss,
    .status, .fault] ∧
  (∀ (s : State) (f : RegName) (fs : List RegName), s.pending = f :: fs →
    (s.input = [] → step s = exec (.read f) { s with pending := fs }) ∧
    (∀ rest, s.input = .resume :: rest → step s = exec (.read f) { s with pending := fs, input := rest })) ∧
  (∀ (i : Instr) (s t : State), i ≠ .pollread → exec i s = .next t → t.pending = s.pending)

/-! ## Whole-machine rules -/

/-- R53, R23, with the canonical form of the buffer, which is the model's (log 3): every step keeps the invariant,
whatever is presented. -/
def Obligations.EveryStepKeepsTheInvariant : Prop :=
  ∀ s t : State, BlockInv s → step s = .next t → BlockInv t

/-- The state right after reset meets the invariant (log 1: `INIT` with the default pole-pair count). -/
def Obligations.ResetMeetsTheInvariant : Prop := BlockInv State.reset

/-- R241, R52: after reset the synchronizer seeks a header, no record is ready, a decoder exists, the buffer and the
guarded registers hold no value. The last clause, that `State.reset` is whole what `INIT 21` leaves of the state before any
`INIT` but for the result, rests on the model's choices: the count 21 (log 1), the zeros in the record, `CK_RX` and
`CK_CALC`, which R52 gives no value (log 2), `poll_result` 0 (log 9), and the state before any `INIT` with its count of
`INIT`s (log 10). -/
def Obligations.ResetSeeksAHeader : Prop :=
  syncState State.reset = some .seekHeader0 ∧ State.reset.ready = false ∧ State.reset.recValid = false ∧
    State.reset.ckValid = false ∧ live State.reset = true ∧ (∀ i, memRead State.reset.buf i = none) ∧
    exec (.init 21) powerOn = .next { State.reset with results := [.ok] }

/-- The buffer keeps its canonical form (the model's, log 3), whatever else holds of the state. -/
def Obligations.EveryStepKeepsTheBufferCanonical : Prop :=
  ∀ s t : State, memWf s.buf = true → step s = .next t → memWf t.buf = true

/-- R49: no operation changes the table. -/
def Obligations.TableNeverChanges : Prop :=
  ∀ (i : Instr) (s t : State), exec i s = .next t → t.rom = s.rom

/-- R32, R33: `PP` and `HALT` are written only by `INIT`. -/
def Obligations.OnlyInitConfigures : Prop :=
  ∀ (i : Instr) (s t : State), isInit i = false → exec i s = .next t →
    t.pp = s.pp ∧ t.halt = s.halt ∧ t.inits = s.inits

/-- R28, R34, R36: `READY` goes up only with a `RecordReady`, and comes down only by `INIT`, `ISREADY`, `TAKE` (and
`POLLREAD`, which is an `ISREADY`); `REC_VALID` and `CK_VALID` come down only by `INIT`. -/
def Obligations.ReadyRisesOnlyWithRecordReady : Prop :=
  ∀ (i : Instr) (s t : State), exec i s = .next t →
    (s.ready = false → t.ready = true → .recordReady ∈ t.events) ∧
    (s.ready = true → t.ready = false → isInit i = true ∨ i = .isready ∨ i = .take ∨ i = .pollread) ∧
    (s.recValid = true → t.recValid = false → isInit i = true) ∧
    (s.ckValid = true → t.ckValid = false → isInit i = true)

/-- R76, R34: the record changes only by an extraction: without a `RecordReady`, every operation but `INIT` and
`EXTRACT` leaves it as it was. -/
def Obligations.RecordIsASnapshot : Prop :=
  ∀ (i : Instr) (s t : State), exec i s = .next t → isInit i = false → i ≠ .extract →
    .recordReady ∉ t.events → t.record = s.record ∧ t.recValid = s.recValid

/-- R21: an operation that is no `INIT` and no `SUBMIT` (nor a storing case, nor made of them) leaves the whole buffer;
`SUBMIT` writes at most the cell at `N`. -/
def Obligations.BufferIsWrittenOnlyBySubmitAtTheOffset : Prop :=
  (∀ (i : Instr) (s t : State), mayStore i = false → exec i s = .next t → t.buf = s.buf) ∧
  (∀ (s t : State) (b : Byte), exec (.submit b) s = .next t →
    ∀ a, a ≠ s.n.toNat → memRead t.buf a = memRead s.buf a)

/-- R212: the events of the host operations: none but for a `SUBMIT` at `N = 23`; there the one mismatch, or the misses
and then `RecordReady`. R198: what pulses after a host operation is what it emitted. -/
def Obligations.EventsOfEachHostOperation : Prop :=
  (∀ (i : Instr) (s t : State), isHostOperation i = true → exec i s = .next t →
    t.pulses = t.events ∧ ((∀ b, i = .submit b → s.n ≠ 23) → t.events = [])) ∧
  (∀ (s : State) (f : Nat → Byte) (b : Byte), live s = true → s.pp ≠ 0 → s.n = 23 →
    (∀ i < 23, memRead s.buf i = some (f i)) →
    ∃ t, exec (.submit b) s = .next t ∧
      t.events = if frameSum f = (f 22).toNat + 256 * b.toNat then missEvents s.rom f ++ [.recordReady]
        else [.checksumMismatch (BitVec.ofNat 16 ((f 22).toNat + 256 * b.toNat)) (BitVec.ofNat 16 (frameSum f))])

/-- R70: there is no address fault: no operation and no step ever faults. -/
def Obligations.NothingEverFaults : Prop :=
  (∀ (i : Instr) (s : State) (x : Fault), exec i s ≠ .fault x) ∧ ∀ (s : State) (x : Fault), step s ≠ .fault x

/-- R198, R191: the output wires show the registers of an existing instance, and the record and checksum wires where
those hold a value; nothing is claimed of a wire whose register holds none (log 19). The `ev_` wires show
what the last operation emitted (`pulses`, of which EventsOfEachHostOperation and ChunksOfAStreamCompose speak). -/
def Obligations.OutputsShowTheRegisters : Prop :=
  ∀ s : State, live s = true →
    (outputs s).ready = s.ready ∧ (outputs s).pollResult = s.pollResult ∧ (outputs s).recValid = s.recValid ∧
    (s.recValid = true → (outputs s).record = s.record) ∧ (outputs s).ckValid = s.ckValid ∧
    (s.ckValid = true → (outputs s).ckRx = s.ckRx ∧ (outputs s).ckCalc = s.ckCalc) ∧
    (outputs s).cfgError = s.halt ∧ (outputs s).polePairs = s.pp ∧ (outputs s).offset = s.n ∧
    ((outputs s).evRecord = true ↔ .recordReady ∈ s.pulses) ∧
    ((outputs s).evCksum = true ↔ ∃ rx sum, .checksumMismatch rx sum ∈ s.pulses) ∧
    ((outputs s).evTmissMos = true ↔ ∃ raw, .tempMiss .mos raw ∈ s.pulses) ∧
    ((outputs s).evTmissCap = true ↔ ∃ raw, .tempMiss .cap raw ∈ s.pulses)

/-! ## Decoding and the step -/

/-- Every well-formed operation that has a word is what its word decodes to, and nothing of the word is left. The bytes
that tell apart rows without a word of their own are the model's (log 13). -/
def Obligations.DecodeOfEncodeIsTheInstruction : Prop :=
  ∀ i : Instr, i.wellFormed = true → i.hasWord = true → ∃ p, encode i = some p ∧ decode p = .ok (i, none)

/-- Words written out from R101 and R100: `rst` with 21 pole pairs, `in_valid` with 0x5A, and the dispatch words of the
six cases (the order of the pins' bytes is the model's, log 13). -/
def Obligations.WordsOfTheTablesDecode : Prop :=
  decode { format := .hostCmd4, bytes := [0x08, 21, 0, 0] } = .ok (.init 21, none) ∧
  decode { format := .hostCmd4, bytes := [0x04, 0, 0, 0] } = .ok (.take, none) ∧
  decode { format := .hostCmd4, bytes := [0x02, 0, 0, 0] } = .ok (.isready, none) ∧
  decode { format := .hostCmd4, bytes := [0x01, 0, 0x5A, 0] } = .ok (.submit 0x5A, none) ∧
  decode { format := .hostCmd4, bytes := [0x00, 0, 0, 0] } = .ok (.idle, none) ∧
  decodeTableWord 16 0x009B = some .sync0 ∧ decodeTableWord 16 0x0016 = some (.skip 0x16) ∧
  decodeTableWord 16 0x0116 = some .sync1 ∧ decodeTableWord 16 0x019B = some (.desync 0x9B) ∧
  decodeTableWord 16 0x1704 = some (.final 0x04) ∧ decodeTableWord 16 0x029B = some (.store 2 0x9B) ∧
  decodeTableWord 16 0x1800 = none

/-- A step at a word that is not a frame's runs the instruction the word decodes to, on the input that follows the word
(with what is left of it, where a strobe vector asks for two operations); strobes on an instance that does not exist are
the exception (NoDecoderRefusesHostOperations). At an operation presented as such it runs that operation, whatever `READ`s
of a `POLLREAD` are still to be made; with nothing presented and none to be made a cycle without a strobe passes. The input
is the model's (logs 5, 18), and a frame word's bytes are the buffer's (log 14). -/
def Obligations.StepRunsTheDecodedInstruction : Prop :=
  (∀ (s : State) (p : Packet) (i : Instr) (left : Option Packet) (rest : List Stimulus),
    s.input = .word p :: rest → p.format ≠ .frame24 → decode p = .ok (i, left) →
    (live s = true ∨ isStrobe i = false ∨ p.format ≠ .hostCmd4) →
    step s = exec i { s with input := putBack left rest }) ∧
  (∀ (s : State) (p : Packet) (i : Instr) (left : Option Packet) (rest : List Stimulus) (bs : List Byte),
    s.input = .word p :: rest → p.format = .frame24 → readBytes s 24 = .ok bs →
    decode { p with bytes := bs ++ p.bytes.drop 24 } = .ok (i, left) →
    step s = exec i { s with input := putBack left rest }) ∧
  (∀ (s : State) (i : Instr) (rest : List Stimulus), s.input = .op i :: rest → i.wellFormed = true →
    step s = exec i { s with input := rest }) ∧
  (∀ s : State, s.pending = [] → live s = true →
    (s.input = [] → step s = exec .idle s) ∧
    (∀ rest, s.input = .resume :: rest → step s = exec .idle { s with input := rest }))

/-- R73, R101: the strobes of one cycle are served in order: `INIT` alone; else `TAKE`, or without it `ISREADY`, and then
`SUBMIT`. That they run one a step, the rest of the cycle put back as a word at the head of the input, is the model's choice
(log 12), and so is the order of the pins' bytes in the word (log 13). -/
def Obligations.StrobesOfOneCycleAreSerialised : Prop :=
  ∀ (s : State) (cmd : BitVec 4) (cfg b : Byte) (rest : List Stimulus), live s = true →
    s.input = .word (hostWord (cmd.setWidth 8) cfg b 0) :: rest →
    (cmd.getLsbD 3 = true → step s = exec (.init cfg.toNat) { s with input := rest }) ∧
    (cmd.getLsbD 3 = false → cmd.getLsbD 2 = true → cmd.getLsbD 0 = true →
      step s = exec .take { s with input := .word (hostWord 0x1 cfg b 0) :: rest }) ∧
    (cmd.getLsbD 3 = false → cmd.getLsbD 2 = true → cmd.getLsbD 0 = false →
      step s = exec .take { s with input := rest }) ∧
    (cmd.getLsbD 3 = false → cmd.getLsbD 2 = false → cmd.getLsbD 1 = true → cmd.getLsbD 0 = true →
      step s = exec .isready { s with input := .word (hostWord 0x1 cfg b 0) :: rest }) ∧
    (cmd.getLsbD 3 = false → cmd.getLsbD 2 = false → cmd.getLsbD 1 = true → cmd.getLsbD 0 = false →
      step s = exec .isready { s with input := rest }) ∧
    (cmd = 0x1 → step s = exec (.submit b) { s with input := rest }) ∧
    (cmd = 0x0 → step s = exec .idle { s with input := rest })
end

