-- ==== Sys2Proof/Laws/Decode.lean ====
section
/-! SUPPORT. What the decoder reads: the dispatch table of R100 as a condition on `N` and `b`, the frame builder's length
and sum, fields to payload and back. -/

namespace Sys2Proof

/-- A dispatch word as a number. -/
theorem toNat_dispatchWord (n : BitVec 5) (b : Byte) : (n ++ b : BitVec 13).toNat = n.toNat * 256 + b.toNat := by
  rw [BitVec.toNat_append, ← Nat.shiftLeft_add_eq_or_of_lt (by simpa using b.isLt : b.toNat < 2 ^ 8), Nat.shiftLeft_eq]

/-- Two dispatch words are equal exactly when offsets and bytes are. -/
theorem dispatchWord_inj (n m : BitVec 5) (b c : Byte) : (n ++ b : BitVec 13) = m ++ c ↔ n = m ∧ b = c := by
  constructor
  · intro h
    have h' := congrArg BitVec.toNat h
    rw [toNat_dispatchWord, toNat_dispatchWord] at h'
    have := b.isLt
    have := c.isLt
    exact ⟨BitVec.eq_of_toNat_eq (by omega), BitVec.eq_of_toNat_eq (by omega)⟩
  · rintro ⟨rfl, rfl⟩
    rfl

/-- A row whose mask covers the whole word: offset and byte are fixed. -/
theorem fullMask_eq (n m : BitVec 5) (b c : Byte) :
    ((n ++ b : BitVec 13) &&& 0x1FFF#13 == (m ++ c : BitVec 13)) = decide (n = m ∧ b = c) := by
  have h : (0x1FFF#13 : BitVec 13) = (31#5 ++ 255#8 : BitVec 13) := rfl
  have hn : n &&& 31#5 = n := BitVec.and_allOnes (x := n)
  have hb : b &&& 255#8 = b := BitVec.and_allOnes (x := b)
  rw [h, BitVec.and_append, hn, hb, Bool.eq_iff_iff, beq_iff_eq, dispatchWord_inj, decide_eq_true_eq]

/-- A row whose mask covers the offset alone: the byte is free. -/
theorem offsetMask_eq (n m : BitVec 5) (b : Byte) :
    ((n ++ b : BitVec 13) &&& 0x1F00#13 == (m ++ 0#8 : BitVec 13)) = decide (n = m) := by
  have h : (0x1F00#13 : BitVec 13) = (31#5 ++ 0#8 : BitVec 13) := rfl
  have hn : n &&& 31#5 = n := BitVec.and_allOnes (x := n)
  have hb : b &&& 0#8 = 0#8 := BitVec.and_zero
  rw [h, BitVec.and_append, hn, hb, Bool.eq_iff_iff, beq_iff_eq, dispatchWord_inj, decide_eq_true_eq]
  simp

/-- The row of the offsets the counter never takes. -/
theorem unreachableMask_eq (n : BitVec 5) (b : Byte) :
    ((n ++ b : BitVec 13) &&& 0x1800#13 == 0x1800#13) = decide (24 ≤ n.toNat) := by
  have h : (0x1800#13 : BitVec 13) = (24#5 ++ 0#8 : BitVec 13) := rfl
  have hb : b &&& 0#8 = 0#8 := BitVec.and_zero
  have hn : ∀ n : BitVec 5, n &&& 24#5 = 24#5 ↔ 24 ≤ n.toNat := by decide
  rw [h, BitVec.and_append, hb, Bool.eq_iff_iff, beq_iff_eq, dispatchWord_inj, decide_eq_true_eq, hn]
  simp

/-- The dispatch table as conditions on `N` and `b`, in the priority order of R100. -/
theorem caseOf_dispatchWord (n : BitVec 5) (b : Byte) :
    caseOf (n ++ b) =
      if n = 0 ∧ b = 0x9B then .sync0 else if n = 0 then .skip
      else if n = 1 ∧ b = 0x16 then .sync1 else if n = 1 then .desync
      else if n = 23 then .final else if 24 ≤ n.toNat then .unreachable else .store := by
  have h0 := fullMask_eq n 0 b 0x9B
  have h1 := offsetMask_eq n 0 b
  have h2 := fullMask_eq n 1 b 0x16
  have h3 := offsetMask_eq n 1 b
  have h4 := offsetMask_eq n 23 b
  have h5 := unreachableMask_eq n b
  have e0 : ((0 : BitVec 5) ++ (0x9B : Byte) : BitVec 13) = 0x009B#13 := rfl
  have e1 : ((0 : BitVec 5) ++ 0#8 : BitVec 13) = 0x0000#13 := rfl
  have e2 : ((1 : BitVec 5) ++ (0x16 : Byte) : BitVec 13) = 0x0116#13 := rfl
  have e3 : ((1 : BitVec 5) ++ 0#8 : BitVec 13) = 0x0100#13 := rfl
  have e4 : ((23 : BitVec 5) ++ 0#8 : BitVec 13) = 0x1700#13 := rfl
  have e6 : ((n ++ b : BitVec 13) &&& 0x0000#13 == 0x0000#13) = true := by
    rw [BitVec.and_zero]; rfl
  rw [e0] at h0; rw [e1] at h1; rw [e2] at h2; rw [e3] at h3; rw [e4] at h4
  unfold caseOf caseRows
  simp only [List.find?_cons, BitVec.ofNat_eq_ofNat, h0, h1, h2, h3, h4, h5, e6]
  clear h0 h1 h2 h3 h4 h5 e0 e1 e2 e3 e4 e6
  by_cases a5 : 24 ≤ n.toNat
  · simp only [decide_eq_true a5, if_pos a5]
    split_ifs <;> simp_all
  · simp only [decide_eq_false a5, if_neg a5]
    split_ifs <;> simp_all

/-- The decoder on a dispatch word. -/
theorem decode_submitWord (n : BitVec 5) (b : Byte) :
    decode (submitWord n b) = (decodeSubmit n b).map fun i => (i, none) := by
  have h : ¬ 32 ≤ (n.setWidth 8).toNat := by
    have := n.isLt
    simp only [BitVec.toNat_setWidth]
    omega
  have e : (n.setWidth 8).setWidth 5 = n := by
    apply BitVec.eq_of_toNat_eq
    have := n.isLt
    simp only [BitVec.toNat_setWidth]
    omega
  simp only [decode, submitWord, if_neg h, e]
  cases decodeSubmit n b <;> rfl

theorem length_bytesLE (k w : Nat) : (bytesLE k w).length = k := by
  induction k generalizing w with
  | zero => rfl
  | succ k ih => simp [bytesLE, ih]

theorem length_frameBytes (p : List Byte) : (frameBytes p).length = p.length + 4 := by
  simp [frameBytes, summedPart, trailer, length_bytesLE]

theorem length_payloadOf (x : FrameFields) : (payloadOf x).length = 20 := rfl

/-- A 16-bit value is its two bytes joined. -/
theorem hiByte_append_loByte (v : BitVec 16) : (hiByte v ++ loByte v : BitVec 16) = v := by
  apply BitVec.eq_of_toNat_eq
  have := v.isLt
  rw [BitVec.toNat_append, ← Nat.shiftLeft_add_eq_or_of_lt (by simpa using (loByte v).isLt), Nat.shiftLeft_eq]
  simp only [hiByte, loByte, BitVec.extractLsb'_toNat, Nat.shiftRight_eq_div_pow]
  omega

/-- Field values come back from their payload. -/
theorem fieldsOf_payloadOf (x : FrameFields) : fieldsOf (payloadOf x) = some x := by
  simp [fieldsOf, payloadOf, hiByte_append_loByte]

theorem byteSum_append (a b : List Byte) : byteSum (a ++ b) = byteSum a + byteSum b := by
  induction a with
  | nil => simp [byteSum]
  | cons x a ih => simp [byteSum, ih, Nat.add_assoc]

/-- Every byte is at most 255. -/
theorem byteSum_le (bs : List Byte) : byteSum bs ≤ 255 * bs.length := by
  induction bs with
  | nil => simp [byteSum]
  | cons b bs ih =>
    have := b.isLt
    simp only [byteSum, List.length_cons]
    omega

/-- The bytes `FRAME` expands to give back the payload. -/
theorem payloadOfFrame_frameBytes (p : List Byte) (h : p.length = 20) : payloadOfFrame (frameBytes p) = .ok p := by
  have hl : (frameBytes p).length = 24 := by rw [length_frameBytes, h]
  have hp : ((frameBytes p).drop 2).take 20 = p := by
    simp [frameBytes, summedPart, ← h]
  have hh : hasHeader (frameBytes p) = true := rfl
  simp [payloadOfFrame, hl, hh, hp]

theorem regOfCode_codeOfReg (f : RegName) : regOfCode (codeOfReg f) = some f := by cases f <;> rfl

theorem codeOfReg_ne_zero (f : RegName) : codeOfReg f ≠ 0 := by cases f <;> decide

end Sys2Proof
end

