-- ==== Sys2Proof/Laws/State.lean ====
section
/-! SUPPORT. One lemma per field per named update of State, so that no proof unfolds a record update. -/

namespace Sys2Proof.Machine

@[simp] theorem fresh_buf (s : State) : (fresh s).buf = s.buf := rfl
@[simp] theorem fresh_n (s : State) : (fresh s).n = s.n := rfl
@[simp] theorem fresh_pp (s : State) : (fresh s).pp = s.pp := rfl
@[simp] theorem fresh_halt (s : State) : (fresh s).halt = s.halt := rfl
@[simp] theorem fresh_ready (s : State) : (fresh s).ready = s.ready := rfl
@[simp] theorem fresh_recValid (s : State) : (fresh s).recValid = s.recValid := rfl
@[simp] theorem fresh_ckValid (s : State) : (fresh s).ckValid = s.ckValid := rfl
@[simp] theorem fresh_ckRx (s : State) : (fresh s).ckRx = s.ckRx := rfl
@[simp] theorem fresh_ckCalc (s : State) : (fresh s).ckCalc = s.ckCalc := rfl
@[simp] theorem fresh_record (s : State) : (fresh s).record = s.record := rfl
@[simp] theorem fresh_pollResult (s : State) : (fresh s).pollResult = s.pollResult := rfl
@[simp] theorem fresh_events (s : State) : (fresh s).events = [] := rfl
@[simp] theorem fresh_pulses (s : State) : (fresh s).pulses = [] := rfl
@[simp] theorem fresh_results (s : State) : (fresh s).results = [] := rfl
@[simp] theorem fresh_rom (s : State) : (fresh s).rom = s.rom := rfl
@[simp] theorem fresh_inits (s : State) : (fresh s).inits = s.inits := rfl
@[simp] theorem fresh_input (s : State) : (fresh s).input = s.input := rfl
@[simp] theorem fresh_pending (s : State) : (fresh s).pending = s.pending := rfl
@[simp] theorem live_fresh (s : State) : live (fresh s) = live s := rfl

@[simp] theorem putByte_buf (i : Nat) (v : Byte) (s : State) : (putByte i v s).buf = memWrite s.buf i v := rfl
@[simp] theorem putByte_n (i : Nat) (v : Byte) (s : State) : (putByte i v s).n = s.n := rfl
@[simp] theorem putByte_pp (i : Nat) (v : Byte) (s : State) : (putByte i v s).pp = s.pp := rfl
@[simp] theorem putByte_halt (i : Nat) (v : Byte) (s : State) : (putByte i v s).halt = s.halt := rfl
@[simp] theorem putByte_ready (i : Nat) (v : Byte) (s : State) : (putByte i v s).ready = s.ready := rfl
@[simp] theorem putByte_recValid (i : Nat) (v : Byte) (s : State) : (putByte i v s).recValid = s.recValid := rfl
@[simp] theorem putByte_ckValid (i : Nat) (v : Byte) (s : State) : (putByte i v s).ckValid = s.ckValid := rfl
@[simp] theorem putByte_ckRx (i : Nat) (v : Byte) (s : State) : (putByte i v s).ckRx = s.ckRx := rfl
@[simp] theorem putByte_ckCalc (i : Nat) (v : Byte) (s : State) : (putByte i v s).ckCalc = s.ckCalc := rfl
@[simp] theorem putByte_record (i : Nat) (v : Byte) (s : State) : (putByte i v s).record = s.record := rfl
@[simp] theorem putByte_pollResult (i : Nat) (v : Byte) (s : State) : (putByte i v s).pollResult = s.pollResult := rfl
@[simp] theorem putByte_events (i : Nat) (v : Byte) (s : State) : (putByte i v s).events = s.events := rfl
@[simp] theorem putByte_pulses (i : Nat) (v : Byte) (s : State) : (putByte i v s).pulses = s.pulses := rfl
@[simp] theorem putByte_results (i : Nat) (v : Byte) (s : State) : (putByte i v s).results = s.results := rfl
@[simp] theorem putByte_rom (i : Nat) (v : Byte) (s : State) : (putByte i v s).rom = s.rom := rfl
@[simp] theorem putByte_inits (i : Nat) (v : Byte) (s : State) : (putByte i v s).inits = s.inits := rfl
@[simp] theorem putByte_input (i : Nat) (v : Byte) (s : State) : (putByte i v s).input = s.input := rfl
@[simp] theorem putByte_pending (i : Nat) (v : Byte) (s : State) : (putByte i v s).pending = s.pending := rfl
@[simp] theorem live_putByte (i : Nat) (v : Byte) (s : State) : live (putByte i v s) = live s := rfl

@[simp] theorem give_buf (v : Value) (s : State) : (give v s).buf = s.buf := rfl
@[simp] theorem give_n (v : Value) (s : State) : (give v s).n = s.n := rfl
@[simp] theorem give_pp (v : Value) (s : State) : (give v s).pp = s.pp := rfl
@[simp] theorem give_halt (v : Value) (s : State) : (give v s).halt = s.halt := rfl
@[simp] theorem give_ready (v : Value) (s : State) : (give v s).ready = s.ready := rfl
@[simp] theorem give_recValid (v : Value) (s : State) : (give v s).recValid = s.recValid := rfl
@[simp] theorem give_ckValid (v : Value) (s : State) : (give v s).ckValid = s.ckValid := rfl
@[simp] theorem give_ckRx (v : Value) (s : State) : (give v s).ckRx = s.ckRx := rfl
@[simp] theorem give_ckCalc (v : Value) (s : State) : (give v s).ckCalc = s.ckCalc := rfl
@[simp] theorem give_record (v : Value) (s : State) : (give v s).record = s.record := rfl
@[simp] theorem give_pollResult (v : Value) (s : State) : (give v s).pollResult = s.pollResult := rfl
@[simp] theorem give_events (v : Value) (s : State) : (give v s).events = s.events := rfl
@[simp] theorem give_pulses (v : Value) (s : State) : (give v s).pulses = s.pulses := rfl
@[simp] theorem give_results (v : Value) (s : State) : (give v s).results = s.results ++ [v] := rfl
@[simp] theorem give_rom (v : Value) (s : State) : (give v s).rom = s.rom := rfl
@[simp] theorem give_inits (v : Value) (s : State) : (give v s).inits = s.inits := rfl
@[simp] theorem give_input (v : Value) (s : State) : (give v s).input = s.input := rfl
@[simp] theorem give_pending (v : Value) (s : State) : (give v s).pending = s.pending := rfl
@[simp] theorem live_give (v : Value) (s : State) : live (give v s) = live s := rfl

@[simp] theorem emit_buf (e : Event) (s : State) : (emit e s).buf = s.buf := rfl
@[simp] theorem emit_n (e : Event) (s : State) : (emit e s).n = s.n := rfl
@[simp] theorem emit_pp (e : Event) (s : State) : (emit e s).pp = s.pp := rfl
@[simp] theorem emit_halt (e : Event) (s : State) : (emit e s).halt = s.halt := rfl
@[simp] theorem emit_ready (e : Event) (s : State) : (emit e s).ready = s.ready := rfl
@[simp] theorem emit_recValid (e : Event) (s : State) : (emit e s).recValid = s.recValid := rfl
@[simp] theorem emit_ckValid (e : Event) (s : State) : (emit e s).ckValid = s.ckValid := rfl
@[simp] theorem emit_ckRx (e : Event) (s : State) : (emit e s).ckRx = s.ckRx := rfl
@[simp] theorem emit_ckCalc (e : Event) (s : State) : (emit e s).ckCalc = s.ckCalc := rfl
@[simp] theorem emit_record (e : Event) (s : State) : (emit e s).record = s.record := rfl
@[simp] theorem emit_pollResult (e : Event) (s : State) : (emit e s).pollResult = s.pollResult := rfl
@[simp] theorem emit_events (e : Event) (s : State) : (emit e s).events = s.events ++ [e] := rfl
@[simp] theorem emit_pulses (e : Event) (s : State) : (emit e s).pulses = s.pulses ++ [e] := rfl
@[simp] theorem emit_results (e : Event) (s : State) : (emit e s).results = s.results := rfl
@[simp] theorem emit_rom (e : Event) (s : State) : (emit e s).rom = s.rom := rfl
@[simp] theorem emit_inits (e : Event) (s : State) : (emit e s).inits = s.inits := rfl
@[simp] theorem emit_input (e : Event) (s : State) : (emit e s).input = s.input := rfl
@[simp] theorem emit_pending (e : Event) (s : State) : (emit e s).pending = s.pending := rfl
@[simp] theorem live_emit (e : Event) (s : State) : live (emit e s) = live s := rfl

@[simp] theorem setN_buf (v : BitVec 5) (s : State) : (setN v s).buf = s.buf := rfl
@[simp] theorem setN_n (v : BitVec 5) (s : State) : (setN v s).n = v := rfl
@[simp] theorem setN_pp (v : BitVec 5) (s : State) : (setN v s).pp = s.pp := rfl
@[simp] theorem setN_halt (v : BitVec 5) (s : State) : (setN v s).halt = s.halt := rfl
@[simp] theorem setN_ready (v : BitVec 5) (s : State) : (setN v s).ready = s.ready := rfl
@[simp] theorem setN_recValid (v : BitVec 5) (s : State) : (setN v s).recValid = s.recValid := rfl
@[simp] theorem setN_ckValid (v : BitVec 5) (s : State) : (setN v s).ckValid = s.ckValid := rfl
@[simp] theorem setN_ckRx (v : BitVec 5) (s : State) : (setN v s).ckRx = s.ckRx := rfl
@[simp] theorem setN_ckCalc (v : BitVec 5) (s : State) : (setN v s).ckCalc = s.ckCalc := rfl
@[simp] theorem setN_record (v : BitVec 5) (s : State) : (setN v s).record = s.record := rfl
@[simp] theorem setN_pollResult (v : BitVec 5) (s : State) : (setN v s).pollResult = s.pollResult := rfl
@[simp] theorem setN_events (v : BitVec 5) (s : State) : (setN v s).events = s.events := rfl
@[simp] theorem setN_pulses (v : BitVec 5) (s : State) : (setN v s).pulses = s.pulses := rfl
@[simp] theorem setN_results (v : BitVec 5) (s : State) : (setN v s).results = s.results := rfl
@[simp] theorem setN_rom (v : BitVec 5) (s : State) : (setN v s).rom = s.rom := rfl
@[simp] theorem setN_inits (v : BitVec 5) (s : State) : (setN v s).inits = s.inits := rfl
@[simp] theorem setN_input (v : BitVec 5) (s : State) : (setN v s).input = s.input := rfl
@[simp] theorem setN_pending (v : BitVec 5) (s : State) : (setN v s).pending = s.pending := rfl
@[simp] theorem live_setN (v : BitVec 5) (s : State) : live (setN v s) = live s := rfl

@[simp] theorem setReady_buf (s : State) : (setReady s).buf = s.buf := rfl
@[simp] theorem setReady_n (s : State) : (setReady s).n = s.n := rfl
@[simp] theorem setReady_pp (s : State) : (setReady s).pp = s.pp := rfl
@[simp] theorem setReady_halt (s : State) : (setReady s).halt = s.halt := rfl
@[simp] theorem setReady_ready (s : State) : (setReady s).ready = true := rfl
@[simp] theorem setReady_recValid (s : State) : (setReady s).recValid = true := rfl
@[simp] theorem setReady_ckValid (s : State) : (setReady s).ckValid = s.ckValid := rfl
@[simp] theorem setReady_ckRx (s : State) : (setReady s).ckRx = s.ckRx := rfl
@[simp] theorem setReady_ckCalc (s : State) : (setReady s).ckCalc = s.ckCalc := rfl
@[simp] theorem setReady_record (s : State) : (setReady s).record = s.record := rfl
@[simp] theorem setReady_pollResult (s : State) : (setReady s).pollResult = s.pollResult := rfl
@[simp] theorem setReady_events (s : State) : (setReady s).events = s.events := rfl
@[simp] theorem setReady_pulses (s : State) : (setReady s).pulses = s.pulses := rfl
@[simp] theorem setReady_results (s : State) : (setReady s).results = s.results := rfl
@[simp] theorem setReady_rom (s : State) : (setReady s).rom = s.rom := rfl
@[simp] theorem setReady_inits (s : State) : (setReady s).inits = s.inits := rfl
@[simp] theorem setReady_input (s : State) : (setReady s).input = s.input := rfl
@[simp] theorem setReady_pending (s : State) : (setReady s).pending = s.pending := rfl
@[simp] theorem live_setReady (s : State) : live (setReady s) = live s := rfl

@[simp] theorem latchRecord_buf (r : Record) (s : State) : (latchRecord r s).buf = s.buf := rfl
@[simp] theorem latchRecord_n (r : Record) (s : State) : (latchRecord r s).n = s.n := rfl
@[simp] theorem latchRecord_pp (r : Record) (s : State) : (latchRecord r s).pp = s.pp := rfl
@[simp] theorem latchRecord_halt (r : Record) (s : State) : (latchRecord r s).halt = s.halt := rfl
@[simp] theorem latchRecord_ready (r : Record) (s : State) : (latchRecord r s).ready = s.ready := rfl
@[simp] theorem latchRecord_recValid (r : Record) (s : State) : (latchRecord r s).recValid = s.recValid := rfl
@[simp] theorem latchRecord_ckValid (r : Record) (s : State) : (latchRecord r s).ckValid = s.ckValid := rfl
@[simp] theorem latchRecord_ckRx (r : Record) (s : State) : (latchRecord r s).ckRx = s.ckRx := rfl
@[simp] theorem latchRecord_ckCalc (r : Record) (s : State) : (latchRecord r s).ckCalc = s.ckCalc := rfl
@[simp] theorem latchRecord_record (r : Record) (s : State) : (latchRecord r s).record = r := rfl
@[simp] theorem latchRecord_pollResult (r : Record) (s : State) : (latchRecord r s).pollResult = s.pollResult := rfl
@[simp] theorem latchRecord_events (r : Record) (s : State) : (latchRecord r s).events = s.events := rfl
@[simp] theorem latchRecord_pulses (r : Record) (s : State) : (latchRecord r s).pulses = s.pulses := rfl
@[simp] theorem latchRecord_results (r : Record) (s : State) : (latchRecord r s).results = s.results := rfl
@[simp] theorem latchRecord_rom (r : Record) (s : State) : (latchRecord r s).rom = s.rom := rfl
@[simp] theorem latchRecord_inits (r : Record) (s : State) : (latchRecord r s).inits = s.inits := rfl
@[simp] theorem latchRecord_input (r : Record) (s : State) : (latchRecord r s).input = s.input := rfl
@[simp] theorem latchRecord_pending (r : Record) (s : State) : (latchRecord r s).pending = s.pending := rfl
@[simp] theorem live_latchRecord (r : Record) (s : State) : live (latchRecord r s) = live s := rfl

@[simp] theorem latchChecksums_buf (rx sum : BitVec 16) (s : State) : (latchChecksums rx sum s).buf = s.buf := rfl
@[simp] theorem latchChecksums_n (rx sum : BitVec 16) (s : State) : (latchChecksums rx sum s).n = s.n := rfl
@[simp] theorem latchChecksums_pp (rx sum : BitVec 16) (s : State) : (latchChecksums rx sum s).pp = s.pp := rfl
@[simp] theorem latchChecksums_halt (rx sum : BitVec 16) (s : State) : (latchChecksums rx sum s).halt = s.halt := rfl
@[simp] theorem latchChecksums_ready (rx sum : BitVec 16) (s : State) : (latchChecksums rx sum s).ready = s.ready := rfl
@[simp] theorem latchChecksums_recValid (rx sum : BitVec 16) (s : State) : (latchChecksums rx sum s).recValid = s.recValid := rfl
@[simp] theorem latchChecksums_ckValid (rx sum : BitVec 16) (s : State) : (latchChecksums rx sum s).ckValid = true := rfl
@[simp] theorem latchChecksums_ckRx (rx sum : BitVec 16) (s : State) : (latchChecksums rx sum s).ckRx = rx := rfl
@[simp] theorem latchChecksums_ckCalc (rx sum : BitVec 16) (s : State) : (latchChecksums rx sum s).ckCalc = sum := rfl
@[simp] theorem latchChecksums_record (rx sum : BitVec 16) (s : State) : (latchChecksums rx sum s).record = s.record := rfl
@[simp] theorem latchChecksums_pollResult (rx sum : BitVec 16) (s : State) : (latchChecksums rx sum s).pollResult = s.pollResult := rfl
@[simp] theorem latchChecksums_events (rx sum : BitVec 16) (s : State) : (latchChecksums rx sum s).events = s.events := rfl
@[simp] theorem latchChecksums_pulses (rx sum : BitVec 16) (s : State) : (latchChecksums rx sum s).pulses = s.pulses := rfl
@[simp] theorem latchChecksums_results (rx sum : BitVec 16) (s : State) : (latchChecksums rx sum s).results = s.results := rfl
@[simp] theorem latchChecksums_rom (rx sum : BitVec 16) (s : State) : (latchChecksums rx sum s).rom = s.rom := rfl
@[simp] theorem latchChecksums_inits (rx sum : BitVec 16) (s : State) : (latchChecksums rx sum s).inits = s.inits := rfl
@[simp] theorem latchChecksums_input (rx sum : BitVec 16) (s : State) : (latchChecksums rx sum s).input = s.input := rfl
@[simp] theorem latchChecksums_pending (rx sum : BitVec 16) (s : State) : (latchChecksums rx sum s).pending = s.pending := rfl
@[simp] theorem live_latchChecksums (rx sum : BitVec 16) (s : State) : live (latchChecksums rx sum s) = live s := rfl

@[simp] theorem observeReady_buf (s : State) : (observeReady s).buf = s.buf := rfl
@[simp] theorem observeReady_n (s : State) : (observeReady s).n = s.n := rfl
@[simp] theorem observeReady_pp (s : State) : (observeReady s).pp = s.pp := rfl
@[simp] theorem observeReady_halt (s : State) : (observeReady s).halt = s.halt := rfl
@[simp] theorem observeReady_ready (s : State) : (observeReady s).ready = false := rfl
@[simp] theorem observeReady_recValid (s : State) : (observeReady s).recValid = s.recValid := rfl
@[simp] theorem observeReady_ckValid (s : State) : (observeReady s).ckValid = s.ckValid := rfl
@[simp] theorem observeReady_ckRx (s : State) : (observeReady s).ckRx = s.ckRx := rfl
@[simp] theorem observeReady_ckCalc (s : State) : (observeReady s).ckCalc = s.ckCalc := rfl
@[simp] theorem observeReady_record (s : State) : (observeReady s).record = s.record := rfl
@[simp] theorem observeReady_pollResult (s : State) : (observeReady s).pollResult = s.ready := rfl
@[simp] theorem observeReady_events (s : State) : (observeReady s).events = s.events := rfl
@[simp] theorem observeReady_pulses (s : State) : (observeReady s).pulses = s.pulses := rfl
@[simp] theorem observeReady_results (s : State) : (observeReady s).results = s.results := rfl
@[simp] theorem observeReady_rom (s : State) : (observeReady s).rom = s.rom := rfl
@[simp] theorem observeReady_inits (s : State) : (observeReady s).inits = s.inits := rfl
@[simp] theorem observeReady_input (s : State) : (observeReady s).input = s.input := rfl
@[simp] theorem observeReady_pending (s : State) : (observeReady s).pending = s.pending := rfl
@[simp] theorem live_observeReady (s : State) : live (observeReady s) = live s := rfl

@[simp] theorem forget_buf (q : BitVec 8) (h : Bool) (s : State) : (forget q h s).buf = [] := rfl
@[simp] theorem forget_n (q : BitVec 8) (h : Bool) (s : State) : (forget q h s).n = 0 := rfl
@[simp] theorem forget_pp (q : BitVec 8) (h : Bool) (s : State) : (forget q h s).pp = q := rfl
@[simp] theorem forget_halt (q : BitVec 8) (h : Bool) (s : State) : (forget q h s).halt = h := rfl
@[simp] theorem forget_ready (q : BitVec 8) (h : Bool) (s : State) : (forget q h s).ready = false := rfl
@[simp] theorem forget_recValid (q : BitVec 8) (h : Bool) (s : State) : (forget q h s).recValid = false := rfl
@[simp] theorem forget_ckValid (q : BitVec 8) (h : Bool) (s : State) : (forget q h s).ckValid = false := rfl
@[simp] theorem forget_ckRx (q : BitVec 8) (h : Bool) (s : State) : (forget q h s).ckRx = 0 := rfl
@[simp] theorem forget_ckCalc (q : BitVec 8) (h : Bool) (s : State) : (forget q h s).ckCalc = 0 := rfl
@[simp] theorem forget_record (q : BitVec 8) (h : Bool) (s : State) : (forget q h s).record = blankRecord := rfl
@[simp] theorem forget_pollResult (q : BitVec 8) (h : Bool) (s : State) : (forget q h s).pollResult = false := rfl
@[simp] theorem forget_events (q : BitVec 8) (h : Bool) (s : State) : (forget q h s).events = s.events := rfl
@[simp] theorem forget_pulses (q : BitVec 8) (h : Bool) (s : State) : (forget q h s).pulses = s.pulses := rfl
@[simp] theorem forget_results (q : BitVec 8) (h : Bool) (s : State) : (forget q h s).results = s.results := rfl
@[simp] theorem forget_rom (q : BitVec 8) (h : Bool) (s : State) : (forget q h s).rom = s.rom := rfl
@[simp] theorem forget_inits (q : BitVec 8) (h : Bool) (s : State) : (forget q h s).inits = s.inits + 1 := rfl
@[simp] theorem forget_input (q : BitVec 8) (h : Bool) (s : State) : (forget q h s).input = s.input := rfl
@[simp] theorem forget_pending (q : BitVec 8) (h : Bool) (s : State) : (forget q h s).pending = s.pending := rfl
@[simp] theorem live_forget (q : BitVec 8) (h : Bool) (s : State) : live (forget q h s) = !h := by simp [live]

@[simp] theorem setInput_buf (rest : List Stimulus) (s : State) : (setInput rest s).buf = s.buf := rfl
@[simp] theorem setInput_n (rest : List Stimulus) (s : State) : (setInput rest s).n = s.n := rfl
@[simp] theorem setInput_pp (rest : List Stimulus) (s : State) : (setInput rest s).pp = s.pp := rfl
@[simp] theorem setInput_halt (rest : List Stimulus) (s : State) : (setInput rest s).halt = s.halt := rfl
@[simp] theorem setInput_ready (rest : List Stimulus) (s : State) : (setInput rest s).ready = s.ready := rfl
@[simp] theorem setInput_recValid (rest : List Stimulus) (s : State) : (setInput rest s).recValid = s.recValid := rfl
@[simp] theorem setInput_ckValid (rest : List Stimulus) (s : State) : (setInput rest s).ckValid = s.ckValid := rfl
@[simp] theorem setInput_ckRx (rest : List Stimulus) (s : State) : (setInput rest s).ckRx = s.ckRx := rfl
@[simp] theorem setInput_ckCalc (rest : List Stimulus) (s : State) : (setInput rest s).ckCalc = s.ckCalc := rfl
@[simp] theorem setInput_record (rest : List Stimulus) (s : State) : (setInput rest s).record = s.record := rfl
@[simp] theorem setInput_pollResult (rest : List Stimulus) (s : State) : (setInput rest s).pollResult = s.pollResult := rfl
@[simp] theorem setInput_events (rest : List Stimulus) (s : State) : (setInput rest s).events = s.events := rfl
@[simp] theorem setInput_pulses (rest : List Stimulus) (s : State) : (setInput rest s).pulses = s.pulses := rfl
@[simp] theorem setInput_results (rest : List Stimulus) (s : State) : (setInput rest s).results = s.results := rfl
@[simp] theorem setInput_rom (rest : List Stimulus) (s : State) : (setInput rest s).rom = s.rom := rfl
@[simp] theorem setInput_inits (rest : List Stimulus) (s : State) : (setInput rest s).inits = s.inits := rfl
@[simp] theorem setInput_input (rest : List Stimulus) (s : State) : (setInput rest s).input = rest := rfl
@[simp] theorem setInput_pending (rest : List Stimulus) (s : State) : (setInput rest s).pending = s.pending := rfl
@[simp] theorem live_setInput (rest : List Stimulus) (s : State) : live (setInput rest s) = live s := rfl

@[simp] theorem setPending_buf (fs : List RegName) (s : State) : (setPending fs s).buf = s.buf := rfl
@[simp] theorem setPending_n (fs : List RegName) (s : State) : (setPending fs s).n = s.n := rfl
@[simp] theorem setPending_pp (fs : List RegName) (s : State) : (setPending fs s).pp = s.pp := rfl
@[simp] theorem setPending_halt (fs : List RegName) (s : State) : (setPending fs s).halt = s.halt := rfl
@[simp] theorem setPending_ready (fs : List RegName) (s : State) : (setPending fs s).ready = s.ready := rfl
@[simp] theorem setPending_recValid (fs : List RegName) (s : State) : (setPending fs s).recValid = s.recValid := rfl
@[simp] theorem setPending_ckValid (fs : List RegName) (s : State) : (setPending fs s).ckValid = s.ckValid := rfl
@[simp] theorem setPending_ckRx (fs : List RegName) (s : State) : (setPending fs s).ckRx = s.ckRx := rfl
@[simp] theorem setPending_ckCalc (fs : List RegName) (s : State) : (setPending fs s).ckCalc = s.ckCalc := rfl
@[simp] theorem setPending_record (fs : List RegName) (s : State) : (setPending fs s).record = s.record := rfl
@[simp] theorem setPending_pollResult (fs : List RegName) (s : State) : (setPending fs s).pollResult = s.pollResult := rfl
@[simp] theorem setPending_events (fs : List RegName) (s : State) : (setPending fs s).events = s.events := rfl
@[simp] theorem setPending_pulses (fs : List RegName) (s : State) : (setPending fs s).pulses = s.pulses := rfl
@[simp] theorem setPending_results (fs : List RegName) (s : State) : (setPending fs s).results = s.results := rfl
@[simp] theorem setPending_rom (fs : List RegName) (s : State) : (setPending fs s).rom = s.rom := rfl
@[simp] theorem setPending_inits (fs : List RegName) (s : State) : (setPending fs s).inits = s.inits := rfl
@[simp] theorem setPending_input (fs : List RegName) (s : State) : (setPending fs s).input = s.input := rfl
@[simp] theorem setPending_pending (fs : List RegName) (s : State) : (setPending fs s).pending = fs := rfl
@[simp] theorem live_setPending (fs : List RegName) (s : State) : live (setPending fs s) = live s := rfl

@[simp] theorem quiet_buf (s : State) : (quiet s).buf = s.buf := rfl
@[simp] theorem quiet_n (s : State) : (quiet s).n = s.n := rfl
@[simp] theorem quiet_pp (s : State) : (quiet s).pp = s.pp := rfl
@[simp] theorem quiet_halt (s : State) : (quiet s).halt = s.halt := rfl
@[simp] theorem quiet_ready (s : State) : (quiet s).ready = s.ready := rfl
@[simp] theorem quiet_recValid (s : State) : (quiet s).recValid = s.recValid := rfl
@[simp] theorem quiet_ckValid (s : State) : (quiet s).ckValid = s.ckValid := rfl
@[simp] theorem quiet_ckRx (s : State) : (quiet s).ckRx = s.ckRx := rfl
@[simp] theorem quiet_ckCalc (s : State) : (quiet s).ckCalc = s.ckCalc := rfl
@[simp] theorem quiet_record (s : State) : (quiet s).record = s.record := rfl
@[simp] theorem quiet_pollResult (s : State) : (quiet s).pollResult = s.pollResult := rfl
@[simp] theorem quiet_events (s : State) : (quiet s).events = s.events := rfl
@[simp] theorem quiet_pulses (s : State) : (quiet s).pulses = [] := rfl
@[simp] theorem quiet_results (s : State) : (quiet s).results = s.results := rfl
@[simp] theorem quiet_rom (s : State) : (quiet s).rom = s.rom := rfl
@[simp] theorem quiet_inits (s : State) : (quiet s).inits = s.inits := rfl
@[simp] theorem quiet_input (s : State) : (quiet s).input = s.input := rfl
@[simp] theorem quiet_pending (s : State) : (quiet s).pending = s.pending := rfl
@[simp] theorem live_quiet (s : State) : live (quiet s) = live s := rfl

@[simp] theorem fresh_fresh (s : State) : fresh (fresh s) = fresh s := rfl
@[simp] theorem quiet_fresh (s : State) : quiet (fresh s) = fresh s := rfl
@[simp] theorem quiet_quiet (s : State) : quiet (quiet s) = quiet s := rfl

/-- Where nothing pulses there is nothing to clear. -/
theorem quiet_of_pulses {s : State} (h : s.pulses = []) : quiet s = s := by
  cases s
  cases h
  rfl

/-- An existing instance has been initialised and is not halted. -/
theorem live_eq_true (s : State) : live s = true ↔ s.inits ≠ 0 ∧ s.halt = false := by simp [live]

theorem reset_live : live State.reset = true := rfl

end Sys2Proof.Machine
end

