-- ==== Sys2Proof/Laws/Memory.lean ====
section
/-! SUPPORT. The laws of the frame buffer as memory, and what a read or a write of one byte answers. -/

namespace Sys2Proof.Machine

theorem memRead_memWrite_same (m : List Host.Cell) (a : Nat) (v : Byte) : memRead (memWrite m a v) a = some v := by
  induction m with
  | nil => simp [memWrite, memRead]
  | cons c m ih =>
    obtain ⟨k, w⟩ := c
    unfold memWrite
    split
    · simp [memRead]
    · split
      · simp [memRead]
      · have h : ¬ k = a := by omega
        simp [memRead, h, ih]

theorem memRead_memWrite_other (m : List Host.Cell) {a b : Nat} (v : Byte) (h : b ≠ a) :
    memRead (memWrite m a v) b = memRead m b := by
  induction m with
  | nil => simp [memWrite, memRead, h.symm]
  | cons c m ih =>
    obtain ⟨k, w⟩ := c
    unfold memWrite
    split
    · simp [memRead, h.symm]
    · split
      · rename_i _ hk
        subst hk
        simp [memRead, h.symm]
      · simp only [memRead, ih]

/-- A read after a write, both cases at once. -/
theorem memRead_memWrite (m : List Host.Cell) (a b : Nat) (v : Byte) :
    memRead (memWrite m a v) b = if b = a then some v else memRead m b := by
  split
  · rename_i h
    subst h
    exact memRead_memWrite_same m b v
  · rename_i h
    exact memRead_memWrite_other m v h

/-- The canonical form, as a recursion on the first cell. -/
theorem memRising_cons (k : Nat) (w : Byte) (m : List Host.Cell) :
    memRising ((k, w) :: m) = true ↔ (∀ c ∈ m.head?, k < c.1) ∧ memRising m = true := by
  cases m with
  | nil => simp [memRising]
  | cons c m => obtain ⟨b, x⟩ := c; simp [memRising]

theorem head_memWrite (m : List Host.Cell) (a k : Nat) (v : Byte) (h : ∀ c ∈ m.head?, k < c.1) (hk : k < a) :
    ∀ c ∈ (memWrite m a v).head?, k < c.1 := by
  cases m with
  | nil => simp [memWrite, hk]
  | cons c m =>
    obtain ⟨b, x⟩ := c
    have hb : k < b := by simpa using h
    unfold memWrite
    split
    · simp [hk]
    · split
      · simp [hk]
      · simp [hb]

theorem memRising_memWrite (m : List Host.Cell) (a : Nat) (v : Byte) (h : memRising m = true) :
    memRising (memWrite m a v) = true := by
  induction m with
  | nil => simp [memWrite, memRising]
  | cons c m ih =>
    obtain ⟨k, w⟩ := c
    obtain ⟨h1, h2⟩ := (memRising_cons k w m).mp h
    unfold memWrite
    split
    · rename_i hlt
      exact (memRising_cons a v _).mpr ⟨by simp [hlt], h⟩
    · split
      · rename_i _ he
        subst he
        exact (memRising_cons a v m).mpr ⟨h1, h2⟩
      · exact (memRising_cons k w _).mpr ⟨head_memWrite m a k v h1 (by omega), ih h2⟩

theorem all_memWrite (m : List Host.Cell) (a : Nat) (v : Byte) (p : Nat → Bool) (ha : p a = true)
    (h : m.all (fun c => p c.1) = true) : (memWrite m a v).all (fun c => p c.1) = true := by
  induction m with
  | nil => simp [memWrite, ha]
  | cons c m ih =>
    obtain ⟨k, w⟩ := c
    simp only [List.all_cons, Bool.and_eq_true] at h
    unfold memWrite
    split
    · simp [ha, h.1, h.2]
    · split
      · simp [ha, h.2]
      · simp [h.1, ih h.2]

/-- A write inside the buffer keeps the canonical form. -/
theorem memWf_memWrite (m : List Host.Cell) (a : Nat) (v : Byte) (ha : a < 24) (h : memWf m = true) :
    memWf (memWrite m a v) = true := by
  simp only [memWf, Bool.and_eq_true] at h ⊢
  exact ⟨memRising_memWrite m a v h.1, all_memWrite m a v (fun k => decide (k < 24)) (by simpa using ha) h.2⟩

theorem memWf_nil : memWf [] = true := rfl

/-- Reset memory is in canonical form. -/
theorem memWf_reset : memWf State.reset.buf = true := rfl

theorem memWf_fillBelow (k : Nat) (m : List Host.Cell) (hk : k ≤ 24) (h : memWf m = true) :
    memWf (fillBelow k m) = true := by
  induction k with
  | zero => exact h
  | succ k ih =>
    simp only [fillBelow]
    split
    · exact ih (by omega)
    · exact memWf_memWrite _ _ _ (by omega) (ih (by omega))

theorem memWf_writeBytes (bs : List Byte) (a : Nat) (m : List Host.Cell) (ha : a + bs.length ≤ 24) (h : memWf m = true) :
    memWf (writeBytes a bs m) = true := by
  induction bs generalizing a m with
  | nil => exact h
  | cons b bs ih =>
    simp only [List.length_cons] at ha
    exact ih (a + 1) _ (by omega) (memWf_memWrite m a b (by omega) h)

/-- Reading a cell that holds a value. -/
theorem bufRead_of_some {s : State} {i : Nat} {v : Byte} (hi : i < 24) (h : memRead s.buf i = some v) :
    bufRead s i = .ok v := by simp [bufRead, hi, h]

/-- A read answers exactly when the offset exists and its cell holds the value. -/
theorem bufRead_eq_ok {s : State} {i : Nat} {v : Byte} : bufRead s i = .ok v ↔ i < 24 ∧ memRead s.buf i = some v := by
  unfold bufRead
  split
  · rename_i h
    have h' : i < 24 := h
    cases hm : memRead s.buf i <;> simp [h']
  · rename_i h
    have h' : ¬ i < 24 := h
    simp [h']

/-- A read never raises the fault inside the buffer. -/
theorem bufRead_not_fault {s : State} {i : Nat} (hi : i < 24) (f : Fault) : bufRead s i ≠ .error (.fault f) := by
  unfold bufRead
  rw [if_pos hi]
  split <;> simp

theorem bufWrite_inside {s : State} {i : Nat} (hi : i < 24) (v : Byte) : bufWrite s i v = .ok (putByte i v s) := by
  simp [bufWrite, hi]

theorem bufRead_congr {s t : State} (h : s.buf = t.buf) (i : Nat) : bufRead s i = bufRead t i := by
  simp [bufRead, h]

end Sys2Proof.Machine
end

