-- ==== Sys2Proof/Laws/Ops.lean ====
section
/-! SUPPORT. What the shared operations of Machine/Ops.lean and Machine/Flags.lean can do. -/

namespace Sys2Proof.Machine

@[simp] theorem answer_ok (s : State) : answer (.ok s) = .next s := rfl
@[simp] theorem answer_fault (f : Fault) : answer (.error (.fault f)) = .fault f := rfl
@[simp] theorem answer_refuse (r : Refusal) : answer (.error (.refuse r)) = .refused r := rfl

/-- An outcome is a next state exactly when the operation has one. -/
theorem answer_eq_next {r : Res State} {t : State} : answer r = .next t ↔ r = .ok t := by
  cases r with
  | ok s => simp [answer]
  | error e => cases e <;> simp [answer]

/-- An outcome is a fault exactly when the operation faults. -/
theorem answer_eq_fault {r : Res State} {f : Fault} : answer r = .fault f ↔ r = .error (.fault f) := by
  cases r with
  | ok s => simp [answer]
  | error e => cases e <;> simp [answer]

/-- An outcome is a refusal exactly when the operation refuses. -/
theorem answer_eq_refused {r : Res State} {x : Refusal} : answer r = .refused x ↔ r = .error (.refuse x) := by
  cases r with
  | ok s => simp [answer]
  | error e => cases e <;> simp [answer]

@[simp] theorem ok_bind {α β : Type} (a : α) (f : α → Res β) : ((Except.ok a : Res α) >>= f) = f a := rfl
@[simp] theorem error_bind {α β : Type} (e : Stop) (f : α → Res β) : ((Except.error e : Res α) >>= f) = .error e := rfl
@[simp] theorem pure_eq_ok {α : Type} (a : α) : (pure a : Res α) = .ok a := rfl

/-- A sequence of two operations answers exactly when both do. -/
theorem bind_eq_ok {α β : Type} {x : Res α} {f : α → Res β} {b : β} :
    (x >>= f) = .ok b ↔ ∃ a, x = .ok a ∧ f a = .ok b := by
  cases x with
  | ok a => simp
  | error e => simp

/-- A sequence of two operations stops where the first or the second does. -/
theorem bind_eq_error {α β : Type} {x : Res α} {f : α → Res β} {e : Stop} :
    (x >>= f) = .error e ↔ x = .error e ∨ ∃ a, x = .ok a ∧ f a = .error e := by
  cases x with
  | ok a => simp
  | error d => simp

theorem whenLive_of_live {s : State} (h : live s = true) (r : Res State) : whenLive s r = r := by simp [whenLive, h]

theorem whenLive_of_dead {s : State} (h : live s = false) (r : Res State) :
    whenLive s r = .error (.refuse .noDecoder) := by simp [whenLive, h]

/-- An operation that needs a decoder answers exactly where there is one and it answers. -/
theorem whenLive_eq_ok {s t : State} {r : Res State} : whenLive s r = .ok t ↔ live s = true ∧ r = .ok t := by
  cases h : live s <;> simp [whenLive, h]

theorem whenSelected_eq_ok {b : Bool} {m : String} {s t : State} {r : Res State} :
    whenSelected b m s r = .ok t ↔ live s = true ∧ b = true ∧ r = .ok t := by
  cases b <;> simp [whenSelected, whenLive_eq_ok]

theorem whenSelected_of {b : Bool} {m : String} {s : State} (h : live s = true) (hb : b = true) (r : Res State) :
    whenSelected b m s r = r := by simp [whenSelected, whenLive, h, hb]

/-- Raising a checksum mismatch: the latched pair and the event, nothing else. -/
theorem raiseError_checksumMismatch (rx sum : BitVec 16) (s : State) :
    raiseError (.checksumMismatch rx sum) s =
      { s with ckRx := rx, ckCalc := sum, ckValid := true, events := s.events ++ [.checksumMismatch rx sum]
               pulses := s.pulses ++ [.checksumMismatch rx sum] } := rfl

/-- Raising a temperature miss: the event, nothing else. -/
theorem raiseError_tempMiss (x : Sensor) (raw : Byte) (s : State) :
    raiseError (.tempMiss x raw) s = 
      { s with events := s.events ++ [.tempMiss x raw], pulses := s.pulses ++ [.tempMiss x raw] } := rfl

/-- Raising a malformed configuration: the instance is halted, its registers forgotten, the error returned. -/
theorem raiseError_malformedConfiguration (pp : Int) (s : State) :
    raiseError (.malformedConfiguration pp) s = give (.malformedConfiguration pp) (forget 0 true s) := rfl

/-- The events of the misses of an extraction, MOSFET first. -/
def missesOf (r : Record) (j k : Byte) : List Event :=
  (if r.tmosMiss then [.tempMiss .mos j] else []) ++ (if r.tcapMiss then [.tempMiss .cap k] else [])

/-- The misses of an extraction change the events alone. -/
theorem raiseMisses_eq (r : Record) (j k : Byte) (s : State) :
    raiseMisses r j k s =
      { s with events := s.events ++ missesOf r j k, pulses := s.pulses ++ missesOf r j k } := by
  cases h1 : r.tmosMiss <;> cases h2 : r.tcapMiss <;> simp [raiseMisses, raiseError, emit, missesOf, h1, h2]

end Sys2Proof.Machine
end

