-- ==== Sys2Proof/Laws/Frame.lean ====
section
/-! SUPPORT. What field assembly, the checksum, extraction and completion answer: first in terms of the cells each reads,
then on a buffer that holds a frame. -/

namespace Sys2Proof.Machine

/-- Two bytes joined, the first the more significant, as an integer. -/
theorem join_bytes (hi lo : Byte) : (hi.toNat <<< 8) ||| lo.toNat = hi.toNat * 256 + lo.toNat := by
  rw [← Nat.shiftLeft_add_eq_or_of_lt (by simpa using lo.isLt : lo.toNat < 2 ^ 8), Nat.shiftLeft_eq]

theorem toNat_append_bytes (hi lo : Byte) : (hi ++ lo : BitVec 16).toNat = hi.toNat * 256 + lo.toNat := by
  rw [BitVec.toNat_append, join_bytes]

theorem ofNat_join_bytes (hi lo : Byte) : BitVec.ofNat 16 (hi.toNat * 256 + lo.toNat) = (hi ++ lo : BitVec 16) := by
  apply BitVec.eq_of_toNat_eq
  rw [toNat_append_bytes, BitVec.toNat_ofNat]
  have := hi.isLt
  have := lo.isLt
  omega

/-- A big-endian field, from its two cells. -/
theorem be16_of_cells {s : State} {i : Nat} {hi lo : Byte} (hb : i + 1 < 24) (h1 : memRead s.buf i = some hi)
    (h2 : memRead s.buf (i + 1) = some lo) : be16 s i = .ok (hi.toNat * 256 + lo.toNat) := by
  simp [be16, bufRead_of_some (by omega : i < 24) h1, bufRead_of_some hb h2, join_bytes]

/-- The received checksum, from its two cells: the low byte at the lower offset. -/
theorem receivedSum_of_cells {s : State} {lo hi : Byte} (h1 : memRead s.buf 22 = some lo)
    (h2 : memRead s.buf 23 = some hi) : receivedSum s = .ok (lo.toNat + 256 * hi.toNat) := by
  simp only [receivedSum, bufRead_of_some (by omega) h1, bufRead_of_some (by omega) h2, ok_bind, pure_eq_ok]
  rw [Nat.or_comm, join_bytes]
  congr 1
  omega

/-- The sequence marker, from its four cells, as the 32-bit word of the document's formula. -/
theorem sequenceMarker_of_cells {s : State} {b0 b1 b2 b3 : Byte} (h0 : memRead s.buf 0 = some b0)
    (h1 : memRead s.buf 1 = some b1) (h2 : memRead s.buf 2 = some b2) (h3 : memRead s.buf 3 = some b3) :
    sequenceMarker s = .ok ((b2 ++ b1 ++ b0 ++ b3 : BitVec 32).toNat) := by
  have e : (b2 ++ b1 ++ b0 ++ b3 : BitVec 32).toNat =
      (b0.toNat <<< 8) ||| (b1.toNat <<< 16) ||| (b2.toNat <<< 24) ||| b3.toNat := by
    simp only [BitVec.toNat_append, Nat.shiftLeft_or_distrib, ← Nat.shiftLeft_add]
    rw [Nat.or_comm (b2.toNat <<< (8 + (8 + 8))), Nat.or_comm _ (b0.toNat <<< 8), Nat.or_assoc (b0.toNat <<< 8)]
    simp only [Nat.or_assoc, Nat.reduceAdd]
  rw [e]
  simp only [sequenceMarker, bufRead_of_some (by omega : 0 < 24) h0, bufRead_of_some (by omega : 1 < 24) h1,
    bufRead_of_some (by omega : 2 < 24) h2, bufRead_of_some (by omega : 3 < 24) h3, ok_bind, pure_eq_ok]

/-- The sum of the first cells of a frame. -/
theorem sumFirst_of_frame {s : State} {f : Nat → Byte} (k : Nat) (h : ∀ i < k, memRead s.buf i = some (f i))
    (hk : k ≤ 24) : sumFirst s k = .ok ((List.range k).map fun i => (f i).toNat).sum := by
  induction k with
  | zero => rfl
  | succ k ih =>
    simp [sumFirst, ih (fun i hi => h i (by omega)) (by omega), bufRead_of_some (by omega) (h k (by omega)),
      List.range_succ]

/-- `CKSUM` on cells that hold a frame's first 22 bytes. -/
theorem cksum_of_cells {s : State} {f : Nat → Byte} (h : ∀ i < 22, memRead s.buf i = some (f i)) :
    cksum s = .ok (frameSum f) := sumFirst_of_frame 22 h (by omega)

theorem cksum_of_frame {s : State} {f : Nat → Byte} (h : HoldsFrame s f) : cksum s = .ok (frameSum f) :=
  cksum_of_cells fun i hi => h i (by omega)

theorem receivedSum_of_frame {s : State} {f : Nat → Byte} (h : HoldsFrame s f) :
    receivedSum s = .ok (frameTrailer f) := receivedSum_of_cells (h 22 (by omega)) (h 23 (by omega))

theorem be16_of_frame {s : State} {f : Nat → Byte} (h : HoldsFrame s f) (i : Nat) (hi : i + 1 < 24) :
    be16 s i = .ok (word16 f i) := be16_of_cells hi (h i (by omega)) (h (i + 1) hi)

/-- The sum of 22 bytes fits 13 bits (42_checksum.md R151). -/
theorem frameSum_le (f : Nat → Byte) : frameSum f ≤ 5610 := by
  have h : ∀ k, ((List.range k).map fun i => (f i).toNat).sum ≤ 255 * k := by
    intro k
    induction k with
    | zero => simp
    | succ k ih =>
      have := (f k).isLt
      simp only [List.range_succ, List.map_append, List.sum_append, List.map_cons, List.map_nil, List.sum_cons,
        List.sum_nil]
      omega
  exact h 22

theorem frameTrailer_lt (f : Nat → Byte) : frameTrailer f < 65536 := by
  have := (f 22).isLt
  have := (f 23).isLt
  unfold frameTrailer
  omega

theorem word16_lt (f : Nat → Byte) (i : Nat) : word16 f i < 65536 := by
  have := (f i).isLt
  have := (f (i + 1)).isLt
  unfold word16
  omega

theorem toNat_word (f : Nat → Byte) (i : Nat) : (f i ++ f (i + 1) : BitVec 16).toNat = word16 f i :=
  toNat_append_bytes _ _

theorem ofNat_word16 (f : Nat → Byte) (i : Nat) : BitVec.ofNat 16 (word16 f i) = (f i ++ f (i + 1) : BitVec 16) :=
  ofNat_join_bytes _ _

/-- `FAULT` from the two status bytes (43_extract.md R172). -/
theorem faultFlag_word16 (f : Nat → Byte) (i : Nat) : faultFlag (word16 f i) = (f i != 0 || f (i + 1) != 0) := by
  have h : ∀ b : Byte, b.toNat = 0 ↔ b = 0 := fun b => BitVec.toNat_eq (y := 0) |>.symm
  have h1 := h (f i)
  have h2 := h (f (i + 1))
  unfold faultFlag word16
  by_cases a : f i = 0 <;> by_cases c : f (i + 1) = 0 <;> simp_all

/-- The sentinel is 260 half degrees; a table value comes back as the register's bits. -/
theorem temperature_register (rom : List (Byte × BitVec 16)) (k : Byte) :
    BitVec.ofInt 16 (decodeTemperature rom k).1 = (lut rom k).getD 260 ∧
      (decodeTemperature rom k).2 = (lut rom k).isNone := by
  unfold decodeTemperature
  cases lut rom k with
  | none => exact ⟨rfl, rfl⟩
  | some t => simp

/-- Every record register, from a buffer that holds a frame. -/
theorem recordOf_of_frame {s : State} {f : Nat → Byte} (h : HoldsFrame s f) (hp : s.pp ≠ 0) :
    recordOf s = .ok (recordOfFrame s.rom s.pp f) := by
  have ht : ∀ i < 24, temperatureAt s i = .ok (decodeTemperature s.rom (f i)) := fun i hi => by
    simp [temperatureAt, bufRead_of_some hi (h i hi)]
  simp only [recordOf, xSeq, xFcnt, xThrIn, xThrOut, throttle, xRpm, xVbus, xIbus, xIph, xTmos, xTcap, xStatus, xFault,
    sequenceMarker_of_cells (h 0 (by omega)) (h 1 (by omega)) (h 2 (by omega)) (h 3 (by omega)),
    be16_of_frame h _ (by omega : 4 + 1 < 24), be16_of_frame h _ (by omega : 6 + 1 < 24),
    be16_of_frame h _ (by omega : 8 + 1 < 24), be16_of_frame h _ (by omega : 10 + 1 < 24),
    be16_of_frame h _ (by omega : 12 + 1 < 24), be16_of_frame h _ (by omega : 14 + 1 < 24),
    be16_of_frame h _ (by omega : 16 + 1 < 24), be16_of_frame h _ (by omega : 20 + 1 < 24),
    ht 18 (by omega), ht 19 (by omega), ok_bind, pure_eq_ok, scaleRpm, if_neg hp]
  simp only [recordOfFrame, BitVec.ofNat_toNat, BitVec.setWidth_eq, ofNat_word16,
    (temperature_register s.rom (f 18)).1, (temperature_register s.rom (f 18)).2,
    (temperature_register s.rom (f 19)).1, (temperature_register s.rom (f 19)).2, faultFlag_word16]

/-- `EXTRACT` on a buffer that holds a frame. -/
theorem extract_of_frame {s : State} {f : Nat → Byte} (h : HoldsFrame s f) (hp : s.pp ≠ 0) :
    extract s = .ok { s with
      record := recordOfFrame s.rom s.pp f, events := s.events ++ missEvents s.rom f
      pulses := s.pulses ++ missEvents s.rom f } := by
  simp only [extract, recordOf_of_frame h hp, bufRead_of_some (by omega) (h 18 (by omega)),
    bufRead_of_some (by omega) (h 19 (by omega)), ok_bind, pure_eq_ok, raiseMisses_eq]
  rfl

/-- `ACCEPT` on a buffer that holds a frame. -/
theorem accept_of_frame {s : State} {f : Nat → Byte} (h : HoldsFrame s f) (hp : s.pp ≠ 0) :
    accept s = .ok (accepted f s) := by
  simp only [accept, extract_of_frame h hp, ok_bind, pure_eq_ok]
  rfl

/-- `COMPLETE` on a buffer that holds a frame: accepted where the sums agree, else rejected. -/
theorem complete_of_frame {s : State} {f : Nat → Byte} (h : HoldsFrame s f) (hp : s.pp ≠ 0) :
    complete s = .ok (completed f s) := by
  simp only [complete, cksum_of_frame h, receivedSum_of_frame h, ok_bind, completed, checksumsAgree, beq_iff_eq]
  split
  · exact accept_of_frame h hp
  · rfl

/-- The frame a buffer holds, once every cell below 24 holds a value. -/
theorem holdsFrame_of_values {s : State} (h : ∀ i < 24, (memRead s.buf i).isSome = true) :
    HoldsFrame s (fun i => (memRead s.buf i).getD 0) := by
  intro i hi
  obtain ⟨v, hv⟩ := Option.isSome_iff_exists.mp (h i hi)
  simp [hv]

/-! What `accepted`, `rejected` and `completed` leave, field by field. -/

@[simp] theorem accepted_buf (f : Nat → Byte) (s : State) : (accepted f s).buf = s.buf := rfl
@[simp] theorem accepted_n (f : Nat → Byte) (s : State) : (accepted f s).n = s.n := rfl
@[simp] theorem accepted_pp (f : Nat → Byte) (s : State) : (accepted f s).pp = s.pp := rfl
@[simp] theorem accepted_halt (f : Nat → Byte) (s : State) : (accepted f s).halt = s.halt := rfl
@[simp] theorem accepted_ckValid (f : Nat → Byte) (s : State) : (accepted f s).ckValid = s.ckValid := rfl
@[simp] theorem accepted_ckRx (f : Nat → Byte) (s : State) : (accepted f s).ckRx = s.ckRx := rfl
@[simp] theorem accepted_ckCalc (f : Nat → Byte) (s : State) : (accepted f s).ckCalc = s.ckCalc := rfl
@[simp] theorem accepted_pollResult (f : Nat → Byte) (s : State) : (accepted f s).pollResult = s.pollResult := rfl
@[simp] theorem accepted_results (f : Nat → Byte) (s : State) : (accepted f s).results = s.results := rfl
@[simp] theorem accepted_rom (f : Nat → Byte) (s : State) : (accepted f s).rom = s.rom := rfl
@[simp] theorem accepted_inits (f : Nat → Byte) (s : State) : (accepted f s).inits = s.inits := rfl
@[simp] theorem accepted_input (f : Nat → Byte) (s : State) : (accepted f s).input = s.input := rfl
@[simp] theorem accepted_pending (f : Nat → Byte) (s : State) : (accepted f s).pending = s.pending := rfl
@[simp] theorem rejected_buf (f : Nat → Byte) (s : State) : (rejected f s).buf = s.buf := rfl
@[simp] theorem rejected_n (f : Nat → Byte) (s : State) : (rejected f s).n = s.n := rfl
@[simp] theorem rejected_pp (f : Nat → Byte) (s : State) : (rejected f s).pp = s.pp := rfl
@[simp] theorem rejected_halt (f : Nat → Byte) (s : State) : (rejected f s).halt = s.halt := rfl
@[simp] theorem rejected_ready (f : Nat → Byte) (s : State) : (rejected f s).ready = s.ready := rfl
@[simp] theorem rejected_recValid (f : Nat → Byte) (s : State) : (rejected f s).recValid = s.recValid := rfl
@[simp] theorem rejected_record (f : Nat → Byte) (s : State) : (rejected f s).record = s.record := rfl
@[simp] theorem rejected_pollResult (f : Nat → Byte) (s : State) : (rejected f s).pollResult = s.pollResult := rfl
@[simp] theorem rejected_results (f : Nat → Byte) (s : State) : (rejected f s).results = s.results := rfl
@[simp] theorem rejected_rom (f : Nat → Byte) (s : State) : (rejected f s).rom = s.rom := rfl
@[simp] theorem rejected_inits (f : Nat → Byte) (s : State) : (rejected f s).inits = s.inits := rfl
@[simp] theorem rejected_input (f : Nat → Byte) (s : State) : (rejected f s).input = s.input := rfl
@[simp] theorem rejected_pending (f : Nat → Byte) (s : State) : (rejected f s).pending = s.pending := rfl
@[simp] theorem completed_buf (f : Nat → Byte) (s : State) : (completed f s).buf = s.buf := by
  unfold completed
  split <;> rfl
@[simp] theorem completed_n (f : Nat → Byte) (s : State) : (completed f s).n = s.n := by
  unfold completed
  split <;> rfl
@[simp] theorem completed_pp (f : Nat → Byte) (s : State) : (completed f s).pp = s.pp := by
  unfold completed
  split <;> rfl
@[simp] theorem completed_halt (f : Nat → Byte) (s : State) : (completed f s).halt = s.halt := by
  unfold completed
  split <;> rfl
@[simp] theorem completed_pollResult (f : Nat → Byte) (s : State) : (completed f s).pollResult = s.pollResult := by
  unfold completed
  split <;> rfl
@[simp] theorem completed_results (f : Nat → Byte) (s : State) : (completed f s).results = s.results := by
  unfold completed
  split <;> rfl
@[simp] theorem completed_rom (f : Nat → Byte) (s : State) : (completed f s).rom = s.rom := by
  unfold completed
  split <;> rfl
@[simp] theorem completed_inits (f : Nat → Byte) (s : State) : (completed f s).inits = s.inits := by
  unfold completed
  split <;> rfl
@[simp] theorem completed_input (f : Nat → Byte) (s : State) : (completed f s).input = s.input := by
  unfold completed
  split <;> rfl
@[simp] theorem completed_pending (f : Nat → Byte) (s : State) : (completed f s).pending = s.pending := by
  unfold completed
  split <;> rfl
@[simp] theorem live_completed (f : Nat → Byte) (s : State) : live (completed f s) = live s := by simp [live]

theorem completed_of_eq {f : Nat → Byte} (h : frameSum f = frameTrailer f) (s : State) : completed f s = accepted f s :=
  if_pos h

theorem completed_of_ne {f : Nat → Byte} (h : frameSum f ≠ frameTrailer f) (s : State) : completed f s = rejected f s :=
  if_neg h

end Sys2Proof.Machine
end

