-- ==== Sys2Proof/Laws/PerInstr.lean ====
section
/-! SUPPORT. A per-instruction fact about the syntax: the word of an operation is in the format of its row of
spec/opcode_table.json. -/

namespace Sys2Proof

/-- The "format" column of the table, row by row. -/
def Laws.EncodeFormat.formatOf : Instr → Format
  | .init _ | .take | .isready | .submit _ | .idle | .read _ => .hostCmd4
  | .sync0 | .skip _ | .sync1 | .desync _ | .final _ | .store _ _ => .submit13
  | .complete | .accept | .reject | .extract => .completion
  | .cksum | .xSeq | .xFcnt | .xThrIn | .xThrOut | .xRpm | .xVbus | .xIbus | .xIph | .xTmos | .xTcap | .xStatus
  | .xFault => .frame24
  | .decode _ => .lutKey8
  | .bytes _ | .frame _ | .framef _ | .pollread => .pseudo

/-- The word of the operation, where it has one, is in its row's format; an operation the model says has a word has one. -/
def Laws.EncodeFormat.Statement (i : Instr) : Prop :=
  (∀ p, encode i = some p → p.format = Laws.EncodeFormat.formatOf i) ∧ (i.hasWord = true → (encode i).isSome = true)

theorem Laws.EncodeFormat.init (pp : Int) : Laws.EncodeFormat.Statement (.init pp) := by
  by_cases h : 0 ≤ pp ∧ pp ≤ 255
  · have e : encode (.init pp) = some (hostWord 0x8 (BitVec.ofInt 8 pp) 0 0) := if_pos h
    exact ⟨fun p hp => by rw [e] at hp; exact Option.some.inj hp ▸ rfl, fun _ => by rw [e]; rfl⟩
  · have e : encode (.init pp) = none := if_neg h
    refine ⟨fun p hp => ?_, fun hw => ?_⟩
    · rw [e] at hp
      cases hp
    · exact absurd (by simpa [Instr.hasWord] using hw) h

theorem Laws.EncodeFormat.take : Laws.EncodeFormat.Statement .take :=
  ⟨fun _ h => Option.some.inj h ▸ rfl, fun _ => rfl⟩

theorem Laws.EncodeFormat.isready : Laws.EncodeFormat.Statement .isready :=
  ⟨fun _ h => Option.some.inj h ▸ rfl, fun _ => rfl⟩

theorem Laws.EncodeFormat.submit (b : Byte) : Laws.EncodeFormat.Statement (.submit b) :=
  ⟨fun _ h => Option.some.inj h ▸ rfl, fun _ => rfl⟩

theorem Laws.EncodeFormat.idle : Laws.EncodeFormat.Statement .idle :=
  ⟨fun _ h => Option.some.inj h ▸ rfl, fun _ => rfl⟩

theorem Laws.EncodeFormat.read (f : RegName) : Laws.EncodeFormat.Statement (.read f) :=
  ⟨fun _ h => Option.some.inj h ▸ rfl, fun _ => rfl⟩

theorem Laws.EncodeFormat.sync0 : Laws.EncodeFormat.Statement .sync0 :=
  ⟨fun _ h => Option.some.inj h ▸ rfl, fun _ => rfl⟩

theorem Laws.EncodeFormat.skip (b : Byte) : Laws.EncodeFormat.Statement (.skip b) :=
  ⟨fun _ h => Option.some.inj h ▸ rfl, fun _ => rfl⟩

theorem Laws.EncodeFormat.sync1 : Laws.EncodeFormat.Statement .sync1 :=
  ⟨fun _ h => Option.some.inj h ▸ rfl, fun _ => rfl⟩

theorem Laws.EncodeFormat.desync (b : Byte) : Laws.EncodeFormat.Statement (.desync b) :=
  ⟨fun _ h => Option.some.inj h ▸ rfl, fun _ => rfl⟩

theorem Laws.EncodeFormat.final (b : Byte) : Laws.EncodeFormat.Statement (.final b) :=
  ⟨fun _ h => Option.some.inj h ▸ rfl, fun _ => rfl⟩

theorem Laws.EncodeFormat.store (n : BitVec 5) (b : Byte) : Laws.EncodeFormat.Statement (.store n b) :=
  ⟨fun _ h => Option.some.inj h ▸ rfl, fun _ => rfl⟩

theorem Laws.EncodeFormat.complete : Laws.EncodeFormat.Statement .complete :=
  ⟨fun _ h => Option.some.inj h ▸ rfl, fun _ => rfl⟩

theorem Laws.EncodeFormat.cksum : Laws.EncodeFormat.Statement .cksum :=
  ⟨fun _ h => Option.some.inj h ▸ rfl, fun _ => rfl⟩

theorem Laws.EncodeFormat.accept : Laws.EncodeFormat.Statement .accept :=
  ⟨fun _ h => Option.some.inj h ▸ rfl, fun _ => rfl⟩

theorem Laws.EncodeFormat.reject : Laws.EncodeFormat.Statement .reject :=
  ⟨fun _ h => Option.some.inj h ▸ rfl, fun _ => rfl⟩

theorem Laws.EncodeFormat.extract : Laws.EncodeFormat.Statement .extract :=
  ⟨fun _ h => Option.some.inj h ▸ rfl, fun _ => rfl⟩

theorem Laws.EncodeFormat.xSeq : Laws.EncodeFormat.Statement .xSeq :=
  ⟨fun _ h => Option.some.inj h ▸ rfl, fun _ => rfl⟩

theorem Laws.EncodeFormat.xFcnt : Laws.EncodeFormat.Statement .xFcnt :=
  ⟨fun _ h => Option.some.inj h ▸ rfl, fun _ => rfl⟩

theorem Laws.EncodeFormat.xThrIn : Laws.EncodeFormat.Statement .xThrIn :=
  ⟨fun _ h => Option.some.inj h ▸ rfl, fun _ => rfl⟩

theorem Laws.EncodeFormat.xThrOut : Laws.EncodeFormat.Statement .xThrOut :=
  ⟨fun _ h => Option.some.inj h ▸ rfl, fun _ => rfl⟩

theorem Laws.EncodeFormat.xRpm : Laws.EncodeFormat.Statement .xRpm :=
  ⟨fun _ h => Option.some.inj h ▸ rfl, fun _ => rfl⟩

theorem Laws.EncodeFormat.xVbus : Laws.EncodeFormat.Statement .xVbus :=
  ⟨fun _ h => Option.some.inj h ▸ rfl, fun _ => rfl⟩

theorem Laws.EncodeFormat.xIbus : Laws.EncodeFormat.Statement .xIbus :=
  ⟨fun _ h => Option.some.inj h ▸ rfl, fun _ => rfl⟩

theorem Laws.EncodeFormat.xIph : Laws.EncodeFormat.Statement .xIph :=
  ⟨fun _ h => Option.some.inj h ▸ rfl, fun _ => rfl⟩

theorem Laws.EncodeFormat.xTmos : Laws.EncodeFormat.Statement .xTmos :=
  ⟨fun _ h => Option.some.inj h ▸ rfl, fun _ => rfl⟩

theorem Laws.EncodeFormat.xTcap : Laws.EncodeFormat.Statement .xTcap :=
  ⟨fun _ h => Option.some.inj h ▸ rfl, fun _ => rfl⟩

theorem Laws.EncodeFormat.xStatus : Laws.EncodeFormat.Statement .xStatus :=
  ⟨fun _ h => Option.some.inj h ▸ rfl, fun _ => rfl⟩

theorem Laws.EncodeFormat.xFault : Laws.EncodeFormat.Statement .xFault :=
  ⟨fun _ h => Option.some.inj h ▸ rfl, fun _ => rfl⟩

theorem Laws.EncodeFormat.decode (k : Byte) : Laws.EncodeFormat.Statement (.decode k) :=
  ⟨fun _ h => Option.some.inj h ▸ rfl, fun _ => rfl⟩

theorem Laws.EncodeFormat.bytes (bs : List Byte) : Laws.EncodeFormat.Statement (.bytes bs) :=
  ⟨fun _ h => Option.some.inj h ▸ rfl, fun _ => rfl⟩

theorem Laws.EncodeFormat.frame (p : List Byte) : Laws.EncodeFormat.Statement (.frame p) :=
  ⟨fun _ h => Option.some.inj h ▸ rfl, fun _ => rfl⟩

theorem Laws.EncodeFormat.framef (x : FrameFields) : Laws.EncodeFormat.Statement (.framef x) :=
  ⟨fun _ h => Option.some.inj h ▸ rfl, fun _ => rfl⟩

theorem Laws.EncodeFormat.pollread : Laws.EncodeFormat.Statement .pollread :=
  ⟨fun _ h => Option.some.inj h ▸ rfl, fun _ => rfl⟩

end Sys2Proof
end

