-- ==== Sys2Proof/Laws/Sync.lean ====
section
/-! SUPPORT. What `SUBMIT` can do: its six cases with their effects, once, for the proofs to cite. -/

namespace Sys2Proof.Machine

theorem sync0_eq (s : State) : sync0 s = .ok (setN 1 (putByte 0 0x9B s)) := rfl

theorem sync1_eq (s : State) : sync1 s = .ok (setN 2 (putByte 1 0x16 s)) := rfl

theorem store_eq {s : State} (h : s.n.toNat ≤ 22) (b : Byte) :
    store b s = .ok (setN (s.n + 1) (putByte s.n.toNat b s)) := by
  simp [store, bufWrite_inside (by omega : s.n.toNat < 24)]

theorem final_eq (s : State) (b : Byte) : final b s = complete (setN 0 (putByte 23 b s)) := by
  simp only [final, bufWrite_inside (by omega : 23 < 24), ok_bind]

/-- The five-bit offset that a natural number below 32 names. -/
theorem offset_eq_iff (n : BitVec 5) (k : Nat) (hk : k < 32) : n = BitVec.ofNat 5 k ↔ n.toNat = k := by
  constructor
  · rintro rfl
    simp [Nat.mod_eq_of_lt hk]
  · intro h
    apply BitVec.eq_of_toNat_eq
    simp [h, Nat.mod_eq_of_lt hk]

/-- Everything the dispatch of `SUBMIT` can answer with a next state. -/
theorem submitCase_eq_ok {s t : State} {b : Byte} (h : submitCase b s = .ok t) :
    (s.n = 0 ∧ b = 0x9B ∧ t = setN 1 (putByte 0 0x9B s)) ∨
    (s.n = 0 ∧ b ≠ 0x9B ∧ t = s) ∨
    (s.n = 1 ∧ b = 0x16 ∧ t = setN 2 (putByte 1 0x16 s)) ∨
    (s.n = 1 ∧ b ≠ 0x16 ∧ t = setN 0 s) ∨
    (2 ≤ s.n.toNat ∧ s.n.toNat ≤ 22 ∧ t = setN (s.n + 1) (putByte s.n.toNat b s)) ∨
    (s.n = 23 ∧ complete (setN 0 (putByte 23 b s)) = .ok t) := by
  unfold submitCase at h
  split at h
  · rename_i c
    exact .inl ⟨c.1, c.2, (Except.ok.inj h).symm⟩
  · split at h
    · rename_i c0 c1
      exact .inr (.inl ⟨c1, fun e => c0 ⟨c1, e⟩, (Except.ok.inj h).symm⟩)
    · split at h
      · rename_i c
        exact .inr (.inr (.inl ⟨c.1, c.2, (Except.ok.inj h).symm⟩))
      · split at h
        · rename_i c2 c3
          exact .inr (.inr (.inr (.inl ⟨c3, fun e => c2 ⟨c3, e⟩, (Except.ok.inj h).symm⟩)))
        · split at h
          · rename_i c
            rw [store_eq c.2] at h
            exact .inr (.inr (.inr (.inr (.inl ⟨c.1, c.2, (Except.ok.inj h).symm⟩))))
          · split at h
            · rename_i c
              exact .inr (.inr (.inr (.inr (.inr ⟨c, h⟩))))
            · cases h

theorem submitCase_sync0 {s : State} (h : s.n = 0) : submitCase 0x9B s = .ok (setN 1 (putByte 0 0x9B s)) := by
  simp [submitCase, h, sync0_eq]

theorem submitCase_skip {s : State} {b : Byte} (h : s.n = 0) (hb : b ≠ 0x9B) : submitCase b s = .ok s := by
  simp only [submitCase, h, hb, true_and, if_false, if_true, skip, pure_eq_ok]

theorem submitCase_sync1 {s : State} (h : s.n = 1) : submitCase 0x16 s = .ok (setN 2 (putByte 1 0x16 s)) := by
  simp [submitCase, h, sync1_eq]

theorem submitCase_desync {s : State} {b : Byte} (h : s.n = 1) (hb : b ≠ 0x16) :
    submitCase b s = .ok (setN 0 s) := by
  have n0 : (1 : BitVec 5) ≠ 0 := by decide
  simp only [submitCase, h, hb, n0, true_and, false_and, if_false, if_true, desync, pure_eq_ok]

theorem submitCase_store {s : State} (b : Byte) (h1 : 2 ≤ s.n.toNat) (h2 : s.n.toNat ≤ 22) :
    submitCase b s = .ok (setN (s.n + 1) (putByte s.n.toNat b s)) := by
  have n0 : s.n ≠ 0 := fun e => by rw [e] at h1; simp at h1
  have n1 : s.n ≠ 1 := fun e => by rw [e] at h1; simp at h1
  simp only [submitCase, n0, n1, false_and, if_false, h1, h2, and_self, if_true, store_eq h2]

theorem submitCase_final {s : State} (b : Byte) (h : s.n = 23) :
    submitCase b s = complete (setN 0 (putByte 23 b s)) := by
  simp [submitCase, h, final_eq]

theorem submitCase_unreachable {s : State} (b : Byte) (h : 24 ≤ s.n.toNat) :
    submitCase b s = .error (.refuse .unreachableOffset) := by
  have n0 : s.n ≠ 0 := fun e => by rw [e] at h; simp at h
  have n1 : s.n ≠ 1 := fun e => by rw [e] at h; simp at h
  have n23 : s.n ≠ 23 := fun e => by rw [e] at h; simp at h
  have ns : ¬ (2 ≤ s.n.toNat ∧ s.n.toNat ≤ 22) := by omega
  simp only [submitCase, n0, n1, n23, ns, false_and, if_false]

/-- The buffer after the last byte of a frame. -/
theorem holdsFrame_putByte23 {s : State} {f : Nat → Byte} (b : Byte) (h : ∀ i < 23, memRead s.buf i = some (f i)) :
    HoldsFrame (setN 0 (putByte 23 b s)) (Function.update f 23 b) := by
  intro i hi
  simp only [setN_buf, putByte_buf, memRead_memWrite]
  by_cases e : i = 23
  · simp [e]
  · rw [if_neg e, Function.update_of_ne e]
    exact h i (by omega)

/-- What completion can answer, without knowing the frame: the record and the flags of an accepted frame, or the latched
pair of a rejected one. -/
theorem complete_eq_ok {s t : State} (h : complete s = .ok t) :
    ∃ sum rx, cksum s = .ok sum ∧ receivedSum s = .ok rx ∧
      ((sum = rx ∧ ∃ r j k, recordOf s = .ok r ∧ t = emit .recordReady (setReady (raiseMisses r j k (latchRecord r s)))) ∨
       (sum ≠ rx ∧ t = reject rx sum s)) := by
  simp only [complete, bind_eq_ok] at h
  obtain ⟨sum, h1, rx, h2, h3⟩ := h
  refine ⟨sum, rx, h1, h2, ?_⟩
  simp only [checksumsAgree, beq_iff_eq] at h3
  split at h3
  · rename_i e
    simp only [accept, extract, bind_eq_ok, pure_eq_ok, Except.ok.injEq] at h3
    obtain ⟨u, ⟨r, hr, j, _, k, _, rfl⟩, rfl⟩ := h3
    exact .inl ⟨e, r, j, k, hr, rfl⟩
  · rename_i e
    exact .inr ⟨e, (Except.ok.inj h3).symm⟩

/-- A sequence of `SUBMIT`s cut in two. -/
theorem submitAll_append (a b : List Byte) (s : State) :
    submitAll (a ++ b) s = submitAll a s >>= submitAll b := by
  induction a generalizing s with
  | nil => rfl
  | cons x a ih =>
    simp only [List.cons_append, submitAll]
    cases submit x (quiet s) with
    | ok t => exact ih t
    | error e => rfl

end Sys2Proof.Machine
end

