-- ==== Sys2Proof/Laws/Step.lean ====
section
/-! SUPPORT. What any operation and any step can do: the primitive updates every operation but `INIT` is made of, as one
principle a proof about all operations applies, and the three shapes of a step. -/

namespace Sys2Proof.Machine

/-- A property that every primitive update keeps, `setPending` apart, which `POLLREAD` alone makes. -/
structure Kept (R : State → Prop) : Prop where
  fresh : ∀ s, R s → R (fresh s)
  quiet : ∀ s, R s → R (quiet s)
  give : ∀ v s, R s → R (give v s)
  emit : ∀ e s, R s → R (emit e s)
  observeReady : ∀ s, R s → R (observeReady s)
  setN : ∀ n s, R s → R (setN n s)
  putByte : ∀ i v s, i < 24 → R s → R (putByte i v s)
  latchRecord : ∀ r s, R s → R (latchRecord r s)
  setReady : ∀ s, R s → R (setReady s)
  latchChecksums : ∀ rx sum s, R s → R (latchChecksums rx sum s)

theorem Kept.raiseError_tempMiss {R : State → Prop} (k : Kept R) (x : Sensor) (raw : Byte) (s : State) (h : R s) :
    R (raiseError (.tempMiss x raw) s) := k.emit _ s h

theorem Kept.reject {R : State → Prop} (k : Kept R) (rx sum : Nat) (s : State) (h : R s) : R (reject rx sum s) :=
  k.emit _ _ (k.latchChecksums _ _ s h)

theorem Kept.raiseMisses {R : State → Prop} (k : Kept R) (r : Record) (j c : Byte) (s : State) (h : R s) :
    R (raiseMisses r j c s) := by
  unfold Machine.raiseMisses
  split
  · split
    · exact k.emit _ _ (k.emit _ _ h)
    · exact k.emit _ _ h
  · split
    · exact k.emit _ _ h
    · exact h

theorem Kept.extract {R : State → Prop} (k : Kept R) {s t : State} (e : extract s = .ok t) (h : R s) : R t := by
  simp only [Machine.extract, bind_eq_ok, pure_eq_ok, Except.ok.injEq] at e
  obtain ⟨r, _, j, _, c, _, rfl⟩ := e
  exact k.raiseMisses r j c _ (k.latchRecord r s h)

theorem Kept.accept {R : State → Prop} (k : Kept R) {s t : State} (e : accept s = .ok t) (h : R s) : R t := by
  simp only [Machine.accept, bind_eq_ok, pure_eq_ok, Except.ok.injEq] at e
  obtain ⟨u, hu, rfl⟩ := e
  exact k.emit _ _ (k.setReady u (k.extract hu h))

theorem Kept.complete {R : State → Prop} (k : Kept R) {s t : State} (e : complete s = .ok t) (h : R s) : R t := by
  simp only [Machine.complete, bind_eq_ok] at e
  obtain ⟨sum, _, rx, _, e⟩ := e
  split at e
  · exact k.accept e h
  · cases e
    exact k.reject rx sum s h

theorem Kept.submitCase {R : State → Prop} (k : Kept R) {s t : State} {b : Byte} (e : submitCase b s = .ok t) (h : R s) :
    R t := by
  rcases submitCase_eq_ok e with ⟨-, -, rfl⟩ | ⟨-, -, rfl⟩ | ⟨-, -, rfl⟩ | ⟨-, -, rfl⟩ | ⟨-, h2, rfl⟩ | ⟨-, e⟩
  · exact k.setN _ _ (k.putByte _ _ _ (by omega) h)
  · exact h
  · exact k.setN _ _ (k.putByte _ _ _ (by omega) h)
  · exact k.setN _ _ h
  · exact k.setN _ _ (k.putByte _ _ _ (by omega) h)
  · exact k.complete e (k.setN _ _ (k.putByte _ _ _ (by omega) h))

theorem Kept.submit {R : State → Prop} (k : Kept R) {s t : State} {b : Byte} (e : submit b s = .ok t) (h : R s) : R t :=
  k.submitCase (whenLive_eq_ok.mp e).2 h

theorem Kept.submitAll {R : State → Prop} (k : Kept R) {bs : List Byte} {s t : State} (e : submitAll bs s = .ok t)
    (h : R s) : R t := by
  induction bs generalizing s with
  | nil =>
    cases e
    exact h
  | cons b bs ih =>
    simp only [Machine.submitAll, bind_eq_ok] at e
    obtain ⟨u, hu, e⟩ := e
    exact ih e (k.submit hu (k.quiet s h))

/-- What a `READ` can answer: the register's value, the state otherwise as it was. -/
theorem readReg_eq_ok {f : RegName} {s t : State} (e : readReg f s = .ok t) : t = give (regValue s f) s := by
  unfold readReg at e
  split at e
  · rename_i h
    rw [h.1]
    exact (Except.ok.inj e).symm
  · have e := (whenLive_eq_ok.mp e).2
    unfold readLive at e
    split at e
    · cases e
    · split at e
      · cases e
      · exact (Except.ok.inj e).symm

/-- What a chunk can answer: there is a decoder, and the `SUBMIT`s have answered one after the other. -/
theorem execChunk_eq_next {bs : List Byte} {s t : State} :
    execChunk bs s = .next t ↔ live s = true ∧ submitAll bs (Machine.fresh s) = .ok t := by
  rw [execChunk, answer_eq_next, whenLive_eq_ok]

/-- What `POLLREAD` can answer: the poll, with the `READ`s still to make where it returned 1. -/
theorem pollRead_eq_ok {s t : State} : pollRead s = .ok t ↔
    live s = true ∧ t = (if s.ready then setPending (s.pending ++ recordRegs) (give (.bit s.ready) (observeReady s))
      else give (.bit s.ready) (observeReady s)) := by
  simp only [pollRead, isReady, bind_eq_ok, whenLive_eq_ok, pure_eq_ok, Except.ok.injEq]
  constructor
  · rintro ⟨_, ⟨hl, rfl⟩, rfl⟩
    exact ⟨hl, rfl⟩
  · rintro ⟨hl, rfl⟩
    exact ⟨_, ⟨hl, rfl⟩, rfl⟩

/-- What a pure function can answer: its value, the state otherwise as it was. -/
theorem answerFunction_eq_next {f : State → Res Value} {s t : State} (e : answerFunction f s = .next t) :
    live s = true ∧ ∃ v, f s = .ok v ∧ t = give v (Machine.fresh s) := by
  simp only [answerFunction, answer_eq_next, whenLive_eq_ok, bind_eq_ok, pure_eq_ok, Except.ok.injEq] at e
  obtain ⟨hl, v, hv, rfl⟩ := e
  exact ⟨hl, v, hv, rfl⟩

theorem Kept.answerFunction {R : State → Prop} (k : Kept R) {f : State → Res Value} {s t : State}
    (e : answerFunction f s = .next t) (h : R s) : R t := by
  obtain ⟨_, v, _, rfl⟩ := answerFunction_eq_next e
  exact k.give _ _ (k.fresh s h)

/-- Every operation but `INIT` keeps what the primitive updates keep; for `POLLREAD` the property must not depend on the
`READ`s still to make. -/
theorem Kept.exec {R : State → Prop} (k : Kept R) {i : Instr} {s t : State} (hi : isInit i = false)
    (hp : i = .pollread → ∀ fs s, R s → R (setPending fs s)) (e : exec i s = .next t) (h : R s) : R t := by
  have hf := k.fresh s h
  cases i with
  | init pp => cases hi
  | take =>
    simp only [Machine.exec, execTake, answer_eq_next, take, whenLive_eq_ok] at e
    cases e.2
    exact k.give _ _ (k.observeReady _ hf)
  | isready =>
    simp only [Machine.exec, execIsready, answer_eq_next, isReady, whenLive_eq_ok] at e
    cases e.2
    exact k.give _ _ (k.observeReady _ hf)
  | submit b => exact k.submit (answer_eq_next.mp e) hf
  | idle =>
    simp only [Machine.exec, execIdle, answer_eq_next, idle, whenLive_eq_ok] at e
    cases e.2
    exact hf
  | read f =>
    rw [readReg_eq_ok (answer_eq_next.mp e)]
    exact k.give _ _ hf
  | sync0 =>
    simp only [Machine.exec, execSync0, answer_eq_next, whenSelected_eq_ok, sync0_eq] at e
    cases e.2.2
    exact k.setN _ _ (k.putByte _ _ _ (by omega) hf)
  | skip b =>
    simp only [Machine.exec, execSkip, answer_eq_next, whenSelected_eq_ok] at e
    cases e.2.2
    exact hf
  | sync1 =>
    simp only [Machine.exec, execSync1, answer_eq_next, whenSelected_eq_ok, sync1_eq] at e
    cases e.2.2
    exact k.setN _ _ (k.putByte _ _ _ (by omega) hf)
  | desync b =>
    simp only [Machine.exec, execDesync, answer_eq_next, whenSelected_eq_ok] at e
    cases e.2.2
    exact k.setN _ _ hf
  | final b =>
    simp only [Machine.exec, execFinal, answer_eq_next, whenSelected_eq_ok, final_eq] at e
    exact k.complete e.2.2 (k.setN _ _ (k.putByte _ _ _ (by omega) hf))
  | store n b =>
    simp only [Machine.exec, execStore, answer_eq_next, whenSelected_eq_ok, Bool.and_eq_true, beq_iff_eq,
      decide_eq_true_eq] at e
    obtain ⟨_, ⟨⟨rfl, _⟩, h2⟩, e⟩ := e
    rw [store_eq (s := Machine.fresh s) h2] at e
    cases e
    exact k.setN _ _ (k.putByte _ _ _ (Nat.lt_of_le_of_lt h2 (by omega)) hf)
  | complete => exact k.complete (whenLive_eq_ok.mp (answer_eq_next.mp e)).2 hf
  | accept =>
    simp only [Machine.exec, execAccept, answer_eq_next, whenLive_eq_ok, bind_eq_ok] at e
    obtain ⟨_, sum, _, rx, _, e⟩ := e
    split at e
    · exact k.accept e hf
    · cases e
  | reject =>
    simp only [Machine.exec, execReject, answer_eq_next, whenLive_eq_ok, bind_eq_ok] at e
    obtain ⟨_, sum, _, rx, _, e⟩ := e
    split at e
    · cases e
    · cases e
      exact k.reject _ _ _ hf
  | extract => exact k.extract (whenLive_eq_ok.mp (answer_eq_next.mp e)).2 hf
  | decode c =>
    simp only [Machine.exec, execDecode] at e
    exact k.answerFunction e h
  | bytes bs => exact k.submitAll (execChunk_eq_next.mp e).2 hf
  | frame p => exact k.submitAll (execChunk_eq_next.mp e).2 hf
  | framef x => exact k.submitAll (execChunk_eq_next.mp e).2 hf
  | pollread =>
    rw [(pollRead_eq_ok.mp (answer_eq_next.mp e)).2]
    have hu := k.give (.bit (Machine.fresh s).ready) _ (k.observeReady _ hf)
    split
    · exact hp rfl _ _ hu
    · exact hu
  | cksum =>
    simp only [Machine.exec, execCksum] at e
    exact k.answerFunction e h
  | xSeq =>
    simp only [Machine.exec, execXSeq] at e
    exact k.answerFunction e h
  | xFcnt =>
    simp only [Machine.exec, execXFcnt] at e
    exact k.answerFunction e h
  | xThrIn =>
    simp only [Machine.exec, execXThrIn] at e
    exact k.answerFunction e h
  | xThrOut =>
    simp only [Machine.exec, execXThrOut] at e
    exact k.answerFunction e h
  | xRpm =>
    simp only [Machine.exec, execXRpm] at e
    exact k.answerFunction e h
  | xVbus =>
    simp only [Machine.exec, execXVbus] at e
    exact k.answerFunction e h
  | xIbus =>
    simp only [Machine.exec, execXIbus] at e
    exact k.answerFunction e h
  | xIph =>
    simp only [Machine.exec, execXIph] at e
    exact k.answerFunction e h
  | xTmos =>
    simp only [Machine.exec, execXTmos] at e
    exact k.answerFunction e h
  | xTcap =>
    simp only [Machine.exec, execXTcap] at e
    exact k.answerFunction e h
  | xStatus =>
    simp only [Machine.exec, execXStatus] at e
    exact k.answerFunction e h
  | xFault =>
    simp only [Machine.exec, execXFault] at e
    exact k.answerFunction e h

/-- Every operation but `POLLREAD` leaves the `READ`s still to make. -/
theorem exec_pending {i : Instr} {s t : State} (hi : i ≠ .pollread) (e : exec i s = .next t) : t.pending = s.pending := by
  have k : Kept (fun u => u.pending = s.pending) := by constructor <;> intros <;> assumption
  cases h : isInit i with
  | false => exact k.exec h (fun h => absurd h hi) e rfl
  | true =>
    cases i <;> try cases h
    simp only [exec, execInit, initialise, raiseError_malformedConfiguration] at e
    split at e <;> cases e <;> rfl

/-- `INIT` in one equation: the decoder constructed, or the instance halted with the error returned. -/
theorem exec_init (pp : Int) (s : State) :
    exec (.init pp) s = .next (if pp ≤ 0 ∨ 255 < pp then give (.malformedConfiguration pp) (forget 0 true (fresh s))
      else give .ok (forget (BitVec.ofInt 8 pp) false (fresh s))) := by
  simp only [exec, execInit, initialise, answer_ok, raiseError_malformedConfiguration]

/-- A step that answers runs the operation the fetch found in the state the fetch left, or passes strobes over on an
instance that does not exist. -/
theorem step_eq_next {s t : State} (e : step s = .next t) :
    (∃ i u, fetch s = .run i u ∧ exec i u = .next t) ∨ (∃ u, fetch s = .ignore u ∧ t = fresh u) := by
  unfold step at e
  split at e
  · exact .inl ⟨_, _, ‹_›, e⟩
  · cases e
    exact .inr ⟨_, ‹_›, rfl⟩
  · exact absurd (answer_eq_next.mp e) (by simp)

/-- A step is the operation the fetch found, in the state the fetch left. -/
theorem step_of_run {s u : State} {i : Instr} (h : fetch s = .run i u) : step s = exec i u := by
  simp only [step, h]

theorem step_of_ignore {s u : State} (h : fetch s = .ignore u) : step s = .next (fresh u) := by
  simp only [step, h]

theorem step_of_stop {s : State} {x : Stop} (h : fetch s = .stop x) : step s = answer (.error x) := by
  simp only [step, h]

/-- What the fetch of a word leaves: the input that follows. -/
theorem fetchWord_frame {s : State} {p : Packet} {rest : List Stimulus} :
    (∀ i u, fetchWord s p rest = .run i u → ∃ left, u = setInput left s) ∧
    (∀ u, fetchWord s p rest = .ignore u → ∃ left, u = setInput left s) := by
  unfold fetchWord
  split
  · exact ⟨fun _ _ h => (nomatch h), fun _ h => (nomatch h)⟩
  · split
    · exact ⟨fun _ _ h => (nomatch h), fun _ h => (nomatch h)⟩
    · simp only
      split
      · exact ⟨fun _ _ h => (nomatch h), fun _ h => ⟨_, (Fetched.ignore.inj h).symm⟩⟩
      · exact ⟨fun _ _ h => ⟨_, (Fetched.run.inj h).2.symm⟩, fun _ h => (nomatch h)⟩

/-- What the fetch of a pending `READ` leaves: the input and the `READ`s that follow. -/
theorem fetchPending_frame {s : State} {rest : List Stimulus} :
    (∀ i u, fetchPending s rest = .run i u → ∃ fs left, u = setPending fs (setInput left s)) ∧
    (∀ u, fetchPending s rest = .ignore u → ∃ fs left, u = setPending fs (setInput left s)) := by
  unfold fetchPending
  split
  · exact ⟨fun _ _ h => ⟨_, _, (Fetched.run.inj h).2.symm⟩, fun _ h => (nomatch h)⟩
  · exact ⟨fun i u h => (fetchWord_frame.1 i u h).elim fun left e => ⟨s.pending, left, e⟩,
      fun u h => (fetchWord_frame.2 u h).elim fun left e => ⟨s.pending, left, e⟩⟩

/-- Writing back what is pending changes nothing. -/
theorem setPending_self (rest : List Stimulus) (s : State) :
    setInput rest s = setPending s.pending (setInput rest s) := rfl

/-- What any fetch leaves: the input that follows and the `READ`s still to make, and nothing else changed. -/
theorem fetch_frame {s : State} :
    (∀ i u, fetch s = .run i u → ∃ fs left, u = setPending fs (setInput left s)) ∧
    (∀ u, fetch s = .ignore u → ∃ fs left, u = setPending fs (setInput left s)) := by
  unfold fetch
  split
  · exact fetchPending_frame
  · exact fetchPending_frame
  · exact ⟨fun i u h => (fetchWord_frame.1 i u h).elim fun left e => ⟨s.pending, left, e⟩,
      fun u h => (fetchWord_frame.2 u h).elim fun left e => ⟨s.pending, left, e⟩⟩
  · split
    · exact ⟨fun _ u h => ⟨s.pending, _, (Fetched.run.inj h).2.symm.trans (setPending_self _ _)⟩, fun _ h => (nomatch h)⟩
    · exact ⟨fun _ _ h => (nomatch h), fun _ h => (nomatch h)⟩

end Sys2Proof.Machine
end

