-- ==== Sys2Proof/Laws/Stream.lean ====
section
/-! SUPPORT. Streams of bytes: what a run of `STORE`s and a whole frame submitted from `N = 0` leave, and what the frame
builder builds. -/

namespace Sys2Proof.Machine

/-- What bytes written at rising offsets read as. -/
theorem memRead_writeBytes (bs : List Byte) (a i : Nat) (m : List Host.Cell) :
    memRead (writeBytes a bs m) i = if a ≤ i ∧ i < a + bs.length then bs[i - a]? else memRead m i := by
  induction bs generalizing a m with
  | nil => simp only [writeBytes]; rw [if_neg (by simp)]
  | cons b bs ih =>
    simp only [writeBytes, ih, memRead_memWrite, List.length_cons]
    by_cases e : i = a
    · subst e
      rw [if_neg (by omega), if_pos rfl, if_pos (by omega)]
      simp
    · rw [if_neg e]
      by_cases c : a ≤ i ∧ i < a + (bs.length + 1)
      · rw [if_pos (by omega), if_pos c]
        have : i - a = (i - (a+1)) + 1 := by omega
        rw [this]; simp
      · rw [if_neg (by omega), if_neg c]

/-- A state with another buffer, as the streams' lemmas write it. -/
def setBuf (m : List Host.Cell) (s : State) : State := { s with buf := m }

/-- Bytes that all stay inside the frame are stored one after the other. -/
theorem submitAll_store (bs : List Byte) (s : State) (hl : live s = true) (hq : s.pulses = []) (h1 : 2 ≤ s.n.toNat)
    (h2 : s.n.toNat + bs.length ≤ 23) : submitAll bs s = .ok (setN (BitVec.ofNat 5 (s.n.toNat + bs.length)) (setBuf (writeBytes s.n.toNat bs s.buf) s)) := by
  induction bs generalizing s with
  | nil => simp [submitAll, writeBytes, setN, setBuf]
  | cons b bs ih =>
    simp only [List.length_cons] at h2
    have e : (s.n + 1).toNat = s.n.toNat + 1 := by simp [BitVec.toNat_add]; omega
    simp only [submitAll, quiet_of_pulses hq, submit, whenLive_of_live hl, submitCase_store b h1 (by omega : s.n.toNat ≤ 22), ok_bind]
    rw [ih _ (by simpa using hl) (by simpa using hq) (by simp only [setN_n, e]; omega) (by simp only [setN_n, e]; omega)]
    simp only [e, setBuf, setN, putByte, writeBytes, List.length_cons, Nat.add_assoc, Nat.add_comm 1]

theorem writeBytes_snoc (q : List Byte) (a : Nat) (z : Byte) (m : List Host.Cell) :
    writeBytes a (q ++ [z]) m = memWrite (writeBytes a q m) (a + q.length) z := by
  induction q generalizing a m with
  | nil => rfl
  | cons x q ih => simp only [List.cons_append, writeBytes, ih, List.length_cons, Nat.add_assoc, Nat.add_comm 1]

theorem submitAll_one (b : Byte) (s : State) : submitAll [b] s = submit b (quiet s) := by
  simp only [submitAll]
  rcases submit b (quiet s) with e | t <;> rfl

/-- What pulsed before the first byte does not matter. -/
theorem submitAll_quiet (b : Byte) (bs : List Byte) (s : State) : submitAll (b :: bs) (quiet s) = submitAll (b :: bs) s :=
  rfl

/-- Any 24 bytes behind a header, submitted from `N = 0`, end in their completion. -/
theorem submitAll_frame (p : List Byte) (z : Byte) (s : State) (hl : live s = true) (hq : s.pulses = []) (hn : s.n = 0)
    (hp : s.pp ≠ 0) (hb : p.length = 21) : submitAll (0x9B :: 0x16 :: (p ++ [z])) s =
      .ok (completed (frameAt (0x9B :: 0x16 :: (p ++ [z]))) (setBuf (writeBytes 0 (0x9B :: 0x16 :: (p ++ [z])) s.buf) s)) := by
  have e0 : submit 0x9B s = .ok (setN 1 (putByte 0 0x9B s)) := by rw [submit, whenLive_of_live hl, submitCase_sync0 hn]
  obtain ⟨u, hu⟩ : ∃ u, u = setN 2 (putByte 1 0x16 (setN 1 (putByte 0 0x9B s))) := ⟨_, rfl⟩
  have e1 : submit 0x16 (setN 1 (putByte 0 0x9B s)) = .ok u := by
    rw [submit, whenLive_of_live (by simpa using hl), submitCase_sync1 rfl, hu]
  have huq : u.pulses = [] := by rw [hu]; exact hq
  have hul : live u = true := by rw [hu]; exact hl
  have hun : u.n.toNat = 2 := by rw [hu]; rfl
  have hul' : live (setN (BitVec.ofNat 5 (u.n.toNat + p.length)) (setBuf (writeBytes u.n.toNat p u.buf) u)) = true := hul
  have hq1 : (setN 1 (putByte 0 0x9B s)).pulses = [] := hq
  have hq2 : (setN (BitVec.ofNat 5 (u.n.toNat + p.length)) (setBuf (writeBytes u.n.toNat p u.buf) u)).pulses = [] := huq
  have e2 := submitAll_store p u hul huq (by omega) (by omega)
  rw [submitAll, quiet_of_pulses hq, e0, ok_bind, submitAll, quiet_of_pulses hq1, e1, ok_bind, submitAll_append, e2,
    ok_bind, submitAll_one, quiet_of_pulses hq2, submit, whenLive_of_live hul', submitCase_final z (by rw [setN_n, hun, hb]; rfl)]
  have hw : setN 0 (putByte 23 z (setN (BitVec.ofNat 5 (u.n.toNat + p.length)) (setBuf (writeBytes u.n.toNat p u.buf) u))) =
      setBuf (writeBytes 0 (0x9B :: 0x16 :: (p ++ [z])) s.buf) s := by
    simp only [writeBytes, writeBytes_snoc, hb, hun, Nat.reduceAdd]
    rw [hu]
    simp only [setN, putByte, setBuf, hn]
  rw [hw]
  refine complete_of_frame ?_ hp
  intro i hi
  have hlen : (0x9B :: 0x16 :: (p ++ [z]) : List Byte).length = 24 := by simp [hb]
  simp only [setBuf, memRead_writeBytes, hlen]
  rw [if_pos (by omega), Nat.sub_zero, List.getElem?_eq_getElem (by omega), frameAt, List.getD_eq_getElem _ _ (by omega)]

/-- The sum of a list of bytes, by position. -/
theorem byteSum_eq (bs : List Byte) : byteSum bs = ((List.range bs.length).map fun i => (frameAt bs i).toNat).sum := by
  induction bs with
  | nil => rfl
  | cons b bs ih =>
    rw [byteSum, ih, List.length_cons, List.range_succ_eq_map]
    simp [frameAt, Function.comp_def]

/-- The frame builder's trailer is the sum of its frame. -/
theorem frameSum_frameBytes (p : List Byte) (h : p.length = 20) :
    frameSum (frameAt (frameBytes p)) = frameTrailer (frameAt (frameBytes p)) := by
  have hl : (summedPart p).length = 22 := by simp [summedPart, h]
  have e1 : frameSum (frameAt (frameBytes p)) = byteSum (summedPart p) := by
    rw [byteSum_eq, hl, frameSum]
    congr 1
    apply List.map_congr_left
    intro i hi
    simp only [frameAt, frameBytes]
    rw [List.getD_append _ _ _ _ (by rw [hl]; simpa using hi)]
  have hb := byteSum_le (summedPart p)
  rw [e1, frameTrailer]
  have a : ∀ i, frameAt (frameBytes p) (22 + i) = (trailer (summedPart p)).getD i 0 := by
    intro i; simp only [frameAt, frameBytes]
    rw [List.getD_append_right _ _ _ _ (by rw [hl]; omega), hl, Nat.add_sub_cancel_left]
  have a0 := a 0
  have a1 := a 1
  simp only [Nat.add_zero, Nat.reduceAdd] at a0 a1
  rw [a0, a1]
  simp only [trailer, bytesLE, List.getD_cons_zero, List.getD_cons_succ, BitVec.toNat_ofNat]
  rw [hl] at hb
  omega

theorem toNat_hiByte_loByte (v : BitVec 16) : (hiByte v).toNat * 256 + (loByte v).toNat = v.toNat := by
  rw [← toNat_append_bytes, hiByte_append_loByte]

/-- The fields of the frame `FRAMEF` builds, by offset. -/
theorem fields_frameBytes (x : FrameFields) (f : Nat → Byte) (hf : f = frameAt (frameBytes (payloadOf x))) :
    f 0 = 0x9B ∧ f 1 = 0x16 ∧ f 2 = x.a ∧ f 3 = x.b ∧ (f 4 ++ f 5 : BitVec 16) = x.c ∧ (f 6 ++ f 7 : BitVec 16) = x.d ∧
    (f 8 ++ f 9 : BitVec 16) = x.e ∧ (f 10 ++ f 11 : BitVec 16) = x.f ∧
    (f 12 ++ f 13 : BitVec 16) = x.g ∧ (f 14 ++ f 15 : BitVec 16) = x.h ∧ (f 16 ++ f 17 : BitVec 16) = x.i ∧
    f 18 = x.j ∧ f 19 = x.k ∧ (f 20 ++ f 21 : BitVec 16) = x.l := by
  subst hf
  simp only [frameAt, frameBytes, summedPart]
  generalize trailer _ = q
  simp only [payloadOf, List.cons_append, List.getD_cons_zero, List.getD_cons_succ, hiByte_append_loByte, and_self]

end Sys2Proof.Machine
end

