-- ==== Sys2Proof/Tests/Slice0.lean ====
section
/-! SUPPORT. The model's own tests: ill-formed terms refused, words written out from spec/30_encoding.md, the vectors of
spec/95_test_vectors.md one step at a time, and for every obligation with hypotheses a state and operands that meet them. -/

namespace Sys2Proof.Tests

open Sys2Proof Sys2Proof.Machine

/-! ## Helpers -/

/-- TEST_PAIRS of 95_test_vectors.md section 2, in half degrees. -/
def testPairs : List (Byte × BitVec 16) :=
  [(0x10, 50), (0x11, 52), (0x12, 53), (0x40, 120), (0x11, 54), (0x05, -10), (0x82, 260)]

/-- TEST_PAIRS in degrees, as the vectors give it. -/
def testDegrees : List (Byte × Rat) :=
  [(0x10, 25), (0x11, 26), (0x12, 53 / 2), (0x40, 60), (0x11, 27), (0x05, -5), (0x82, 130)]

/-- The state after reset with TEST_PAIRS, `N` and the first bytes of the buffer. -/
def holding (n : BitVec 5) (bs : List Byte) : State :=
  { State.reset with n := n, buf := writeBytes 0 bs [], rom := testPairs }

/-- The same with a pole-pair count. -/
def holdingPoles (pp : BitVec 8) (bs : List Byte) : State := { holding 0 bs with pp := pp }

/-- A record with values the tests can tell apart. -/
def someRecord : Record := { blankRecord with fcnt := 0x1234, tmos := 50, tcap := 53, rpmQ := 476, rpmR := 4 }

/-- A state with that record ready. -/
def readyState : State := { holding 0 [] with record := someRecord, ready := true, recValid := true }

/-- A state with latched checksums. -/
def latchedState : State := { holding 0 [] with ckRx := 1113, ckCalc := 1112, ckValid := true }

/-- A halted instance. -/
def haltedState : State := { holding 0 [] with halt := true, pp := 0 }

/-- The state with an input. -/
def given (input : List Stimulus) (s : State) : State := { s with input := input }

/-- V1 of 95_test_vectors.md. -/
def v1 : List Byte :=
  [0x9B, 0x16, 0x02, 0x01, 0x12, 0x34, 0x02, 0x00, 0x01, 0x00, 0x03, 0xE8, 0x01, 0xE0, 0x02, 0x80, 0x03, 0xE8, 0x10,
   0x12, 0x00, 0x00, 0x58, 0x04]

/-- The source form of V1. -/
def v1Fields : FrameFields :=
  { a := 0x02, b := 0x01, c := 0x1234, d := 0x0200, e := 0x0100, f := 0x03E8, g := 0x01E0, h := 0x0280, i := 0x03E8,
    j := 0x10, k := 0x12, l := 0x0000 }

/-- V1 with another trailer. -/
def v1With (lo hi : Byte) : List Byte := v1.take 22 ++ [lo, hi]

/-- V4: header bytes in the payload, a negative temperature, a fault. -/
def v4 : List Byte :=
  [0x9B, 0x16, 0x02, 0x01, 0x12, 0x35, 0x9B, 0x16, 0x04, 0x00, 0x08, 0x34, 0x00, 0xFC, 0x00, 0x40, 0x00, 0x01, 0x11,
   0x05, 0x00, 0x04, 0x43, 0x03]

/-- V5: one miss, a real 130, status in the high byte. -/
def v5 : List Byte :=
  [0x9B, 0x16, 0x02, 0x01, 0xFF, 0xFF, 0x03, 0xFF, 0x00, 0x01, 0x00, 0x07, 0x00, 0x01, 0x00, 0x3F, 0x00, 0x41, 0x82,
   0x13, 0x01, 0x00, 0xD3, 0x04]

/-- V2 and V3: all payload bytes equal, with their trailers. -/
def v2 : List Byte := 0x9B :: 0x16 :: (List.replicate 20 0xFF ++ [0x9D, 0x14])
def v3 : List Byte := 0x9B :: 0x16 :: (List.replicate 20 0x00 ++ [0xB1, 0x00])

/-- Whether an outcome is a next state of which something holds. -/
def answers (o : Host.Outcome State Fault Refusal) (p : State → Bool) : Bool :=
  match o with
  | .next s => p s
  | .fault _ => false
  | .refused _ => false

/-- The refusal of an outcome. -/
def refusal (o : Host.Outcome State Fault Refusal) : Option Refusal :=
  match o with
  | .refused r => some r
  | .next _ => none
  | .fault _ => none

/-- A buffer that holds bytes, and nothing else. -/
def zeroed (cells : List Host.Cell) : State := { holding 0 [] with buf := cells }

/-! ## Ill-formed terms are refused (R100, R109) -/

theorem test_skip_of_header_is_ill_formed : (Instr.skip 0x9B).wellFormed = false := by decide
theorem test_desync_of_header_is_ill_formed : (Instr.desync 0x16).wellFormed = false := by decide
theorem test_store_at_1_is_ill_formed : (Instr.store 1 0).wellFormed = false := by decide
theorem test_store_at_23_is_ill_formed : (Instr.store 23 0).wellFormed = false := by decide
theorem test_frame_of_19_bytes_is_ill_formed : (Instr.frame (List.replicate 19 0)).wellFormed = false := by decide
theorem test_init_256_has_no_word : (Instr.init 256).hasWord = false ∧ (Instr.init (-1)).hasWord = false := by decide
theorem test_step_refuses_an_ill_formed_term :
    refusal (step (given [.op (.skip 0x9B)] (holding 0 []))) = some .illFormed := by decide

/-! ## Decoding: words written out from the encodings -/

/-- R101: `rst` alone, 0x8, with `cfg_pole_pairs` 21. -/
theorem test_decode_init : decode { format := .hostCmd4, bytes := [0b1000, 21, 0, 0] } = .ok (.init 21, none) := by rfl
/-- R101: all four strobes: `INIT` runs alone. -/
theorem test_decode_all_strobes :
    decode { format := .hostCmd4, bytes := [0b1111, 21, 0x04, 0] } = .ok (.init 21, none) := by rfl
/-- R101: `take` and `poll`: `TAKE` subsumes `ISREADY`. -/
theorem test_decode_take : decode { format := .hostCmd4, bytes := [0b0110, 0, 0, 0] } = .ok (.take, none) := by rfl
/-- R101: `poll` with `in_valid`: `ISREADY` first, `SUBMIT` left. -/
theorem test_decode_isready :
    decode { format := .hostCmd4, bytes := [0b0011, 0, 0x04, 0] } = .ok (.isready, some (hostWord 0b0001 0 0x04 0)) := by
  rfl
theorem test_decode_submit :
    decode { format := .hostCmd4, bytes := [0b0001, 0, 0x9B, 0] } = .ok (.submit 0x9B, none) := by rfl
theorem test_decode_idle : decode { format := .hostCmd4, bytes := [0b0000, 0, 0, 0] } = .ok (.idle, none) := by rfl
/-- The model's selector 2 is `FCNT` (log 13). -/
theorem test_decode_read :
    decode { format := .hostCmd4, bytes := [0b0000, 0, 0, 2] } = .ok (.read .fcnt, none) := by rfl
theorem test_decode_refuses_bit_4 : decode { format := .hostCmd4, bytes := [0x10, 0, 0, 0] } = .error .strayBits := by rfl
/-- R100: `w = N ++ b`, five bits and eight. -/
theorem test_decode_cases :
    decodeTableWord 13 0b00000_10011011 = some .sync0 ∧ decodeTableWord 13 0b00000_10011010 = some (.skip 0x9A) ∧
    decodeTableWord 13 0b00001_00010110 = some .sync1 ∧ decodeTableWord 13 0b00001_10011011 = some (.desync 0x9B) ∧
    decodeTableWord 13 0b00010_10011011 = some (.store 2 0x9B) ∧
    decodeTableWord 13 0b10110_00010110 = some (.store 22 0x16) ∧
    decodeTableWord 13 0b10111_00000100 = some (.final 0x04) := by decide
/-- R100, priority 6: `N` in 24..31. -/
theorem test_decode_unreachable :
    decode { format := .submit13, bytes := [0x00, 0b11000] } = .error .unreachableOffset ∧
    decode { format := .submit13, bytes := [0xFF, 0b11111] } = .error .unreachableOffset := by decide
/-- The completion rows, by the model's selector (log 13). -/
theorem test_decode_completion :
    decode { format := .completion, bytes := [0] } = .ok (.complete, none) ∧
    decode { format := .completion, bytes := [1] } = .ok (.accept, none) ∧
    decode { format := .completion, bytes := [2] } = .ok (.reject, none) ∧
    decode { format := .completion, bytes := [3] } = .ok (.extract, none) ∧
    decode { format := .completion, bytes := [4] } = .error .badSelector := by decide
/-- R91, R92: V1's 24 bytes behind each of the model's function selectors (log 13). -/
theorem test_decode_functions :
    (List.range 13).map (fun k => decode { format := .frame24, bytes := v1 ++ [BitVec.ofNat 8 k] }) =
      [.cksum, .xSeq, .xFcnt, .xThrIn, .xThrOut, .xRpm, .xVbus, .xIbus, .xIph, .xTmos, .xTcap, .xStatus, .xFault].map
        (fun i => .ok (i, none)) := by rfl
/-- R92: the two fixed bytes are matched. -/
theorem test_decode_needs_the_header :
    decode { format := .frame24, bytes := 0x9B :: 0x17 :: (v1.drop 2 ++ [0]) } = .error .notAFrame := by rfl
theorem test_decode_key : decode { format := .lutKey8, bytes := [0x40] } = .ok (.decode 0x40, none) := by rfl
theorem test_decode_bytes :
    decode { format := .pseudo, bytes := [0, 0x9B, 0x16] } = .ok (.bytes [0x9B, 0x16], none) := by rfl
theorem test_decode_pollread : decode { format := .pseudo, bytes := [3] } = .ok (.pollread, none) := by rfl
/-- R109: V1 is what `FRAME` builds of its payload, trailer `58 04`. -/
theorem test_decode_frame :
    decode { format := .pseudo, bytes := 1 :: v1 } = .ok (.frame ((v1.drop 2).take 20), none) := by rfl
/-- The source form of V1: `FRAMEF a=0x02 b=0x01 c=0x1234 ... l=0x0000`. -/
theorem test_decode_framef :
    decode { format := .pseudo, bytes := 2 :: v1 } =
      .ok (.framef v1Fields, none) := by rfl
theorem test_decode_checks_the_trailer :
    decode { format := .pseudo, bytes := 1 :: v1With 0x59 0x04 } = .error .badTrailer := by rfl
/-- A word of the table, presented after reset, runs. -/
theorem test_step_runs_a_table_word :
    answers (step (State.reset.withFetchWord 16 0x0116)) (fun t => t.n == 2 && memRead t.buf 1 == some 0x16) = true ∧
    answers (step (State.reset.withFetchWord 8 0x8)) (fun t => t.halt) = true := by decide
/-- A frame word is the buffer (log 14): the sum of `9B 16` and zeros is 177. -/
theorem test_step_runs_a_frame_word :
    answers (step (State.reset.withFetchWord 192 0x169B)) (fun t => t.results == [.unsigned 177]) = true := by decide

/-! ## Host operations: H1 to H24 -/

/-- H3. -/
theorem test_init_255 : answers (exec (.init 255) readyState) (fun t =>
    t.pp == 255 && !t.halt && !t.ready && !t.recValid && t.results == [.ok]) = true := by decide
/-- H4, H6. -/
theorem test_init_0_and_256 :
    answers (exec (.init 0) readyState) (fun t => t.halt && t.results == [.malformedConfiguration 0]) = true ∧
    answers (exec (.init 256) readyState) (fun t => t.halt && t.results == [.malformedConfiguration 256]) = true := by
  decide
/-- H7. -/
theorem test_submit_on_halted : refusal (exec (.submit 0x9B) haltedState) = some .noDecoder := by decide
/-- H11, H16. -/
theorem test_isready : answers (exec .isready (holding 0 [])) (fun t => t.results == [.bit false]) = true ∧
    answers (exec .isready readyState) (fun t => t.results == [.bit true] && !t.ready && t.recValid) = true := by decide
/-- H12, H18. -/
theorem test_take : answers (exec .take (holding 0 [])) (fun t => t.results == [.record none]) = true ∧
    answers (exec .take readyState) (fun t => t.results == [.record (some someRecord)] && !t.ready) = true := by decide
/-- H13, H14. -/
theorem test_read_refuses : refusal (exec (.read .fcnt) (holding 0 [])) = some (.recordNotValid .fcnt) ∧
    refusal (exec (.read .ckRx) (holding 0 [])) = some (.checksumNotLatched .ckRx) := by decide
/-- H15, H20. -/
theorem test_read : answers (exec (.read .pp) (holding 0 [])) (fun t => t.results == [.unsigned 21]) = true ∧
    answers (exec (.read .tcap) readyState) (fun t => t.results == [.signed 53] && t.ready) = true := by decide
/-- M6. -/
theorem test_idle : answers (exec .idle readyState) (fun t => t == { readyState with results := [] }) = true := by decide
/-- M2: `poll` and `in_valid` in one cycle at `N = 23`: the first step answers 0 and leaves the byte. -/
theorem test_same_cycle_poll_and_byte :
    answers (step (given [.word (hostWord 0b0011 0 0x04 0)] (holding 23 (v1.take 23)))) (fun t =>
      !t.pollResult && t.n == 23 && t.input == [.word (hostWord 0b0001 0 0x04 0)]) = true := by decide

/-! ## The synchronizer: S1 to S8, and the byte 23 of V1 to V9 -/

/-- S1. -/
theorem test_sync0 : answers (exec (.submit 0x9B) (holding 0 [])) (fun t =>
    t.n == 1 && t.buf == [(0, 0x9B)] && t.events == []) = true := by decide
/-- S2. -/
theorem test_skip : answers (exec (.submit 0x16) (holding 0 [])) (fun t => t.n == 0 && t.buf == []) = true := by decide
/-- S4. -/
theorem test_sync1 : answers (exec (.submit 0x16) (holding 1 [0x9B])) (fun t =>
    t.n == 2 && t.buf == [(0, 0x9B), (1, 0x16)]) = true := by decide
/-- S5. -/
theorem test_desync : answers (exec (.submit 0x9B) (holding 1 [0x9B])) (fun t =>
    t.n == 0 && t.buf == [(0, 0x9B)]) = true := by decide
/-- S7. -/
theorem test_store_at_2 : answers (exec (.submit 0x9B) (holding 2 [0x9B, 0x16])) (fun t =>
    t.n == 3 && memRead t.buf 2 == some 0x9B) = true := by decide
/-- S8. -/
theorem test_store_at_22 : answers (exec (.submit 0x16) (holding 22 (v1.take 22))) (fun t =>
    t.n == 23 && memRead t.buf 22 == some 0x16 && !t.ready) = true := by decide
/-- V1. -/
theorem test_final_accepts : answers (exec (.submit 0x04) (holding 23 (v1.take 23))) (fun t =>
    t.n == 0 && t.ready && t.recValid && !t.ckValid && t.events == [.recordReady] &&
    t.record == { seq := 0x02169B01, fcnt := 0x1234, thrIn := 12800, thrOut := 6400, rpmQ := 476, rpmR := 4, vbus := 480,
                  ibus := 640, iph := 1000, tmos := 50, tmosMiss := false, tcap := 53, tcapMiss := false, status := 0,
                  fault := false }) = true := by decide
/-- V7.2. -/
theorem test_final_rejects : answers (exec (.submit 0x00) (holding 23 (v1.take 23))) (fun t =>
    t.n == 0 && !t.ready && !t.recValid && t.ckValid && t.ckRx == 88 && t.ckCalc == 1112 &&
    t.events == [.checksumMismatch 88 1112]) = true := by decide
/-- U12. -/
theorem test_submit_beyond_23 : refusal (exec (.submit 0x9B) (holding 24 v1)) = some .unreachableOffset := by decide

/-! ## Completion -/

/-- V2: both misses, MOSFET first, then the record. -/
theorem test_complete_v2 : answers (exec .complete (holding 0 v2)) (fun t =>
    t.events == [.tempMiss .mos 0xFF, .tempMiss .cap 0xFF, .recordReady] && t.record.seq == 0xFF169BFF &&
    t.record.thrIn == 1638375 && t.record.rpmQ == 31207 && t.record.rpmR == 3 && t.record.tmos == 260 &&
    t.record.tcapMiss && t.record.fault) = true := by decide
/-- V8. -/
theorem test_complete_v8 : answers (exec .complete (zeroed (writeBytes 10 [0x02] (holding 0 v1).buf))) (fun t =>
    t.ckRx == 1112 && t.ckCalc == 1111 && !t.ready) = true := by decide
/-- V9: bytes 4 and 5 exchanged. -/
theorem test_accept_v9 : answers (exec .accept (zeroed (writeBytes 4 [0x34, 0x12] (holding 0 v1).buf))) (fun t =>
    t.record.fcnt == 0x3412 && t.ready) = true := by decide
/-- V6.7. -/
theorem test_reject : answers (exec .reject (holding 0 (v1With 0xD8 0x04))) (fun t =>
    t.ckRx == 1240 && t.ckCalc == 1112 && t.events == [.checksumMismatch 1240 1112]) = true := by decide
/-- V4. -/
theorem test_extract_v4 : answers (exec .extract (holding 0 v4)) (fun t =>
    t.record.thrIn == 992550 && t.record.rpmQ == 1000 && t.record.rpmR == 0 && t.record.tmos == 54 &&
    t.record.tcap == 0xFFF6 && t.record.status == 4 && t.record.fault && t.events == [] && !t.ready) = true := by decide
/-- V5. -/
theorem test_extract_v5 : answers (exec .extract (holding 0 v5)) (fun t =>
    t.record.tmos == 260 && !t.record.tmosMiss && t.record.tcapMiss && t.record.status == 256 &&
    t.record.ibus == 63 && t.record.iph == 65 && t.events == [.tempMiss .cap 0x13]) = true := by decide

/-! ## Functions: K1 to K3, X1 to X19, T1 to T10 -/

/-- K3. -/
theorem test_cksum_v1 : answers (exec .cksum (holding 0 v1)) (fun t => t.results == [.unsigned 1112]) = true := by decide
/-- K2. -/
theorem test_cksum_max : answers (exec .cksum (holding 0 v2)) (fun t => t.results == [.unsigned 5277]) = true := by decide
/-- X2. -/
theorem test_xSeq : answers (exec .xSeq (holding 0 [0x9B, 0x16, 0x80, 0x7F])) (fun t =>
    t.results == [.unsigned 0x80169B7F]) = true := by decide
/-- X3. -/
theorem test_xFcnt : answers (exec .xFcnt (zeroed [(4, 0x00), (5, 0x01)])) (fun t => t.results == [.unsigned 1]) = true := by
  decide
/-- X6. -/
theorem test_xThrIn : answers (exec .xThrIn (zeroed [(6, 0x04), (7, 0x00)])) (fun t =>
    t.results == [.unsigned 25600]) = true := by decide
/-- X7. -/
theorem test_xThrOut : answers (exec .xThrOut (zeroed [(8, 0xFF), (9, 0xFF)])) (fun t =>
    t.results == [.unsigned 1638375]) = true := by decide
/-- X9, X12. -/
theorem test_xRpm :
    answers (exec .xRpm (zeroed [(10, 0x00), (11, 0x02)])) (fun t => t.results == [.quotRem 0 20]) = true ∧
    answers (exec .xRpm { zeroed [(10, 0x00), (11, 0x19)] with pp := 255 }) (fun t =>
      t.results == [.quotRem 0 250]) = true := by decide
/-- V2 with one pole pair: the largest quotient. -/
theorem test_xRpm_max : answers (exec .xRpm (holdingPoles 1 v2)) (fun t => t.results == [.quotRem 655350 0]) = true := by
  decide
/-- X14. -/
theorem test_xVbus : answers (exec .xVbus (zeroed [(12, 0x80), (13, 0x00)])) (fun t =>
    t.results == [.unsigned 32768]) = true := by decide
/-- X15. -/
theorem test_xIbus : answers (exec .xIbus (zeroed [(14, 0x80), (15, 0x00)])) (fun t =>
    t.results == [.unsigned 32768]) = true := by decide
/-- X16. -/
theorem test_xIph : answers (exec .xIph (zeroed [(16, 0x00), (17, 0x40)])) (fun t => t.results == [.unsigned 64]) = true := by
  decide
/-- T3. -/
theorem test_xTmos : answers (exec .xTmos (zeroed [(18, 0x11)])) (fun t =>
    t.results == [.temperature 54 false] && t.events == []) = true := by decide
/-- T9. -/
theorem test_xTcap : answers (exec .xTcap (zeroed [(19, 0x13)])) (fun t =>
    t.results == [.temperature 260 true] && t.events == []) = true := by decide
/-- X19. -/
theorem test_xStatus : answers (exec .xStatus (zeroed [(20, 0x80), (21, 0x00)])) (fun t =>
    t.results == [.unsigned 32768]) = true := by decide
/-- X17, X18. -/
theorem test_xFault : answers (exec .xFault (zeroed [(20, 0x00), (21, 0x00)])) (fun t => t.results == [.bit false]) = true ∧
    answers (exec .xFault (zeroed [(20, 0x00), (21, 0x01)])) (fun t => t.results == [.bit true]) = true := by decide
/-- T4, T6: the sentinel's value without a miss. -/
theorem test_decode : answers (exec (.decode 0x05) (holding 0 [])) (fun t => t.results == [.temperature (-10) false]) = true ∧
    answers (exec (.decode 0x82) (holding 0 [])) (fun t => t.results == [.temperature 260 false]) = true := by decide
/-- R33, R240, U11: no `DECODE` without a decoder. -/
theorem test_decode_needs_a_decoder : refusal (exec (.decode 0x05) haltedState) = some .noDecoder ∧
    refusal (exec (.decode 0x05) powerOn) = some .noDecoder := by decide
/-- T7, with the table and without. -/
theorem test_decode_miss :
    answers (exec (.decode 0xFF) (holding 0 [])) (fun t => t.results == [.temperature 260 true]) = true ∧
    answers (exec (.decode 0x10) { holding 0 [] with rom := [] }) (fun t => t.results == [.temperature 260 true]) = true := by
  decide
/-- Section 3, last sentence: a table with 25.25 is refused; TEST_PAIRS is not. -/
theorem test_supplied_tables :
    suppliedTable [(0x20, 101 / 4)] = none ∧ suppliedTable testDegrees = some testPairs := by
  constructor <;> (simp [suppliedTable, halfDegrees, testDegrees, testPairs]; norm_num)

/-! ## Pseudo-operations -/

/-- S10, its first four bytes: `SYNC0`, `DESYNC`, `SYNC0`, `SYNC1`. -/
theorem test_bytes : answers (exec (.bytes [0x9B, 0x17, 0x9B, 0x16]) (holding 0 [])) (fun t =>
    t.n == 2 && t.buf == [(0, 0x9B), (1, 0x16)]) = true := by decide
/-- V3: twenty zeros. -/
theorem test_frame_v3 : answers (exec (.frame (List.replicate 20 0)) (holding 0 [])) (fun t =>
    t.n == 0 && t.ready && t.buf == (holding 0 v3).buf &&
    t.events == [.tempMiss .mos 0x00, .tempMiss .cap 0x00, .recordReady]) = true := by decide
/-- V1 from its source form. -/
theorem test_framef_v1 :
    answers (exec (.framef v1Fields) (holding 0 [])) (fun t =>
      t.buf == (holding 0 v1).buf && t.record.rpmQ == 476 && t.events == [.recordReady]) = true := by decide
/-- R109: `ISREADY`, and where it returned 1 the fifteen registers to read, `SEQ` first. -/
theorem test_pollread :
    answers (exec .pollread readyState) (fun t =>
      t.results == [.bit true] && t.pending.length == 15 && t.pending.head? == some .seq && !t.ready) = true ∧
    answers (exec .pollread (holding 0 [])) (fun t => t.results == [.bit false] && t.pending == []) = true := by decide
/-- R246: a `SUBMIT` that completes V1 comes before the `READ` of `FCNT`, which is then V1's. -/
theorem test_pollread_is_not_atomic :
    answers (step (given [.op (.submit 0x04), .resume]
      { readyState with n := 23, buf := (holding 23 (v1.take 23)).buf, pending := [.fcnt, .vbus] })) (fun t =>
        t.n == 0 && t.pending == [.fcnt, .vbus] && t.input == [.resume] &&
        answers (step t) (fun u => u.results == [.unsigned 0x1234] && u.pending == [.vbus])) = true ∧
    answers (step { readyState with pending := [.fcnt] }) (fun t => t.pending == []) = true := by decide
/-- R198: V1's last byte and one more: the record was ready, and nothing pulses any more. -/
theorem test_pulses_are_the_last_submit :
    answers (exec (.bytes [0x04, 0x00]) (holding 23 (v1.take 23))) (fun t =>
      t.events == [.recordReady] && t.pulses == []) = true ∧
    answers (exec (.bytes [0x04]) (holding 23 (v1.take 23))) (fun t => t.pulses == [.recordReady]) = true := by decide
/-- Log 24: no byte at all; R33: not even that without a decoder. -/
theorem test_empty_bytes :
    answers (exec (.bytes []) readyState) (fun t => t == { readyState with results := [] }) = true ∧
    refusal (exec (.bytes []) haltedState) = some .noDecoder ∧ refusal (exec (.bytes []) powerOn) = some .noDecoder := by
  decide

/-! ## Hypotheses that can be met: one witness for each obligation that has any, its clauses at their boundaries -/

/-- A frame as a function of the offset. -/
def frameOf (bs : List Byte) : Nat → Byte := frameAt bs

theorem witness_InitConstructsTheDecoder : (1 : Int) ≤ 1 ∧ (1 : Int) ≤ 255 ∧ (1 : Int) ≤ 255 ∧ (255 : Int) ≤ 255 := by
  decide

theorem witness_InitRejectsMalformedConfiguration :
    ((0 : Int) ≤ 0 ∨ 255 < (0 : Int)) ∧ ((256 : Int) ≤ 0 ∨ 255 < (256 : Int)) := by decide

/-- A halted instance and one never initialised; `READ HALT` answers on the first alone. -/
theorem witness_NoDecoderRefusesHostOperations :
    live haltedState = false ∧ live powerOn = false ∧ haltedState.inits ≠ 0 ∧ powerOn.inits = 0 ∧
    isInit (.decode 0x10) = false ∧ Instr.decode 0x10 ≠ .read .halt ∧ Instr.read .fcnt ≠ .read .halt ∧
    answers (exec (.read .halt) haltedState) (fun t => !live t) = true ∧ (0b0111 : BitVec 4) &&& 0x8 = 0 ∧
    (0b0000 : BitVec 4) &&& 0x8 = 0 ∧
    (given [.word (hostWord 0b0111 0 0 0)] haltedState).input = .word (hostWord (BitVec.setWidth 8 0b0111#4) 0 0 0) :: [] := by
  decide

theorem witness_IsreadyReturnsAndClearsReady : live readyState = true ∧ live (holding 0 []) = true := by decide

theorem witness_TakeHandsOverTheRecordOnce :
    live readyState = true ∧ readyState.ready = true ∧ live (holding 0 []) = true ∧ (holding 0 []).ready = false := by decide

theorem witness_ReadReturnsTheRegister :
    live readyState = true ∧ readyState.recValid = true ∧ live latchedState = true ∧ latchedState.ckValid = true ∧
    isRecordReg .pp = false ∧ isChecksumReg .pp = false := by decide

theorem witness_ReadRefusesWhatHoldsNoValue :
    live (holding 0 []) = true ∧ isRecordReg .seq = true ∧ isRecordReg .fault = true ∧ (holding 0 []).recValid = false ∧
    isChecksumReg .ckRx = true ∧ isChecksumReg .ckCalc = true ∧ (holding 0 []).ckValid = false ∧
    haltedState.inits ≠ 0 ∧ haltedState.halt = true := by decide

theorem witness_IdleChangesNothing : live (holding 0 []) = true := by decide

theorem witness_Sync0StoresTheFirstHeaderByte : live (holding 0 []) = true ∧ (holding 0 []).n = 0 := by decide

theorem witness_SkipWritesNothing :
    live (holding 0 []) = true ∧ (holding 0 []).n = 0 ∧ (0x9A : Byte) ≠ 0x9B ∧ (0x9C : Byte) ≠ 0x9B := by decide

theorem witness_Sync1StoresTheSecondHeaderByte : live (holding 1 [0x9B]) = true ∧ (holding 1 [0x9B]).n = 1 := by decide

theorem witness_DesyncDiscardsBothBytes :
    live (holding 1 [0x9B]) = true ∧ (holding 1 [0x9B]).n = 1 ∧ (0x9B : Byte) ≠ 0x16 ∧ (0x17 : Byte) ≠ 0x16 := by decide

theorem witness_StoreStoresAtTheOffset :
    live (holding 2 (v1.take 2)) = true ∧ 2 ≤ (holding 2 (v1.take 2)).n.toNat ∧ (holding 2 (v1.take 2)).n.toNat ≤ 22 ∧
    2 ≤ (holding 22 (v1.take 22)).n.toNat ∧ (holding 22 (v1.take 22)).n.toNat ≤ 22 := by decide

theorem witness_FinalStoresThenCompletes :
    live (holding 23 (v1.take 23)) = true ∧ (holding 23 (v1.take 23)).pp ≠ 0 ∧ (holding 23 (v1.take 23)).n = 23 ∧
    ∀ i < 23, memRead (holding 23 (v1.take 23)).buf i = some (frameOf v1 i) := by decide

theorem witness_SubmitRunsTheCaseItsWordSelects :
    live (holding 23 []) = true ∧ (holding 23 []).n.toNat ≤ 23 ∧ live (holding 24 []) = true ∧
    24 ≤ (holding 24 []).n.toNat := by decide

/-- A state in the middle of a frame meets the invariant. -/
theorem witness_BlockInv : BlockInv (holding 2 [0x9B, 0x16]) := by constructor <;> decide

/-- So does a state with a record and one with latched checksums. -/
theorem witness_BlockInv_record : BlockInv { readyState with ckRx := 88, ckCalc := 177, ckValid := true } := by
  constructor <;> decide

theorem witness_SubmitNeverFailsOnAConfiguredInstance :
    BlockInv (holding 2 [0x9B, 0x16]) ∧ live (holding 2 [0x9B, 0x16]) = true := ⟨witness_BlockInv, by decide⟩

theorem witness_SubmitMovesTheOffsetByTheDocumentsStates :
    answers (exec (.submit 0x9B) (holding 0 [])) (fun t => t.n == 1) = true ∧
    answers (exec (.submit 0x9A) (holding 0 [])) (fun t => t.n == 0) = true ∧
    answers (exec (.submit 0x16) (holding 1 [0x9B])) (fun t => t.n == 2) = true ∧
    answers (exec (.submit 0x15) (holding 1 [0x9B])) (fun t => t.n == 0) = true ∧
    answers (exec (.submit 0x00) (holding 2 [0x9B, 0x16])) (fun t => t.n == 3) = true ∧
    answers (exec (.submit 0x58) (holding 22 (v1.take 22))) (fun t => t.n == 23) = true ∧
    answers (exec (.submit 0x04) (holding 23 (v1.take 23))) (fun t => t.n == 0) = true := by decide

/-- S9's bytes: `9B` and `16` are among them, never in a row. -/
theorem witness_NoHeaderPairNoReadyRecord :
    live (holding 0 []) = true ∧ (holding 0 []).n = 0 ∧
    noHeaderPair [0x16, 0x9B, 0x00, 0x16, 0x9B, 0x9B, 0x17, 0x16, 0x16, 0x9B] := by
  refine ⟨by decide, by decide, ?_⟩
  simp [noHeaderPair]

theorem witness_TwoFramesBackToBackAreBothAccepted :
    live (holding 0 []) = true ∧ (holding 0 []).n = 0 ∧ (holding 0 []).pp ≠ 0 ∧ ((v1.drop 2).take 20).length = 20 ∧
    ((v4.drop 2).take 20).length = 20 := by decide

/-- With a second chunk and with none. -/
theorem witness_ChunksOfAStreamCompose :
    answers (exec (.bytes [0x9B]) (holding 0 [])) (fun t =>
      answers (exec (.bytes [0x16, 0x02]) t) (fun u => u.n == 3) && answers (exec (.bytes []) t) (fun u => u.n == 1)) = true := by
  decide

theorem witness_BytesCompleteOnAConfiguredInstance :
    BlockInv (holding 2 [0x9B, 0x16]) ∧ live (holding 2 [0x9B, 0x16]) = true := ⟨witness_BlockInv, by decide⟩

/-- V1 is held, and its sum is its trailer. -/
theorem witness_held_v1 : live (holding 0 v1) = true ∧ (holding 0 v1).pp ≠ 0 ∧ HoldsFrame (holding 0 v1) (frameOf v1) ∧
    frameSum (frameOf v1) = frameTrailer (frameOf v1) ∧ Headed (frameOf v1) := by
  unfold HoldsFrame Headed
  decide

/-- V6 is held, and its sum is not its trailer. -/
theorem witness_held_v6 : live (holding 0 (v1With 0x59 0x04)) = true ∧ (holding 0 (v1With 0x59 0x04)).pp ≠ 0 ∧
    HoldsFrame (holding 0 (v1With 0x59 0x04)) (frameOf (v1With 0x59 0x04)) ∧
    frameSum (frameOf (v1With 0x59 0x04)) ≠ frameTrailer (frameOf (v1With 0x59 0x04)) := by
  unfold HoldsFrame
  decide

theorem witness_CompleteAcceptsOrRejects :
    (live (holding 0 v1) = true ∧ (holding 0 v1).pp ≠ 0 ∧ HoldsFrame (holding 0 v1) (frameOf v1) ∧
      frameSum (frameOf v1) = frameTrailer (frameOf v1)) ∧
    ∃ f, HoldsFrame (holding 0 (v1With 0x59 0x04)) f ∧ frameSum f ≠ frameTrailer f :=
  ⟨⟨witness_held_v1.1, witness_held_v1.2.1, witness_held_v1.2.2.1, witness_held_v1.2.2.2.1⟩,
    ⟨_, witness_held_v6.2.2.1, witness_held_v6.2.2.2⟩⟩

theorem witness_CksumReturnsThePlainSum :
    live (holding 22 (v1.take 22)) = true ∧ (∀ i < 22, memRead (holding 22 (v1.take 22)).buf i = some (frameOf v1 i)) ∧
    13 ≤ 13 ∧ 13 ≤ Config.accW := by decide

/-- The trailer at 176, at 5278, and with 0x15 as its high byte. -/
theorem witness_SumRangeRejectsTrailersOutsideIt :
    (∀ i < 24, memRead (holding 0 (v1With 0xB0 0x00)).buf i = some (frameOf (v1With 0xB0 0x00) i)) ∧
    (frameOf (v1With 0xB0 0x00) 0 = 0x9B ∧ frameOf (v1With 0xB0 0x00) 1 = 0x16) ∧
    frameTrailer (frameOf (v1With 0xB0 0x00)) < 177 ∧ 5277 < frameTrailer (frameOf (v1With 0x9E 0x14)) ∧
    0x14 < (frameOf (v1With 0x00 0x15) 23).toNat ∧ (holding 0 (v1With 0xB0 0x00)).pp ≠ 0 ∧
    live (holding 0 (v1With 0xB0 0x00)) = true := by decide

theorem witness_AcceptWritesTheRecord : live (holding 0 v1) = true ∧ (holding 0 v1).pp ≠ 0 ∧
    HoldsFrame (holding 0 v1) (frameOf v1) ∧ frameSum (frameOf v1) = frameTrailer (frameOf v1) :=
  ⟨witness_held_v1.1, witness_held_v1.2.1, witness_held_v1.2.2.1, witness_held_v1.2.2.2.1⟩

theorem witness_RejectLatchesBothChecksums : live (holding 0 (v1With 0x59 0x04)) = true ∧
    HoldsFrame (holding 0 (v1With 0x59 0x04)) (frameOf (v1With 0x59 0x04)) ∧
    frameSum (frameOf (v1With 0x59 0x04)) ≠ frameTrailer (frameOf (v1With 0x59 0x04)) :=
  ⟨witness_held_v6.1, witness_held_v6.2.2.1, witness_held_v6.2.2.2⟩

/-- Its offsets and bytes; its frames are those of the two witnesses above. -/
theorem witness_CasesAndActionsNeedTheirCondition :
    live (holding 2 v1) = true ∧ (holding 2 v1).n ≠ 0 ∧ (holding 2 v1).n ≠ 1 ∧ (holding 2 v1).n ≠ 23 ∧
    (holding 2 v1).n ≠ 3 ∧ (1 : BitVec 5).toNat < 2 ∧ 22 < (23 : BitVec 5).toNat := by decide

/-- A whole buffer without a value; one in the middle of a first frame; one at its end with a hole at offset 22. -/
theorem witness_ReadingAnUnwrittenCellIsRefused :
    (live (holding 0 []) = true ∧ 0 ∈ cellsRead .xSeq ∧ memRead (holding 0 []).buf 0 = none) ∧
    (live (holding 15 (v1.take 15)) = true ∧ 15 ∈ cellsRead .xIbus ∧ memRead (holding 15 (v1.take 15)).buf 14 ≠ none ∧
      memRead (holding 15 (v1.take 15)).buf 15 = none) ∧
    (23 ∈ cellsRead .complete ∧ memRead (holding 23 (v1.take 23)).buf 23 = none) ∧
    (live (holding 23 (v1.take 22)) = true ∧ (holding 23 (v1.take 22)).n = 23 ∧
      memRead (holding 23 (v1.take 22)).buf 22 = none) := by decide

theorem witness_FlippedTrailerBitIsRejected :
    live (holding 0 (v1With 0x58 0x84)) = true ∧ (holding 0 (v1With 0x58 0x84)).pp ≠ 0 ∧
    frameSum (frameOf v1) = frameTrailer (frameOf v1) ∧
    (∀ i < 24, memRead (holding 0 (v1With 0x58 0x84)).buf i =
      some (Function.update (frameOf v1) 23 (frameOf v1 23 ^^^ (1#8 <<< 7)) i)) ∧
    (∀ i < 24, memRead (holding 0 (v1With 0x59 0x04)).buf i =
      some (Function.update (frameOf v1) 22 (frameOf v1 22 ^^^ (1#8 <<< 0)) i)) := by decide

/-- V8 (byte 10) and the exchange of the payload's first and last bytes. -/
theorem witness_OneChangedPayloadByteIsRejected :
    frameSum (frameOf v1) = frameTrailer (frameOf v1) ∧ (0x02 : Byte) ≠ frameOf v1 10 ∧
    (∀ i < 24, memRead (zeroed (writeBytes 10 [0x02] (holding 0 v1).buf)).buf i =
      some (Function.update (frameOf v1) 10 0x02 i)) ∧
    (∀ i < 24, memRead (zeroed (writeBytes 2 [0x00] (writeBytes 21 [0x02] (holding 0 v1).buf))).buf i =
      some (Function.update (Function.update (frameOf v1) 2 (frameOf v1 21)) 21 (frameOf v1 2) i)) ∧
    live (zeroed []) = true ∧ (zeroed []).pp ≠ 0 := by decide

theorem witness_ExtractWritesEveryRecordRegister :
    live (holding 0 v1) = true ∧ (holding 0 v1).pp ≠ 0 ∧ HoldsFrame (holding 0 v1) (frameOf v1) :=
  ⟨witness_held_v1.1, witness_held_v1.2.1, witness_held_v1.2.2.1⟩

theorem witness_XSeqFollowsTheDocumentsFormula :
    live (holding 4 (v1.take 4)) = true ∧ memRead (holding 4 (v1.take 4)).buf 0 = some 0x9B ∧
    memRead (holding 4 (v1.take 4)).buf 1 = some 0x16 ∧ memRead (holding 4 (v1.take 4)).buf 2 = some 0x02 ∧
    memRead (holding 4 (v1.take 4)).buf 3 = some 0x01 := by decide

theorem witness_ThrottlesAreTwentyFiveTimesRaw :
    live (zeroed []) = true ∧ memRead (zeroed [(6, 0xFF), (7, 0xFF)]).buf 6 = some 0xFF ∧
    memRead (zeroed [(6, 0xFF), (7, 0xFF)]).buf 7 = some 0xFF ∧ memRead (zeroed [(8, 0x00), (9, 0x01)]).buf 8 = some 0x00 ∧
    memRead (zeroed [(8, 0x00), (9, 0x01)]).buf 9 = some 0x01 := by decide

theorem witness_XRpmDividesByThePolePairs :
    live (holdingPoles 255 v2) = true ∧ (holdingPoles 255 v2).pp ≠ 0 ∧ memRead (holdingPoles 255 v2).buf 10 = some 0xFF ∧
    memRead (holdingPoles 255 v2).buf 11 = some 0xFF := by decide

theorem witness_CounterVoltageAndCurrentsAreRaw :
    live (holding 0 v2) = true ∧ ∀ i ∈ [4, 5, 12, 13, 14, 15, 16, 17], memRead (holding 0 v2).buf i = some 0xFF := by decide

theorem witness_TemperaturesAreDecoded :
    live (holding 0 v1) = true ∧ memRead (holding 0 v1).buf 18 = some 0x10 ∧ memRead (holding 0 v1).buf 19 = some 0x12 := by
  decide

theorem witness_StatusAndFaultBit :
    live (holding 0 v5) = true ∧ memRead (holding 0 v5).buf 20 = some 0x01 ∧ memRead (holding 0 v5).buf 21 = some 0x00 := by
  decide

theorem witness_DecodeAnswersEveryKey : live (holding 0 []) = true ∧ lut (holding 0 []).rom 0x05 = some (-10) ∧
    lut (holding 0 []).rom 0xFF = none := by decide

/-- Key 0x11 has two pairs and the second stands last of its key; key 0xFF has none. -/
theorem witness_LastPairOfAKeyWins :
    suppliedTable testDegrees = some (holding 0 []).rom ∧
    testDegrees = [(0x10, 25), (0x11, 26), (0x12, 53 / 2), (0x40, 60)] ++ (0x11, 27) :: [(0x05, -5), (0x82, 130)] ∧
    (∀ x ∈ ([(0x05, -5), (0x82, 130)] : List (Byte × Rat)), x.1 ≠ 0x11) ∧ (∀ x ∈ testDegrees, x.1 ≠ 0xFF) ∧
    live (holding 0 []) = true :=
  ⟨test_supplied_tables.2, rfl, by simp, by simp [testDegrees], by decide⟩

theorem witness_EngineeringValuesAreExact :
    (21 : BitVec 8) ≠ 0 ∧ lut testPairs (frameOf v2 18) = none ∧ lut testPairs (frameOf v2 19) = none ∧
    lut testPairs (frameOf v4 18) = some 54 ∧ lut testPairs (frameOf v4 19) = some (-10) := by decide

theorem witness_BuiltFrameIsAccepted :
    live (holding 0 []) = true ∧ (holding 0 []).n = 0 ∧ (holding 0 []).pp ≠ 0 ∧
    (List.replicate 20 (0xFF : Byte)).length = 20 := by decide

theorem witness_BuiltFrameDecodesToItsFields :
    live (holdingPoles 255 []) = true ∧ (holdingPoles 255 []).n = 0 ∧ (holdingPoles 255 []).pp ≠ 0 := by decide

/-- A record ready and none; `READ`s still to make, with nothing presented and with the host going on. -/
theorem witness_PollreadReadsTheRecordWhenReady :
    live readyState = true ∧ readyState.ready = true ∧ (holding 0 []).ready = false ∧ live (holding 0 []) = true ∧
    { readyState with pending := [.seq, .fcnt] }.pending = .seq :: [.fcnt] ∧
    { readyState with pending := [.seq, .fcnt] }.input = [] ∧
    (given [.resume] { readyState with pending := [.seq, .fcnt] }).input = .resume :: [] ∧
    Instr.submit 0x9B ≠ .pollread ∧
    answers (exec (.submit 0x9B) { readyState with pending := [.seq] }) (fun t => t.pending == [.seq]) = true := by decide

theorem witness_EveryStepKeepsTheInvariant : BlockInv (given [.op (.submit 0x02)] (holding 2 [0x9B, 0x16])) ∧
    answers (step (given [.op (.submit 0x02)] (holding 2 [0x9B, 0x16]))) (fun t => t.n == 3) = true :=
  ⟨by constructor <;> decide, by decide⟩

theorem witness_EveryStepKeepsTheBufferCanonical :
    memWf (given [.op (.submit 0x02)] (holding 2 [0x9B, 0x16])).buf = true ∧
    answers (step (given [.op (.submit 0x02)] (holding 2 [0x9B, 0x16]))) (fun t => t.buf.length == 3) = true := by decide

theorem witness_TableNeverChanges :
    answers (exec (.init 1) (holding 0 v1)) (fun t => t.rom == testPairs) = true := by decide

theorem witness_OnlyInitConfigures :
    isInit .take = false ∧ answers (exec .take readyState) (fun t => t.pp == 21) = true := by decide

/-- The flag goes up, and comes down, and the valid bits come down. -/
theorem witness_ReadyRisesOnlyWithRecordReady :
    (holding 0 v1).ready = false ∧ answers (exec .accept (holding 0 v1)) (fun t => t.ready) = true ∧
    readyState.ready = true ∧ answers (exec .isready readyState) (fun t => !t.ready) = true ∧
    readyState.recValid = true ∧ answers (exec (.init 7) readyState) (fun t => !t.recValid) = true ∧
    latchedState.ckValid = true ∧ answers (exec (.init 7) latchedState) (fun t => !t.ckValid) = true := by decide

theorem witness_RecordIsASnapshot :
    answers (exec (.submit 0x05) (holding 23 (v1.take 23))) (fun t => !t.events.contains .recordReady) = true ∧
    isInit (.submit 0x05) = false ∧ Instr.submit 0x05 ≠ .extract := by decide

theorem witness_BufferIsWrittenOnlyBySubmitAtTheOffset :
    mayStore .complete = false ∧ answers (exec .complete (holding 0 v1)) (fun t => t.ready) = true ∧
    answers (exec (.submit 0x58) (holding 22 (v1.take 22))) (fun t => memRead t.buf 22 == some 0x58) = true ∧
    (23 : Nat) ≠ (holding 22 (v1.take 22)).n.toNat := by decide

theorem witness_EventsOfEachHostOperation :
    isHostOperation (.submit 0x58) = true ∧ (holding 22 (v1.take 22)).n ≠ 23 ∧
    answers (exec (.submit 0x58) (holding 22 (v1.take 22))) (fun t => t.events == []) = true ∧
    live (holding 23 (v1.take 23)) = true ∧ (holding 23 (v1.take 23)).pp ≠ 0 ∧ (holding 23 (v1.take 23)).n = 23 ∧
    ∀ i < 23, memRead (holding 23 (v1.take 23)).buf i = some (frameOf v1 i) := by decide

theorem witness_OutputsShowTheRegisters :
    live readyState = true ∧ readyState.recValid = true ∧ live latchedState = true ∧ latchedState.ckValid = true := by decide

theorem witness_DecodeOfEncodeIsTheInstruction :
    (Instr.store 22 0xFF).wellFormed = true ∧ (Instr.store 22 0xFF).hasWord = true ∧ (Instr.init 255).wellFormed = true ∧
    (Instr.init 255).hasWord = true ∧ (Instr.skip 0x9A).wellFormed = true := by decide

/-- A strobe vector on an instance that exists, a frame word, an operation, and no input. -/
theorem witness_StepRunsTheDecodedInstruction :
    (given [.word (submitWord 2 0x55)] (holding 2 [0x9B, 0x16])).input = .word (submitWord 2 0x55) :: [] ∧
    (submitWord 2 0x55).format ≠ .frame24 ∧ decode (submitWord 2 0x55) = .ok (.store 2 0x55, none) ∧
    (submitWord 2 0x55).format ≠ .hostCmd4 ∧ (frameWord 0).format = .frame24 ∧ readBytes (holding 0 v1) 24 = .ok v1 ∧
    decode { frameWord 0 with bytes := v1 ++ (frameWord 0).bytes.drop 24 } = .ok (.cksum, none) ∧
    (Instr.frame (List.replicate 20 0)).wellFormed = true ∧ (holding 0 []).input = [] ∧ (holding 0 []).pending = [] ∧
    (given [.resume] (holding 0 [])).input = .resume :: [] ∧ live (holding 0 []) = true := by
  decide

/-- Each of the seven clauses has its strobe vector. -/
theorem witness_StrobesOfOneCycleAreSerialised :
    live (holding 0 []) = true ∧ (0b1111 : BitVec 4).getLsbD 3 = true ∧
    ((0b0111 : BitVec 4).getLsbD 3 = false ∧ (0b0111 : BitVec 4).getLsbD 2 = true ∧ (0b0111 : BitVec 4).getLsbD 0 = true) ∧
    ((0b0110 : BitVec 4).getLsbD 2 = true ∧ (0b0110 : BitVec 4).getLsbD 0 = false) ∧
    ((0b0011 : BitVec 4).getLsbD 2 = false ∧ (0b0011 : BitVec 4).getLsbD 1 = true ∧ (0b0011 : BitVec 4).getLsbD 0 = true) ∧
    ((0b0010 : BitVec 4).getLsbD 1 = true ∧ (0b0010 : BitVec 4).getLsbD 0 = false) := by decide

end Sys2Proof.Tests
end

/-! The proof that an operation which reads a cell without a value is refused (00_scope.md R11): what it means that a
computation reads cells, what sequencing keeps of it, and then the operations, from the single read up. -/

namespace Sys2Proof.Machine

/-! ### Computations that read cells -/

/-- The refusal names a cell of the list that holds no value. -/
def NamesMissing (m : List Host.Cell) (cells : List Nat) (r : Refusal) : Prop :=
  ∃ c ∈ cells, memRead m c = none ∧ r = .noValue c

/-- The computation reads exactly these cells: it answers where each of them holds a value, and is else refused with the
name of one that holds none. -/
def ReadsCells {α : Type} (m : List Host.Cell) (cells : List Nat) (x : Res α) : Prop :=
  ((∀ c ∈ cells, memRead m c ≠ none) ∧ ∃ v, x = .ok v) ∨ ∃ r, NamesMissing m cells r ∧ x = .error (.refuse r)

/-- The computation is refused wherever one of these cells holds no value; where all hold one it may do anything, as
`ACCEPT` and `REJECT` do once their sums are read. -/
def RefusesMissing {α : Type} (m : List Host.Cell) (cells : List Nat) (x : Res α) : Prop :=
  ∀ a ∈ cells, memRead m a = none → ∃ r, NamesMissing m cells r ∧ x = .error (.refuse r)

section Sequencing

variable {α β : Type} {m : List Host.Cell} {cells more : List Nat} {x : Res α} {f : α → Res β}

theorem NamesMissing.append_left {r : Refusal} (h : NamesMissing m cells r) : NamesMissing m (cells ++ more) r := by
  obtain ⟨c, hc, hm⟩ := h
  exact ⟨c, List.mem_append_left more hc, hm⟩

theorem NamesMissing.append_right {r : Refusal} (h : NamesMissing m more r) : NamesMissing m (cells ++ more) r := by
  obtain ⟨c, hc, hm⟩ := h
  exact ⟨c, List.mem_append_right cells hc, hm⟩

theorem readsCells_pure (v : α) : ReadsCells m [] (pure v : Res α) := .inl ⟨by simp, v, rfl⟩

theorem ReadsCells.bind (hx : ReadsCells m cells x) (hf : ∀ v, ReadsCells m more (f v)) :
    ReadsCells m (cells ++ more) (x >>= f) := by
  obtain ⟨hv, v, rfl⟩ | ⟨r, hr, rfl⟩ := hx
  · obtain ⟨hw, w, e⟩ | ⟨r, hr, e⟩ := hf v
    · exact .inl ⟨fun c hc => (List.mem_append.mp hc).elim (hv c) (hw c), w, e⟩
    · exact .inr ⟨r, hr.append_right, e⟩
  · exact .inr ⟨r, hr.append_left, rfl⟩

theorem ReadsCells.refusesMissing (hx : ReadsCells m cells x) : RefusesMissing m cells x := by
  intro a ha hm
  obtain ⟨hv, _⟩ | hr := hx
  · exact absurd hm (hv a ha)
  · exact hr

/-- What follows the reads does not matter to the refusal. -/
theorem RefusesMissing.bind (hx : RefusesMissing m cells x) : RefusesMissing m cells (x >>= f) := by
  intro a ha hm
  obtain ⟨r, hr, rfl⟩ := hx a ha hm
  exact ⟨r, hr, rfl⟩

theorem ReadsCells.bind_refusesMissing (hx : ReadsCells m cells x) (hf : ∀ v, RefusesMissing m more (f v)) :
    RefusesMissing m (cells ++ more) (x >>= f) := by
  intro a ha hm
  obtain ⟨hv, v, rfl⟩ | ⟨r, hr, rfl⟩ := hx
  · have ha' : a ∈ more := (List.mem_append.mp ha).resolve_left fun h => hv a h hm
    obtain ⟨r, hr, e⟩ := hf v a ha' hm
    exact ⟨r, hr.append_right, e⟩
  · exact ⟨r, hr.append_left, rfl⟩

end Sequencing

/-! ### The cells each computation reads -/

theorem bufRead_readsCells (s : State) {i : Nat} (hi : i < 24) : ReadsCells s.buf [i] (bufRead s i) := by
  cases h : memRead s.buf i with
  | some v => exact .inl ⟨by simp [h], v, bufRead_of_some hi h⟩
  | none => exact .inr ⟨.noValue i, ⟨i, by simp, h, rfl⟩, by simp [bufRead, hi, h]⟩

theorem be16_readsCells (s : State) {i : Nat} (hi : i + 1 < 24) : ReadsCells s.buf [i, i + 1] (be16 s i) :=
  (bufRead_readsCells s (by omega)).bind fun _ => (bufRead_readsCells s hi).bind fun _ => readsCells_pure _

theorem receivedSum_readsCells (s : State) : ReadsCells s.buf [22, 23] (receivedSum s) :=
  (bufRead_readsCells s (by omega)).bind fun _ => (bufRead_readsCells s (by omega)).bind fun _ => readsCells_pure _

theorem sequenceMarker_readsCells (s : State) : ReadsCells s.buf [0, 1, 2, 3] (sequenceMarker s) :=
  (bufRead_readsCells s (by omega)).bind fun _ => (bufRead_readsCells s (by omega)).bind fun _ =>
    (bufRead_readsCells s (by omega)).bind fun _ => (bufRead_readsCells s (by omega)).bind fun _ => readsCells_pure _

theorem sumFirst_readsCells (s : State) {k : Nat} (hk : k ≤ 24) : ReadsCells s.buf (List.range k) (sumFirst s k) := by
  induction k with
  | zero => exact readsCells_pure 0
  | succ k ih =>
    rw [List.range_succ]
    exact (ih (by omega)).bind fun _ => (bufRead_readsCells s (by omega)).bind fun _ => readsCells_pure _

theorem cksum_readsCells (s : State) : ReadsCells s.buf (List.range 22) (cksum s) := sumFirst_readsCells s (by omega)

theorem throttle_readsCells (s : State) {i : Nat} (hi : i + 1 < 24) : ReadsCells s.buf [i, i + 1] (throttle s i) :=
  (be16_readsCells s hi).bind fun _ => readsCells_pure _

theorem xRpm_readsCells (s : State) : ReadsCells s.buf [10, 11] (xRpm s) :=
  (be16_readsCells s (by omega)).bind fun _ => readsCells_pure _

theorem temperatureAt_readsCells (s : State) {i : Nat} (hi : i < 24) : ReadsCells s.buf [i] (temperatureAt s i) :=
  (bufRead_readsCells s hi).bind fun _ => readsCells_pure _

theorem xFault_readsCells (s : State) : ReadsCells s.buf [20, 21] (xFault s) :=
  (be16_readsCells s (by omega)).bind fun _ => readsCells_pure _

/-- The record's functions read the cells 0 to 21 in order, `X.STATUS` the last two of them. -/
theorem recordOf_refusesMissing (s : State) : RefusesMissing s.buf (List.range 22) (recordOf s) :=
  (sequenceMarker_readsCells s).bind_refusesMissing fun _ =>
  (be16_readsCells s (i := 4) (by omega)).bind_refusesMissing fun _ =>
  (throttle_readsCells s (i := 6) (by omega)).bind_refusesMissing fun _ =>
  (throttle_readsCells s (i := 8) (by omega)).bind_refusesMissing fun _ =>
  (xRpm_readsCells s).bind_refusesMissing fun _ =>
  (be16_readsCells s (i := 12) (by omega)).bind_refusesMissing fun _ =>
  (be16_readsCells s (i := 14) (by omega)).bind_refusesMissing fun _ =>
  (be16_readsCells s (i := 16) (by omega)).bind_refusesMissing fun _ =>
  (temperatureAt_readsCells s (i := 18) (by omega)).bind_refusesMissing fun _ =>
  (temperatureAt_readsCells s (i := 19) (by omega)).bind_refusesMissing fun _ =>
  (be16_readsCells s (i := 20) (by omega)).refusesMissing.bind

theorem extract_refusesMissing (s : State) : RefusesMissing s.buf (List.range 22) (extract s) :=
  (recordOf_refusesMissing s).bind

/-- `COMPLETE`, `ACCEPT` and `REJECT` all read both sums, and so all 24 cells, before anything else they do. -/
theorem bothSums_refusesMissing (s : State) (k : Nat → Nat → Res State) :
    RefusesMissing s.buf (List.range 24) (cksum s >>= fun sum => receivedSum s >>= k sum) :=
  (cksum_readsCells s).bind_refusesMissing fun _ => (receivedSum_readsCells s).refusesMissing.bind

theorem complete_refusesMissing (s : State) : RefusesMissing s.buf (List.range 24) (complete s) :=
  bothSums_refusesMissing s _

/-! ### The operations -/

theorem RefusesMissing.answer_refused {s : State} {cells : List Nat} {x : Res State} (hx : RefusesMissing s.buf cells x)
    (hl : live s = true) {a : Nat} (ha : a ∈ cells) (hm : memRead s.buf a = none) :
    ∃ c ∈ cells, memRead s.buf c = none ∧ answer (whenLive s x) = .refused (.noValue c) := by
  obtain ⟨_, ⟨c, hc, hn, rfl⟩, rfl⟩ := hx a ha hm
  exact ⟨c, hc, hn, by rw [whenLive_of_live hl, answer_refuse]⟩

/-- A function operation wraps the value of its computation and returns it: it is refused as the computation is. -/
theorem ReadsCells.answerFunction_refused {α : Type} {s : State} {cells : List Nat} {f : State → Res α} {wrap : α → Value}
    (hf : ReadsCells s.buf cells (f s)) (hl : live s = true) {a : Nat} (ha : a ∈ cells)
    (hm : memRead s.buf a = none) :
    ∃ c ∈ cells, memRead s.buf c = none ∧
      answerFunction (fun s => do let v ← f s; return wrap v) s = .refused (.noValue c) :=
  hf.refusesMissing.bind.bind.answer_refused hl ha hm

/-- Every operation is refused where a cell it reads holds no value; the operations of the last case read none. -/
theorem exec_of_missing {s : State} {i : Instr} {a : Nat} (hl : live s = true) (ha : a ∈ cellsRead i)
    (hm : memRead s.buf a = none) :
    ∃ c ∈ cellsRead i, memRead s.buf c = none ∧ exec i s = .refused (.noValue c) :=
  match i with
  | .complete => (complete_refusesMissing (fresh s)).answer_refused (s := s) hl ha hm
  | .accept | .reject => (bothSums_refusesMissing s _).answer_refused hl ha hm
  | .extract => (extract_refusesMissing (fresh s)).answer_refused (s := s) hl ha hm
  | .cksum => (cksum_readsCells s).answerFunction_refused hl ha hm
  | .xSeq => (sequenceMarker_readsCells s).answerFunction_refused hl ha hm
  | .xFcnt | .xVbus | .xIbus | .xIph | .xStatus => (be16_readsCells s (by omega)).answerFunction_refused hl ha hm
  | .xThrIn | .xThrOut => (throttle_readsCells s (by omega)).answerFunction_refused hl ha hm
  | .xRpm => (xRpm_readsCells s).answerFunction_refused hl ha hm
  | .xTmos | .xTcap => (temperatureAt_readsCells s (by omega)).answerFunction_refused hl ha hm
  | .xFault => (xFault_readsCells s).answerFunction_refused hl ha hm
  | .init _ | .take | .isready | .submit _ | .idle | .read _ | .sync0 | .skip _ | .sync1 | .desync _ | .final _
  | .store _ _ | .decode _ | .bytes _ | .frame _ | .framef _ | .pollread => absurd ha List.not_mem_nil

/-- The byte that fills cell 23 leaves a hole below it a hole: the completion is refused. -/
theorem final_of_missing {s : State} (b : Byte) {a : Nat} (ha : a < 23) (hm : memRead s.buf a = none) :
    ∃ c < 23, memRead s.buf c = none ∧ final b s = .error (.refuse (.noValue c)) := by
  have hole : memRead (setN 0 (putByte 23 b s)).buf a = none := by
    rw [setN_buf, putByte_buf, memRead_memWrite_other _ _ (by omega), hm]
  obtain ⟨_, ⟨c, hc, hn, rfl⟩, e⟩ := complete_refusesMissing _ a (by simp; omega) hole
  rw [setN_buf, putByte_buf, memRead_memWrite] at hn
  have hc23 : c ≠ 23 := fun h => by simp [h] at hn
  have hc24 : c < 24 := List.mem_range.mp hc
  rw [if_neg hc23] at hn
  exact ⟨c, by omega, hn, by rw [final_eq, e]⟩

theorem execFinal_eq {s : State} (hl : live s = true) (hn : s.n = 23) (b : Byte) :
    execFinal b s = answer (final b (fresh s)) := by
  rw [execFinal, whenSelected_of hl (by simp [hn])]

theorem execSubmit_eq_final {s : State} (hl : live s = true) (hn : s.n = 23) (b : Byte) :
    execSubmit b s = answer (final b (fresh s)) := by
  rw [execSubmit, submit, whenLive_of_live (s := fresh s) hl, submitCase_final b (s := fresh s) hn, final_eq]

/-- Settles O28: the operations by the cells each computation reads, and the byte that ends a frame by what `FINAL` makes
of the buffer. -/
theorem readingAnUnwrittenCellIsRefused : Obligations.ReadingAnUnwrittenCellIsRefused := by
  unfold Obligations.ReadingAnUnwrittenCellIsRefused
  refine ⟨fun s i a hl ha hm => exec_of_missing hl ha hm, fun s b a hl hn ha hm => ?_⟩
  obtain ⟨c, hc, hcm, e⟩ := final_of_missing (s := fresh s) b ha hm
  exact ⟨c, hc, hcm, (execFinal_eq hl hn b).trans (by rw [e, answer_refuse]),
    (execSubmit_eq_final hl hn b).trans (by rw [e, answer_refuse])⟩

end Sys2Proof.Machine

/-! The proofs about the state and its invariant (10_state.md): what `INIT` and every other operation can answer, the
invariant under each update they are made of, and then what no step changes, the flags, the buffer, the offset counter and
the operations without a decoder. -/

namespace Sys2Proof.Machine

/-! ### What an operation can answer -/

theorem isInit_eq_true {i : Instr} : isInit i = true ↔ ∃ pp, i = .init pp := by cases i <;> simp [isInit]

/-- A pole-pair count from 1 to 255 is stored as a byte that is not zero. -/
theorem toNat_ofInt_pos {pp : Int} (h : ¬ (pp ≤ 0 ∨ 255 < pp)) : 1 ≤ (BitVec.ofInt 8 pp).toNat := by
  rw [BitVec.toNat_ofInt]
  omega

/-- What `INIT` can answer: everything forgotten, and `HALT` set or a legal pole-pair count. -/
theorem exec_init_eq_next {i : Instr} {s t : State} (hi : isInit i = true) (e : exec i s = .next t) :
    ∃ v q h, t = give v (forget q h (fresh s)) ∧ (h = false → 1 ≤ q.toNat) := by
  obtain ⟨pp, rfl⟩ := isInit_eq_true.mp hi
  rw [exec_init] at e
  cases e
  split
  · exact ⟨_, 0, true, rfl, fun h => nomatch h⟩
  · exact ⟨_, _, false, rfl, fun _ => toNat_ofInt_pos ‹_›⟩

/-- What an operation other than `INIT` can do: the shapes of its next state, each with what it says of the operation. A
dispatch case that stores is a `SUBMIT` of its byte, and `ACCEPT` and `REJECT`, where selected, are a `COMPLETE`. -/
inductive Effect (i : Instr) (s : State) : State → Prop where
  | passes : Effect i s (fresh s)
  | returns (v : Value) : Effect i s (give v (fresh s))
  | desyncs : Effect i s (setN 0 (fresh s))
  | polls (v : Value) (fs : List RegName) (hi : i = .isready ∨ i = .take ∨ i = .pollread) :
      Effect i s (setPending fs (give v (observeReady (fresh s))))
  | submits {t : State} (bs : List Byte) (hi : mayStore i = true) (h : submitAll bs (fresh s) = .ok t) : Effect i s t
  | completes {t : State} (hl : live s = true) (h : complete (fresh s) = .ok t) : Effect i s t
  | extracts {t : State} (hl : live s = true) (h : extract (fresh s) = .ok t) : Effect i s t

/-- A dispatch case has the effect of the `SUBMIT` that selects it. -/
theorem Effect.of_submitCase {i : Instr} {s t : State} (b : Byte) (hi : mayStore i = true) (hl : live s = true)
    (h : submitCase b (fresh s) = .ok t) : Effect i s t := by
  refine .submits [b] hi ?_
  rw [submitAll_one, quiet_fresh, submit, whenLive_of_live (by simpa using hl), h]

theorem Effect.of_answerFunction {i : Instr} {f : State → Res Value} {s t : State} (e : answerFunction f s = .next t) :
    Effect i s t := by
  obtain ⟨_, v, _, rfl⟩ := answerFunction_eq_next e
  exact .returns v

/-- `COMPLETE` once both sums are read. -/
theorem complete_fresh {s : State} {sum rx : Nat} (hs : cksum s = .ok sum) (hr : receivedSum s = .ok rx) :
    complete (fresh s) =
      if checksumsAgree sum rx then accept (fresh s) else return reject rx sum (fresh s) := by
  have hs' : cksum (fresh s) = .ok sum := hs
  have hr' : receivedSum (fresh s) = .ok rx := hr
  simp only [complete, hs', hr', ok_bind]

/-- Every operation but `INIT` has one of the effects. -/
theorem exec_effect {i : Instr} {s t : State} (hi : isInit i = false) (e : exec i s = .next t) : Effect i s t := by
  cases i with
  | init pp => cases hi
  | take =>
    simp only [exec, execTake, answer_eq_next, take, whenLive_eq_ok] at e
    cases e.2
    exact .polls _ s.pending (by simp)
  | isready =>
    simp only [exec, execIsready, answer_eq_next, isReady, whenLive_eq_ok] at e
    cases e.2
    exact .polls _ s.pending (by simp)
  | pollread =>
    rw [(pollRead_eq_ok.mp (answer_eq_next.mp e)).2]
    split
    · exact .polls _ _ (by simp)
    · exact .polls _ s.pending (by simp)
  | idle =>
    simp only [exec, execIdle, answer_eq_next, idle, whenLive_eq_ok] at e
    cases e.2
    exact .passes
  | read f =>
    rw [readReg_eq_ok (answer_eq_next.mp e)]
    exact .returns _
  | submit b =>
    obtain ⟨hl, h⟩ := whenLive_eq_ok.mp (answer_eq_next.mp e)
    exact .of_submitCase b rfl hl h
  | sync0 =>
    simp only [exec, execSync0, answer_eq_next, whenSelected_eq_ok, beq_iff_eq] at e
    obtain ⟨hl, hn, h⟩ := e
    exact .of_submitCase 0x9B rfl hl ((submitCase_sync0 (s := fresh s) hn).trans h)
  | skip b =>
    simp only [exec, execSkip, answer_eq_next, whenSelected_eq_ok] at e
    cases e.2.2
    exact .passes
  | sync1 =>
    simp only [exec, execSync1, answer_eq_next, whenSelected_eq_ok, beq_iff_eq] at e
    obtain ⟨hl, hn, h⟩ := e
    exact .of_submitCase 0x16 rfl hl ((submitCase_sync1 (s := fresh s) hn).trans h)
  | desync b =>
    simp only [exec, execDesync, answer_eq_next, whenSelected_eq_ok] at e
    cases e.2.2
    exact .desyncs
  | store n b =>
    simp only [exec, execStore, answer_eq_next, whenSelected_eq_ok, Bool.and_eq_true, beq_iff_eq,
      decide_eq_true_eq] at e
    obtain ⟨hl, ⟨⟨rfl, h2⟩, h22⟩, h⟩ := e
    rw [store_eq (s := fresh s) h22] at h
    exact .of_submitCase b rfl hl ((submitCase_store (s := fresh s) b h2 h22).trans h)
  | final b =>
    simp only [exec, execFinal, answer_eq_next, whenSelected_eq_ok, beq_iff_eq, final_eq] at e
    obtain ⟨hl, hn, h⟩ := e
    exact .of_submitCase b rfl hl ((submitCase_final (s := fresh s) b hn).trans h)
  | bytes bs => exact .submits bs rfl (execChunk_eq_next.mp e).2
  | frame p => exact .submits _ rfl (execChunk_eq_next.mp e).2
  | framef x => exact .submits _ rfl (execChunk_eq_next.mp e).2
  | complete =>
    obtain ⟨hl, h⟩ := whenLive_eq_ok.mp (answer_eq_next.mp e)
    exact .completes hl h
  | accept =>
    simp only [exec, execAccept, answer_eq_next, whenLive_eq_ok, bind_eq_ok] at e
    obtain ⟨hl, sum, hs, rx, hr, h⟩ := e
    split at h
    · rename_i c
      exact .completes hl (by rw [complete_fresh hs hr, if_pos c, h])
    · cases h
  | reject =>
    simp only [exec, execReject, answer_eq_next, whenLive_eq_ok, bind_eq_ok] at e
    obtain ⟨hl, sum, hs, rx, hr, h⟩ := e
    split at h
    · cases h
    · rename_i c
      exact .completes hl (by rw [complete_fresh hs hr, if_neg c, h])
  | extract =>
    obtain ⟨hl, h⟩ := whenLive_eq_ok.mp (answer_eq_next.mp e)
    exact .extracts hl h
  | cksum | decode c | xSeq | xFcnt | xThrIn | xThrOut | xRpm | xVbus | xIbus | xIph | xTmos | xTcap | xStatus
  | xFault =>
    simp only [exec, execCksum, execDecode, execXSeq, execXFcnt, execXThrIn, execXThrOut, execXRpm, execXVbus, execXIbus,
      execXIph, execXTmos, execXTcap, execXStatus, execXFault] at e
    exact .of_answerFunction e

/-- What every step keeps: a property that no fetch and no operation breaks. -/
theorem step_keeps {R : State → Prop} (hfetch : ∀ fs left s, R s → R (setPending fs (setInput left s)))
    (hfresh : ∀ s, R s → R (fresh s)) (hexec : ∀ i s t, exec i s = .next t → R s → R t) {s t : State}
    (e : step s = .next t) (h : R s) : R t := by
  obtain ⟨i, u, hu, e⟩ | ⟨u, hu, rfl⟩ := step_eq_next e
  · obtain ⟨fs, left, rfl⟩ := fetch_frame.1 i u hu
    exact hexec i _ t e (hfetch fs left s h)
  · obtain ⟨fs, left, rfl⟩ := fetch_frame.2 u hu
    exact hfresh _ (hfetch fs left s h)

/-- What a sequence of `SUBMIT`s keeps: a property that no `SUBMIT` breaks and that does not speak of the pulses. -/
theorem submitAll_keeps {R : State → Prop} (hquiet : ∀ s, R s → R (quiet s))
    (hsubmit : ∀ b s t, submit b s = .ok t → R s → R t) {bs : List Byte} {s t : State} (e : submitAll bs s = .ok t)
    (h : R s) : R t := by
  induction bs generalizing s with
  | nil =>
    cases e
    exact h
  | cons b bs ih =>
    simp only [submitAll, bind_eq_ok] at e
    obtain ⟨u, hu, e⟩ := e
    exact ih e (hsubmit b _ u hu (hquiet s h))

/-! ### The values a completion computes -/

/-- A computation that answers has found a value in every cell it reads. -/
theorem ReadsCells.isSome_of_ok {α : Type} {m : List Host.Cell} {cells : List Nat} {x : Res α} {v : α}
    (hx : ReadsCells m cells x) (e : x = .ok v) : ∀ c ∈ cells, (memRead m c).isSome = true := by
  obtain ⟨h, _⟩ | ⟨r, _, h⟩ := hx
  · exact fun c hc => Option.isSome_iff_ne_none.mpr (h c hc)
  · cases h.symm.trans e

/-- A big-endian field is of 16 bits. -/
theorem be16_lt {s : State} {i v : Nat} (e : be16 s i = .ok v) : v < 65536 := by
  simp only [be16, bind_eq_ok, pure_eq_ok, Except.ok.injEq, join_bytes] at e
  obtain ⟨hi, _, lo, _, rfl⟩ := e
  omega

/-- The received checksum is of 16 bits. -/
theorem receivedSum_lt {s : State} {v : Nat} (e : receivedSum s = .ok v) : v < 65536 := by
  simp only [receivedSum, bind_eq_ok, pure_eq_ok, Except.ok.injEq] at e
  obtain ⟨lo, _, hi, _, rfl⟩ := e
  rw [Nat.or_comm, join_bytes]
  omega

/-- The sum of a frame's first 22 bytes lies between that of its header alone and that of its header and 20 bytes 255. -/
theorem frameSum_of_headed {f : Nat → Byte} (h : Headed f) : 177 ≤ frameSum f ∧ frameSum f ≤ 5277 := by
  have e : frameSum f = 155 + (22 + ((List.range 20).map fun i => (f (i + 2)).toNat).sum) := by
    rw [frameSum, List.range_succ_eq_map, List.range_succ_eq_map]
    simp [h.1, h.2, Function.comp_def]
  have hle : ((List.range 20).map fun i => (f (i + 2)).toNat).sum ≤ 20 * 255 := by
    refine (List.sum_le_card_nsmul _ 255 fun x hx => ?_).trans (by simp)
    obtain ⟨i, _, rfl⟩ := List.mem_map.mp hx
    omega
  omega

/-- `CKSUM` on a buffer whose header cells, once written, hold the header. -/
theorem cksum_bounds {s : State} {v : Nat} (e : cksum s = .ok v)
    (h0 : memRead s.buf 0 = none ∨ memRead s.buf 0 = some 0x9B)
    (h1 : memRead s.buf 1 = none ∨ memRead s.buf 1 = some 0x16) : 177 ≤ v ∧ v ≤ 5277 := by
  have hv := (cksum_readsCells s).isSome_of_ok e
  have hf : ∀ i < 22, memRead s.buf i = some ((memRead s.buf i).getD 0) := fun i hi => by
    obtain ⟨b, hb⟩ := Option.isSome_iff_exists.mp (hv i (List.mem_range.mpr hi))
    simp [hb]
  have hh : Headed fun i => (memRead s.buf i).getD 0 := by
    have w0 := hv 0 (List.mem_range.mpr (by omega))
    have w1 := hv 1 (List.mem_range.mpr (by omega))
    constructor
    · rcases h0 with h0 | h0 <;> simp [h0] at w0 ⊢
    · rcases h1 with h1 | h1 <;> simp [h1] at w1 ⊢
  rw [← Except.ok.inj ((cksum_of_cells hf).symm.trans e)]
  exact frameSum_of_headed hh

/-- The relations inside a record decoded with a pole-pair count (10_state.md R53 (d)). -/
structure RecordSound (pp : BitVec 8) (r : Record) : Prop where
  /-- `FAULT = (STATUS != 0)`. -/
  faultBit : r.fault = true ↔ r.status ≠ 0
  /-- `RPM_R < PP`. -/
  remainder : r.rpmR.toNat < pp.toNat
  /-- A temperature that missed is the sentinel, here and for the capacitor's. -/
  mosSentinel : r.tmosMiss = true → r.tmos = 260
  capSentinel : r.tcapMiss = true → r.tcap = 260

/-- A temperature's miss bit comes with the sentinel. -/
theorem ofInt_temperatureAt_of_miss {s : State} {i : Nat} {v : Int × Bool} (e : temperatureAt s i = .ok v)
    (h : v.2 = true) : BitVec.ofInt 16 v.1 = 260 := by
  simp only [temperatureAt, bind_eq_ok, pure_eq_ok, Except.ok.injEq] at e
  obtain ⟨k, _, rfl⟩ := e
  obtain ⟨hreg, hmiss⟩ := temperature_register s.rom k
  have hnone : lut s.rom k = none := by rwa [hmiss, Option.isNone_iff_eq_none] at h
  rw [hreg, hnone, Option.getD_none]

/-- The remainder of the rotor speed is below the pole-pair count, and so fits its register. -/
theorem scaleRpm_remainder_lt {pp : BitVec 8} (hp : pp ≠ 0) (num : Nat) :
    (BitVec.ofNat 8 (scaleRpm num pp).2).toNat < pp.toNat := by
  have hpos : 0 < pp.toNat := Nat.pos_of_ne_zero fun h => hp (BitVec.eq_of_toNat_eq h)
  rw [scaleRpm, if_neg hp, BitVec.toNat_ofNat]
  exact (Nat.mod_le _ _).trans_lt (Nat.mod_lt _ hpos)

/-- `FAULT` and `STATUS` come from the same two cells. -/
theorem xFault_iff_xStatus {s : State} {status : Nat} {fault : Bool} (es : xStatus s = .ok status)
    (ef : xFault s = .ok fault) : fault = true ↔ BitVec.ofNat 16 status ≠ 0 := by
  have hlt : status < 65536 := be16_lt es
  simp only [xStatus] at es
  simp only [xFault, es, ok_bind, pure_eq_ok, Except.ok.injEq] at ef
  subst ef
  simp [faultFlag, ← BitVec.toNat_inj, Nat.mod_eq_of_lt hlt]

/-- Every record the extractor computes with a legal pole-pair count is sound. -/
theorem recordSound_of_recordOf {s : State} {r : Record} (hp : s.pp ≠ 0) (e : recordOf s = .ok r) :
    RecordSound s.pp r := by
  simp only [recordOf, bind_eq_ok, pure_eq_ok, Except.ok.injEq] at e
  obtain ⟨_, -, _, -, _, -, _, -, rpm, hrpm, _, -, _, -, _, -, tmos, hmos, tcap, hcap, status, hstatus, fault, hfault,
    rfl⟩ := e
  simp only [xRpm, bind_eq_ok, pure_eq_ok, Except.ok.injEq] at hrpm
  obtain ⟨raw, -, rfl⟩ := hrpm
  exact ⟨xFault_iff_xStatus hstatus hfault, scaleRpm_remainder_lt hp _, ofInt_temperatureAt_of_miss hmos,
    ofInt_temperatureAt_of_miss hcap⟩

/-- A cell holds a value after a write where it is the cell written or held one before. -/
theorem isSome_memRead_memWrite {m : List Host.Cell} {a i : Nat} {v : Byte}
    (h : i = a ∨ (memRead m i).isSome = true) : (memRead (memWrite m a v) i).isSome = true := by
  rw [memRead_memWrite]
  split
  · rfl
  · exact h.resolve_left ‹_›

/-- A cell that holds one byte once it is written keeps to that where no other byte is written into it. -/
theorem memRead_memWrite_eq_or {m : List Host.Cell} {a c : Nat} {v w : Byte}
    (h : memRead m c = none ∨ memRead m c = some w) (hv : a = c → v = w) :
    memRead (memWrite m a v) c = none ∨ memRead (memWrite m a v) c = some w := by
  rw [memRead_memWrite]
  split
  · exact .inr (congrArg some (hv (Eq.symm ‹_›)))
  · exact h

/-- Inside a frame the offset counter does not wrap around. -/
theorem toNat_offset_succ {n : BitVec 5} (h : n.toNat ≤ 22) : (n + 1).toNat = n.toNat + 1 := by bv_omega

/-! ### The invariant under the primitive updates -/

namespace BlockInv

variable {s : State}

theorem fresh (h : BlockInv s) : BlockInv (fresh s) := { h with }
theorem quiet (h : BlockInv s) : BlockInv (quiet s) := { h with }
theorem give (h : BlockInv s) (v : Value) : BlockInv (give v s) := { h with }
theorem emit (h : BlockInv s) (e : Event) : BlockInv (emit e s) := { h with }
theorem setInput (h : BlockInv s) (rest : List Stimulus) : BlockInv (setInput rest s) := { h with }
theorem setPending (h : BlockInv s) (fs : List RegName) : BlockInv (setPending fs s) := { h with }

theorem observeReady (h : BlockInv s) : BlockInv (observeReady s) := { h with readyRecord := fun e => nomatch e }

theorem setReady (h : BlockInv s) (hr : RecordSound s.pp s.record) : BlockInv (setReady s) :=
  { h with
    readyRecord := fun _ => rfl
    faultBit := fun _ => hr.faultBit
    remainder := fun _ => hr.remainder
    mosSentinel := fun _ => hr.mosSentinel
    capSentinel := fun _ => hr.capSentinel }

theorem latchRecord (h : BlockInv s) {r : Record} (hr : RecordSound s.pp r) : BlockInv (latchRecord r s) :=
  { h with
    faultBit := fun _ => hr.faultBit
    remainder := fun _ => hr.remainder
    mosSentinel := fun _ => hr.mosSentinel
    capSentinel := fun _ => hr.capSentinel }

theorem latchChecksums (h : BlockInv s) {rx sum : BitVec 16} (hne : rx ≠ sum) (hlo : 177 ≤ sum.toNat)
    (hhi : sum.toNat ≤ 5277) : BlockInv (latchChecksums rx sum s) :=
  { h with checksums := fun _ => ⟨hne, hlo, hhi⟩ }

/-- `N` moves to an offset below which the cells hold values. -/
theorem setN (h : BlockInv s) {n : BitVec 5} (hn : n.toNat ≤ 23)
    (hc : ∀ i < n.toNat, (memRead s.buf i).isSome = true) : BlockInv (setN n s) :=
  { h with offset := hn, collected := hc }

theorem setN_zero (h : BlockInv s) : BlockInv (Machine.setN 0 s) := h.setN (by simp) (by simp)

/-- A byte is stored; the two header cells take the header bytes alone. -/
theorem putByte (h : BlockInv s) {a : Nat} {v : Byte} (ha : a < 24) (h0 : a = 0 → v = 0x9B) (h1 : a = 1 → v = 0x16) :
    BlockInv (putByte a v s) :=
  { h with
    form := memWf_memWrite s.buf a v ha h.form
    header0 := memRead_memWrite_eq_or h.header0 h0
    header1 := memRead_memWrite_eq_or h.header1 h1
    collected := fun i hi => isSome_memRead_memWrite (.inr (h.collected i hi)) }

theorem forget {q : BitVec 8} {halt : Bool} (hq : halt = false → 1 ≤ q.toNat) (s : State) :
    BlockInv (forget q halt s) where
  form := memWf_nil
  offset := by simp
  poles h := hq (by simpa using h)
  readyRecord h := nomatch h
  faultBit h := nomatch h
  remainder h := nomatch h
  mosSentinel h := nomatch h
  capSentinel h := nomatch h
  checksums h := nomatch h
  header0 := .inl rfl
  header1 := .inl rfl
  collected i h := by simp at h

/-- A decoder's pole-pair count is not zero. -/
theorem pp_ne_zero (h : BlockInv s) (hl : live s = true) : s.pp ≠ 0 := fun e => by
  have := h.poles hl
  simp [e] at this

/-- The byte at `N` is stored and `N` goes up by one: below the new offset the cells hold values. -/
theorem collect (h : BlockInv s) {n : BitVec 5} {a : Nat} {v : Byte} (ha : a = s.n.toNat) (hn : n.toNat = a + 1)
    (hle : a ≤ 22) (h0 : a = 0 → v = 0x9B) (h1 : a = 1 → v = 0x16) :
    BlockInv (Machine.setN n (Machine.putByte a v s)) := by
  refine (h.putByte (by omega) h0 h1).setN (by omega) fun i hi => isSome_memRead_memWrite ?_
  by_cases e : i = a
  · exact .inl e
  · exact .inr (h.collected i (by omega))

/-! ### The invariant under the shared operations -/

theorem raiseMisses (h : BlockInv s) (r : Record) (j k : Byte) : BlockInv (raiseMisses r j k s) := by
  rw [raiseMisses_eq]
  exact { h with }

theorem extract {t : State} (h : BlockInv s) (hl : live s = true) (e : extract s = .ok t) : BlockInv t := by
  simp only [Machine.extract, bind_eq_ok, pure_eq_ok, Except.ok.injEq] at e
  obtain ⟨r, hr, j, _, k, _, rfl⟩ := e
  exact (h.latchRecord (recordSound_of_recordOf (h.pp_ne_zero hl) hr)).raiseMisses r j k

/-- An accepted frame leaves a sound record; of a rejected one two different sums are latched, neither truncated. -/
theorem complete {t : State} (h : BlockInv s) (hl : live s = true) (e : complete s = .ok t) : BlockInv t := by
  obtain ⟨sum, rx, hs, hr, ⟨-, r, j, k, hrec, rfl⟩ | ⟨hne, rfl⟩⟩ := complete_eq_ok e
  · have sound := recordSound_of_recordOf (h.pp_ne_zero hl) hrec
    refine BlockInv.emit (BlockInv.setReady ((h.latchRecord sound).raiseMisses r j k) ?_) _
    rw [raiseMisses_eq]
    exact sound
  · obtain ⟨hlo, hhi⟩ := cksum_bounds hs h.header0 h.header1
    have hrx := receivedSum_lt hr
    have es : (BitVec.ofNat 16 sum).toNat = sum := by rw [BitVec.toNat_ofNat]; omega
    have er : (BitVec.ofNat 16 rx).toNat = rx := by rw [BitVec.toNat_ofNat]; omega
    refine (h.latchChecksums (fun c => hne ?_) (by omega) (by omega)).emit _
    rw [← es, ← er, c]

theorem submitCase {t : State} {b : Byte} (h : BlockInv s) (hl : live s = true) (e : submitCase b s = .ok t) :
    BlockInv t := by
  rcases submitCase_eq_ok e with ⟨hn, -, rfl⟩ | ⟨-, -, rfl⟩ | ⟨hn, -, rfl⟩ | ⟨-, -, rfl⟩ | ⟨h2, h22, rfl⟩ | ⟨hn, e⟩
  · exact h.collect (by simp [hn]) rfl (by omega) (fun _ => rfl) (by omega)
  · exact h
  · exact h.collect (by simp [hn]) rfl (by omega) (by omega) (fun _ => rfl)
  · exact h.setN_zero
  · exact h.collect rfl (toNat_offset_succ h22) h22 (by omega) (by omega)
  · exact complete (h.putByte (by omega) (by omega) (by omega)).setN_zero hl e

theorem submit {t : State} {b : Byte} (h : BlockInv s) (e : submit b s = .ok t) : BlockInv t :=
  h.submitCase (whenLive_eq_ok.mp e).1 (whenLive_eq_ok.mp e).2

/-- Every operation keeps the invariant. -/
theorem exec {i : Instr} {t : State} (h : BlockInv s) (e : exec i s = .next t) : BlockInv t := by
  cases hi : isInit i with
  | true =>
    obtain ⟨v, q, halt, rfl, hq⟩ := exec_init_eq_next hi e
    exact (BlockInv.forget hq _).give v
  | false =>
    cases exec_effect hi e with
    | passes => exact h.fresh
    | returns v => exact h.fresh.give v
    | desyncs => exact h.fresh.setN_zero
    | polls v fs => exact (h.fresh.observeReady.give v).setPending fs
    | submits bs _ e => exact submitAll_keeps (fun _ h => h.quiet) (fun _ _ _ e h => h.submit e) e h.fresh
    | completes hl e => exact h.fresh.complete hl e
    | extracts hl e => exact h.fresh.extract hl e

end BlockInv

/-- Settles O45: no fetch and no operation breaks the invariant, so no step does. -/
theorem everyStepKeepsTheInvariant : Obligations.EveryStepKeepsTheInvariant := by
  unfold Obligations.EveryStepKeepsTheInvariant
  intro s t h e
  exact step_keeps (fun fs left _ h => (h.setInput left).setPending fs) (fun _ h => h.fresh) (fun _ _ _ e h => h.exec e)
    e h

/-- Settles O46: the state after reset is the one `INIT 21` leaves, which forgets all that the invariant speaks of. -/
theorem resetMeetsTheInvariant : Obligations.ResetMeetsTheInvariant := by
  unfold Obligations.ResetMeetsTheInvariant
  have hreset : State.reset = forget Config.ppDefault false powerOn := rfl
  rw [hreset]
  exact .forget (by decide) powerOn

/-! ### What no step changes, or `INIT` alone -/

/-- The canonical form is kept by every primitive update: the one that touches the buffer writes inside it. -/
theorem kept_memWf : Kept fun s => memWf s.buf = true where
  fresh _ h := h
  quiet _ h := h
  give _ _ h := h
  emit _ _ h := h
  observeReady _ h := h
  setN _ _ h := h
  putByte i v s hi h := memWf_memWrite s.buf i v hi h
  latchRecord _ _ h := h
  setReady _ h := h
  latchChecksums _ _ _ h := h

theorem exec_keeps_memWf {i : Instr} {s t : State} (e : exec i s = .next t) (h : memWf s.buf = true) :
    memWf t.buf = true := by
  cases hi : isInit i with
  | true =>
    obtain ⟨v, q, halt, rfl, -⟩ := exec_init_eq_next hi e
    exact memWf_nil
  | false => exact kept_memWf.exec hi (fun _ _ _ h => h) e h

/-- Settles O48: every operation keeps the canonical form, and no fetch touches the buffer. -/
theorem everyStepKeepsTheBufferCanonical : Obligations.EveryStepKeepsTheBufferCanonical := by
  unfold Obligations.EveryStepKeepsTheBufferCanonical
  intro s t h e
  exact step_keeps (R := fun s => memWf s.buf = true) (fun _ _ _ h => h) (fun _ h => h)
    (fun _ _ _ e h => exec_keeps_memWf e h) e h

/-- No primitive update touches the table, the configuration or the count of `INIT`s. -/
theorem kept_parameters (s : State) :
    Kept fun u => u.rom = s.rom ∧ u.pp = s.pp ∧ u.halt = s.halt ∧ u.inits = s.inits := by
  constructor <;> intros <;> assumption

theorem exec_parameters {i : Instr} {s t : State} (hi : isInit i = false) (e : exec i s = .next t) :
    t.rom = s.rom ∧ t.pp = s.pp ∧ t.halt = s.halt ∧ t.inits = s.inits :=
  (kept_parameters s).exec hi (fun _ _ _ h => h) e ⟨rfl, rfl, rfl, rfl⟩

/-- Settles O49: `INIT` forgets everything but the table, and no other operation is made of an update that touches it. -/
theorem tableNeverChanges : Obligations.TableNeverChanges := by
  unfold Obligations.TableNeverChanges
  intro i s t e
  cases hi : isInit i with
  | true =>
    obtain ⟨v, q, halt, rfl, -⟩ := exec_init_eq_next hi e
    rfl
  | false => exact (exec_parameters hi e).1

/-- Settles O50, by the updates every operation but `INIT` is made of. -/
theorem onlyInitConfigures : Obligations.OnlyInitConfigures := by
  unfold Obligations.OnlyInitConfigures
  exact fun i s t hi e => (exec_parameters hi e).2

/-! ### The flags -/

/-- What has become of the flags of `s` in `u`, no `INIT` and no poll between: they stay up, and `READY` is newly up only
with a `RecordReady` among the events. -/
structure FlagsRise (s u : State) : Prop where
  readyStays : s.ready = true → u.ready = true
  recValidStays : s.recValid = true → u.recValid = true
  ckValidStays : s.ckValid = true → u.ckValid = true
  readyRises : s.ready = false → u.ready = true → .recordReady ∈ u.events

namespace FlagsRise

variable {s u t : State}

theorem refl_fresh (s : State) : FlagsRise s (fresh s) where
  readyStays h := h
  recValidStays h := h
  ckValidStays h := h
  readyRises h h' := by simp [h] at h'

/-- An update that leaves the flags and only adds events. -/
theorem mono (h : FlagsRise s u) (hr : t.ready = u.ready) (hv : t.recValid = u.recValid) (hc : t.ckValid = u.ckValid)
    (he : u.events ⊆ t.events) : FlagsRise s t where
  readyStays e := hr.trans (h.readyStays e)
  recValidStays e := hv.trans (h.recValidStays e)
  ckValidStays e := hc.trans (h.ckValidStays e)
  readyRises e e' := he (h.readyRises e (hr.symm.trans e'))

/-- An update that leaves the flags and the events. -/
theorem same (h : FlagsRise s u) (hr : t.ready = u.ready) (hv : t.recValid = u.recValid) (hc : t.ckValid = u.ckValid)
    (he : t.events = u.events) : FlagsRise s t := h.mono hr hv hc (he ▸ List.Subset.refl _)

theorem extract (h : FlagsRise s u) (e : extract u = .ok t) : FlagsRise s t := by
  simp only [Machine.extract, bind_eq_ok, pure_eq_ok, Except.ok.injEq] at e
  obtain ⟨r, -, j, -, k, -, rfl⟩ := e
  rw [raiseMisses_eq]
  exact h.mono rfl rfl rfl (List.subset_append_left _ _)

/-- The one place where `READY` rises: the `RecordReady` of an accepted frame follows it. -/
theorem accept (h : FlagsRise s u) (e : accept u = .ok t) : FlagsRise s t := by
  simp only [Machine.accept, bind_eq_ok, pure_eq_ok, Except.ok.injEq] at e
  obtain ⟨w, hw, rfl⟩ := e
  have hw := h.extract hw
  exact ⟨fun _ => rfl, fun _ => rfl, hw.ckValidStays, fun _ _ => by simp⟩

theorem reject (h : FlagsRise s u) (rx sum : Nat) : FlagsRise s (reject rx sum u) :=
  ⟨h.readyStays, h.recValidStays, fun _ => rfl, fun e e' => List.subset_append_left _ _ (h.readyRises e e')⟩

theorem complete (h : FlagsRise s u) (e : complete u = .ok t) : FlagsRise s t := by
  simp only [Machine.complete, bind_eq_ok] at e
  obtain ⟨sum, -, rx, -, e⟩ := e
  split at e
  · exact h.accept e
  · cases e
    exact h.reject rx sum

theorem submit {b : Byte} (h : FlagsRise s u) (e : submit b u = .ok t) : FlagsRise s t := by
  rcases submitCase_eq_ok (whenLive_eq_ok.mp e).2 with ⟨-, -, rfl⟩ | ⟨-, -, rfl⟩ | ⟨-, -, rfl⟩ | ⟨-, -, rfl⟩ |
    ⟨-, -, rfl⟩ | ⟨-, e⟩
  · exact h.same rfl rfl rfl rfl
  · exact h
  · exact h.same rfl rfl rfl rfl
  · exact h.same rfl rfl rfl rfl
  · exact h.same rfl rfl rfl rfl
  · exact complete (h.same (t := Machine.setN 0 (Machine.putByte 23 b u)) rfl rfl rfl rfl) e

end FlagsRise

/-- What an operation other than `INIT` makes of the flags: they rise, or a poll clears `READY` alone. -/
theorem Effect.flags {i : Instr} {s t : State} (h : Effect i s t) : FlagsRise s t ∨
    ((i = .isready ∨ i = .take ∨ i = .pollread) ∧ t.ready = false ∧ t.recValid = s.recValid ∧ t.ckValid = s.ckValid) := by
  have hf := FlagsRise.refl_fresh s
  cases h with
  | passes => exact .inl hf
  | returns v => exact .inl (hf.same rfl rfl rfl rfl)
  | desyncs => exact .inl (hf.same rfl rfl rfl rfl)
  | polls v fs hi => exact .inr ⟨hi, rfl, rfl, rfl⟩
  | submits bs _ e =>
    exact .inl (submitAll_keeps (fun _ h => h.same rfl rfl rfl rfl) (fun _ _ _ e h => h.submit e) e hf)
  | completes _ e => exact .inl (hf.complete e)
  | extracts _ e => exact .inl (hf.extract e)

/-- Settles O51: `INIT` clears the flags, and of the other operations only the polls do not let them rise. -/
theorem readyRisesOnlyWithRecordReady : Obligations.ReadyRisesOnlyWithRecordReady := by
  unfold Obligations.ReadyRisesOnlyWithRecordReady
  intro i s t e
  cases hi : isInit i with
  | true =>
    obtain ⟨v, q, halt, rfl, -⟩ := exec_init_eq_next hi e
    simp
  | false =>
    obtain h | ⟨hpoll, hready, hrec, hck⟩ := (exec_effect hi e).flags
    · refine ⟨h.readyRises, fun a b => ?_, fun a b => ?_, fun a b => ?_⟩
      · simp [h.readyStays a] at b
      · simp [h.recValidStays a] at b
      · simp [h.ckValidStays a] at b
    · simp [hready, hrec, hck, hpoll]

/-! ### The buffer -/

/-- Extraction reads the buffer and leaves it. -/
theorem extract_buf {s t : State} (e : extract s = .ok t) : t.buf = s.buf := by
  simp only [extract, bind_eq_ok, pure_eq_ok, Except.ok.injEq] at e
  obtain ⟨r, -, j, -, k, -, rfl⟩ := e
  rw [raiseMisses_eq]
  rfl

/-- Completion reads the buffer and leaves it, with `N`, `PP` and `HALT`. -/
theorem complete_frame {s t : State} (e : complete s = .ok t) :
    t.buf = s.buf ∧ t.n = s.n ∧ t.pp = s.pp ∧ t.halt = s.halt := by
  obtain ⟨sum, rx, -, -, ⟨-, r, j, k, -, rfl⟩ | ⟨-, rfl⟩⟩ := complete_eq_ok e
  · rw [raiseMisses_eq]
    exact ⟨rfl, rfl, rfl, rfl⟩
  · exact ⟨rfl, rfl, rfl, rfl⟩

/-- An operation that is no `INIT` and may not store leaves the whole buffer. -/
theorem Effect.buf {i : Instr} {s t : State} (hi : mayStore i = false) (h : Effect i s t) : t.buf = s.buf := by
  cases h with
  | passes => rfl
  | returns v => rfl
  | desyncs => rfl
  | polls v fs => rfl
  | submits bs hs => simp [hi] at hs
  | completes _ e => exact (complete_frame (s := fresh s) e).1
  | extracts _ e => exact extract_buf (s := fresh s) e

theorem isInit_of_mayStore {i : Instr} (h : mayStore i = false) : isInit i = false := by
  cases hi : isInit i with
  | false => rfl
  | true =>
    obtain ⟨pp, rfl⟩ := isInit_eq_true.mp hi
    cases h

/-- The dispatch of `SUBMIT` leaves every cell but the one at `N`. -/
theorem submitCase_other_cells {s t : State} {b : Byte} (e : submitCase b s = .ok t) {a : Nat} (ha : a ≠ s.n.toNat) :
    memRead t.buf a = memRead s.buf a := by
  rcases submitCase_eq_ok e with ⟨hn, -, rfl⟩ | ⟨-, -, rfl⟩ | ⟨hn, -, rfl⟩ | ⟨-, -, rfl⟩ | ⟨-, -, rfl⟩ | ⟨hn, e⟩
  · exact memRead_memWrite_other _ _ (by simpa [hn] using ha)
  · rfl
  · exact memRead_memWrite_other _ _ (by simpa [hn] using ha)
  · rfl
  · exact memRead_memWrite_other _ _ ha
  · rw [(complete_frame e).1]
    exact memRead_memWrite_other _ _ (by simpa [hn] using ha)

/-- Settles O53, by the effects of the operations that may not store and the six cases of `SUBMIT`. -/
theorem bufferIsWrittenOnlyBySubmitAtTheOffset : Obligations.BufferIsWrittenOnlyBySubmitAtTheOffset := by
  unfold Obligations.BufferIsWrittenOnlyBySubmitAtTheOffset
  refine ⟨fun i s t hi e => (exec_effect (isInit_of_mayStore hi) e).buf hi, fun s t b e a ha => ?_⟩
  exact submitCase_other_cells (whenLive_eq_ok.mp (answer_eq_next.mp e)).2 ha

/-! ### The offset counter -/

/-- Settles O17, by the six cases of the dispatch: five move `N` and store at most a byte, the sixth completes. -/
theorem submitMovesTheOffsetByTheDocumentsStates : Obligations.SubmitMovesTheOffsetByTheDocumentsStates := by
  unfold Obligations.SubmitMovesTheOffsetByTheDocumentsStates
  intro s t b e
  have hcases := submitCase_eq_ok (whenLive_eq_ok.mp (answer_eq_next.mp e)).2
  rw [fresh_n] at hcases
  rcases hcases with ⟨hn, rfl, rfl⟩ | ⟨hn, hb, rfl⟩ | ⟨hn, rfl, rfl⟩ | ⟨hn, hb, rfl⟩ | ⟨h2, h22, rfl⟩ | ⟨hn, e⟩
  · simp [hn]
  · simpa [hn] using hb
  · simp [hn]
  · simpa [hn] using hb
  · have hne : ∀ k : BitVec 5, k.toNat < 2 ∨ 22 < k.toNat → s.n ≠ k := fun k hk c => by rw [c] at h2 h22; omega
    have h0 := hne 0 (by decide)
    have h1 := hne 1 (by decide)
    have h23 := hne 23 (by decide)
    exact ⟨fun h => absurd h h0, fun h => absurd h h0, fun h => absurd h h1, fun h => absurd h h1,
      fun _ _ => toNat_offset_succ h22, fun h => absurd h h23, by omega, rfl, rfl, fun _ => ⟨rfl, rfl, rfl, rfl, rfl, rfl⟩⟩
  · obtain ⟨-, htn, hpp, hhalt⟩ := complete_frame e
    simp [hn, htn, hpp, hhalt]

/-! ### Without a decoder -/

/-- An operation that needs a decoder is refused without one. -/
theorem answer_whenLive_of_dead {s : State} (hl : live s = false) (r : Res State) :
    answer (whenLive s r) = .refused .noDecoder := by
  rw [whenLive_of_dead hl, answer_refuse]

theorem readReg_of_dead {s : State} (hl : live s = false) {f : RegName} (h : f ≠ .halt ∨ s.inits = 0) :
    readReg f s = .error (.refuse .noDecoder) := by
  rw [readReg, if_neg (by tauto), whenLive_of_dead hl]

theorem pollRead_of_dead {s : State} (hl : live s = false) : pollRead s = .error (.refuse .noDecoder) := by
  rw [pollRead, isReady, whenLive_of_dead hl, error_bind]

/-- Every operation but `INIT` and `READ HALT` needs a decoder. -/
theorem exec_of_dead {s : State} (hl : live s = false) {i : Instr} (hi : isInit i = false) (hh : i ≠ .read .halt) :
    exec i s = .refused .noDecoder := by
  have hf : live (fresh s) = false := hl
  cases i with
  | init pp => cases hi
  | read f => rw [exec, execRead, readReg_of_dead hf (.inl fun h => hh (h ▸ rfl)), answer_refuse]
  | pollread => rw [exec, execPollread, pollRead_of_dead hf, answer_refuse]
  | take | isready | idle | submit b => exact answer_whenLive_of_dead hf _
  | sync0 | skip b | sync1 | desync b | store n b | final b | complete | accept | reject | extract | bytes bs | frame p
  | framef x | cksum | decode c | xSeq | xFcnt | xThrIn | xThrOut | xRpm | xVbus | xIbus | xIph | xTmos | xTcap | xStatus
  | xFault => exact answer_whenLive_of_dead hl _

/-- `READ HALT` answers once an `INIT` has been issued, with or without a decoder. -/
theorem exec_read_halt {s : State} (hi : s.inits ≠ 0) : exec (.read .halt) s = .next (give (.bit s.halt) (fresh s)) := by
  rw [exec, execRead, readReg, if_pos ⟨rfl, by simpa using hi⟩]
  rfl

theorem live_congr {s t : State} (hi : t.inits = s.inits) (hh : t.halt = s.halt) : live t = live s := by
  rw [live, live, hi, hh]

/-- The decoder on the pins of one cycle, no `READ` being selected. -/
theorem decode_hostWord (cmd : BitVec 4) (cfg b : Byte) :
    ∃ left, decode (hostWord (cmd.setWidth 8) cfg b 0) = .ok (strobeInstr cmd cfg b, left) := by
  have hlt : ¬ 16 ≤ (cmd.setWidth 8).toNat := by
    rw [BitVec.toNat_setWidth]
    omega
  have hcmd : (cmd.setWidth 8).setWidth 4 = cmd := by
    rw [BitVec.setWidth_setWidth_of_le _ (by omega), BitVec.setWidth_eq]
  simp only [decode, hostWord, if_neg hlt, hcmd, decodeHostCmd, true_or, if_true]
  exact ⟨_, rfl⟩

/-- Without `rst` the pins ask for one of the operations that are ignored without a decoder. -/
theorem isStrobe_strobeInstr {cmd : BitVec 4} (h : cmd &&& 0x8 = 0) (cfg b : Byte) :
    isStrobe (strobeInstr cmd cfg b) = true := by
  have hinit : ∀ c : BitVec 4, c &&& 0x8 = 0 → firstStrobe c ≠ .init := by decide
  have hne := hinit cmd h
  unfold strobeInstr
  cases hs : firstStrobe cmd with
  | init => exact absurd hs hne
  | take | isready | submit | idle => rfl

/-- The pins without `rst` are passed over without a decoder. -/
theorem fetch_strobes_of_dead {s : State} (hl : live s = false) {cmd : BitVec 4} {cfg b : Byte} {rest : List Stimulus}
    (h : cmd &&& 0x8 = 0) (hin : s.input = .word (hostWord (cmd.setWidth 8) cfg b 0) :: rest) :
    ∃ left, fetch s = .ignore (setInput left s) := by
  obtain ⟨left, hd⟩ := decode_hostWord cmd cfg b
  refine ⟨putBack left rest, ?_⟩
  have hw : wordOf s (hostWord (cmd.setWidth 8) cfg b 0) = .ok (hostWord (cmd.setWidth 8) cfg b 0) := rfl
  have hign : (hostWord (cmd.setWidth 8) cfg b 0).format = .hostCmd4 ∧ isStrobe (strobeInstr cmd cfg b) = true ∧
      live s = false := ⟨rfl, isStrobe_strobeInstr h cfg b, hl⟩
  simp only [fetch, hin, fetchWord, hw, hd, if_pos hign]

/-- Settles O3: every operation but two begins by asking for a decoder, none but `INIT` writes what makes one, and the pins
without `rst` name no operation but those ignored. -/
theorem noDecoderRefusesHostOperations : Obligations.NoDecoderRefusesHostOperations := by
  unfold Obligations.NoDecoderRefusesHostOperations
  intro s hl
  refine ⟨fun i hi hh => exec_of_dead hl hi hh, fun h0 => ?_, fun h0 => ?_, fun i t hi e => ?_, ?_, ?_,
    fun cmd cfg b rest h hin => ?_⟩
  · rw [exec, execRead, readReg_of_dead (s := fresh s) hl (.inr h0), answer_refuse]
  · have hhalt : s.halt = true := by simpa [live, h0] using hl
    have e := exec_read_halt h0
    rw [hhalt] at e
    exact e
  · obtain ⟨-, -, hhalt, hinits⟩ := exec_parameters hi e
    rw [live_congr hinits hhalt, hl]
  · simp [outputs, hl]
  · simp [outputs, hl]
  · obtain ⟨left, hf⟩ := fetch_strobes_of_dead hl h hin
    exact ⟨left, step_of_ignore hf⟩

end Sys2Proof.Machine

/-! The proofs about the step and its memory (20_memory.md): that no computation raises the fault an offset outside the
buffer would, that the record changes with a `RecordReady` alone, and what a step makes of the input the host presents. -/

namespace Sys2Proof.Machine

/-! ### Nothing faults -/

/-- The computation answers or is refused; it raises no fault. -/
def NeverFaults {α : Type} (x : Res α) : Prop := ∀ f : Fault, x ≠ .error (.fault f)

section Sequencing

variable {α β : Type} {x : Res α} {f : α → Res β}

theorem neverFaults_ok (v : α) : NeverFaults (.ok v : Res α) := fun _ h => nomatch h

theorem neverFaults_refuse (r : Refusal) : NeverFaults (.error (.refuse r) : Res α) := fun _ h => nomatch h

theorem NeverFaults.bind (hx : NeverFaults x) (hf : ∀ v, NeverFaults (f v)) : NeverFaults (x >>= f) := by
  intro d e
  obtain e | ⟨v, -, e⟩ := bind_eq_error.mp e
  · exact hx d e
  · exact hf v d e

/-- A value computed from what a computation answers. -/
theorem NeverFaults.map (hx : NeverFaults x) (g : α → β) : NeverFaults (x >>= fun v => pure (g v)) :=
  hx.bind fun v => neverFaults_ok (g v)

theorem NeverFaults.ite {c : Prop} [Decidable c] {y : Res α} (hx : c → NeverFaults x) (hy : NeverFaults y) :
    NeverFaults (if c then x else y) := by
  split
  · exact hx ‹c›
  · exact hy

/-- A computation that reads cells of the buffer is refused where one holds no value, and has no other way to stop. -/
theorem ReadsCells.neverFaults {m : List Host.Cell} {cells : List Nat} (hx : ReadsCells m cells x) : NeverFaults x := by
  obtain ⟨-, v, rfl⟩ | ⟨r, -, rfl⟩ := hx
  · exact neverFaults_ok v
  · exact neverFaults_refuse r

end Sequencing

theorem NeverFaults.whenLive {s : State} {r : Res State} (hr : NeverFaults r) : NeverFaults (whenLive s r) :=
  .ite (fun _ => hr) (neverFaults_refuse _)

/-- A case asked for on its own may count on its select condition. -/
theorem NeverFaults.whenSelected {c : Bool} {m : String} {s : State} {r : Res State} (hr : c = true → NeverFaults r) :
    NeverFaults (whenSelected c m s r) := .whenLive (.ite hr (neverFaults_refuse _))

theorem NeverFaults.answer {r : Res State} (hr : NeverFaults r) (x : Fault) : answer r ≠ .fault x :=
  fun h => hr x (answer_eq_fault.mp h)

/-- A function operation wraps the value of its computation and returns it: it faults only where the computation does. -/
theorem NeverFaults.answerFunction {α : Type} {f : State → Res α} {wrap : α → Value} {s : State}
    (hf : NeverFaults (f s)) (x : Fault) :
    answerFunction (fun s => do let v ← f s; return wrap v) s ≠ .fault x :=
  ((hf.map wrap).map fun v => give v (fresh s)).whenLive.answer x

/-- The record's functions read inside the buffer. -/
theorem recordOf_neverFaults (s : State) : NeverFaults (recordOf s) :=
  (sequenceMarker_readsCells s).neverFaults.bind fun _ =>
  (be16_readsCells s (i := 4) (by omega)).neverFaults.bind fun _ =>
  (throttle_readsCells s (i := 6) (by omega)).neverFaults.bind fun _ =>
  (throttle_readsCells s (i := 8) (by omega)).neverFaults.bind fun _ =>
  (xRpm_readsCells s).neverFaults.bind fun _ =>
  (be16_readsCells s (i := 12) (by omega)).neverFaults.bind fun _ =>
  (be16_readsCells s (i := 14) (by omega)).neverFaults.bind fun _ =>
  (be16_readsCells s (i := 16) (by omega)).neverFaults.bind fun _ =>
  (temperatureAt_readsCells s (i := 18) (by omega)).neverFaults.bind fun _ =>
  (temperatureAt_readsCells s (i := 19) (by omega)).neverFaults.bind fun _ =>
  (be16_readsCells s (i := 20) (by omega)).neverFaults.bind fun _ =>
  (xFault_readsCells s).neverFaults.map _

theorem extract_neverFaults (s : State) : NeverFaults (extract s) :=
  (recordOf_neverFaults s).bind fun _ => (bufRead_readsCells s (by omega)).neverFaults.bind fun _ =>
    (bufRead_readsCells s (by omega)).neverFaults.map _

theorem accept_neverFaults (s : State) : NeverFaults (accept s) := (extract_neverFaults s).map _

/-- `COMPLETE`, `ACCEPT` and `REJECT` do not fault in reading the two sums they compare. -/
theorem bothSums_neverFaults {s : State} {k : Nat → Nat → Res State} (hk : ∀ sum rx, NeverFaults (k sum rx)) :
    NeverFaults (cksum s >>= fun sum => receivedSum s >>= k sum) :=
  (cksum_readsCells s).neverFaults.bind fun sum => (receivedSum_readsCells s).neverFaults.bind (hk sum)

theorem complete_neverFaults (s : State) : NeverFaults (complete s) :=
  bothSums_neverFaults fun _ _ => .ite (fun _ => accept_neverFaults s) (neverFaults_ok _)

/-- `STORE` writes at `N`, which its select condition keeps inside the buffer. -/
theorem store_neverFaults {s : State} (h : s.n.toNat ≤ 22) (b : Byte) : NeverFaults (store b s) := by
  rw [store_eq h]
  exact neverFaults_ok _

/-- The select condition of `STORE` keeps `N` inside the frame. -/
theorem offset_le_of_selected {s : State} {n : BitVec 5}
    (h : (s.n == n && decide (2 ≤ n.toNat) && decide (n.toNat ≤ 22)) = true) : (fresh s).n.toNat ≤ 22 := by
  simp only [Bool.and_eq_true, beq_iff_eq, decide_eq_true_eq] at h
  obtain ⟨⟨hn, -⟩, h22⟩ := h
  rwa [fresh_n, hn]

theorem final_neverFaults (s : State) (b : Byte) : NeverFaults (final b s) := by
  rw [final_eq]
  exact complete_neverFaults _

theorem submitCase_neverFaults (s : State) (b : Byte) : NeverFaults (submitCase b s) :=
  .ite (fun _ => neverFaults_ok _) <| .ite (fun _ => neverFaults_ok _) <| .ite (fun _ => neverFaults_ok _) <|
  .ite (fun _ => neverFaults_ok _) <| .ite (fun h => store_neverFaults h.2 b) <|
  .ite (fun _ => final_neverFaults s b) <| neverFaults_refuse _

theorem submit_neverFaults (s : State) (b : Byte) : NeverFaults (submit b s) := (submitCase_neverFaults s b).whenLive

theorem submitAll_neverFaults (bs : List Byte) (s : State) : NeverFaults (submitAll bs s) := by
  induction bs generalizing s with
  | nil => exact neverFaults_ok s
  | cons b bs ih => exact (submit_neverFaults _ b).bind ih

theorem readReg_neverFaults (f : RegName) (s : State) : NeverFaults (readReg f s) :=
  .ite (fun _ => neverFaults_ok _) <| .whenLive <| .ite (fun _ => neverFaults_refuse _) <|
  .ite (fun _ => neverFaults_refuse _) <| neverFaults_ok _

theorem pollRead_neverFaults (s : State) : NeverFaults (pollRead s) := (neverFaults_ok _).whenLive.map _

/-- No operation faults: each is a `NeverFaults` computation behind the decoder's existence or its select condition. -/
theorem exec_ne_fault (i : Instr) (s : State) (x : Fault) : exec i s ≠ .fault x :=
  match i with
  | .init _ => (neverFaults_ok _).answer x
  | .take | .isready | .idle => (neverFaults_ok _).whenLive.answer x
  | .submit b => (submit_neverFaults _ b).answer x
  | .read f => (readReg_neverFaults f _).answer x
  | .sync0 | .skip _ | .sync1 | .desync _ => (NeverFaults.whenSelected fun _ => neverFaults_ok _).answer x
  | .final b => (NeverFaults.whenSelected fun _ => final_neverFaults _ b).answer x
  | .store _ b => (NeverFaults.whenSelected fun h => store_neverFaults (offset_le_of_selected h) b).answer x
  | .complete => (complete_neverFaults _).whenLive.answer x
  | .accept =>
    (bothSums_neverFaults fun _ _ => .ite (fun _ => accept_neverFaults _) (neverFaults_refuse _)).whenLive.answer x
  | .reject =>
    (bothSums_neverFaults fun _ _ => .ite (fun _ => neverFaults_refuse _) (neverFaults_ok _)).whenLive.answer x
  | .extract => (extract_neverFaults _).whenLive.answer x
  | .cksum => (cksum_readsCells s).neverFaults.answerFunction x
  | .xSeq => (sequenceMarker_readsCells s).neverFaults.answerFunction x
  | .xFcnt | .xVbus | .xIbus | .xIph | .xStatus => (be16_readsCells s (by omega)).neverFaults.answerFunction x
  | .xThrIn | .xThrOut => (throttle_readsCells s (by omega)).neverFaults.answerFunction x
  | .xRpm => (xRpm_readsCells s).neverFaults.answerFunction x
  | .xTmos | .xTcap => (temperatureAt_readsCells s (by omega)).neverFaults.answerFunction x
  | .xFault => (xFault_readsCells s).neverFaults.answerFunction x
  | .decode _ => (neverFaults_ok _).whenLive.answer x
  | .bytes bs => (submitAll_neverFaults bs _).whenLive.answer x
  | .frame p => (submitAll_neverFaults (frameBytes p) _).whenLive.answer x
  | .framef y => (submitAll_neverFaults (frameBytes (payloadOf y)) _).whenLive.answer x
  | .pollread => (pollRead_neverFaults _).answer x

/-- A frame word is read from the buffer, inside it. -/
theorem readBytes_neverFaults (s : State) {k : Nat} (hk : k ≤ 24) : NeverFaults (readBytes s k) := by
  induction k with
  | zero => exact neverFaults_ok []
  | succ k ih => exact (ih (by omega)).bind fun _ => (bufRead_readsCells s (by omega)).neverFaults.map _

/-- A word that is no frame's is its own bytes. -/
theorem wordOf_of_ne_frame24 (s : State) {p : Packet} (hp : p.format ≠ .frame24) : wordOf s p = .ok p := by
  unfold wordOf
  split
  · exact absurd ‹_› hp
  all_goals rfl

theorem wordOf_neverFaults (s : State) (p : Packet) : NeverFaults (wordOf s p) := by
  by_cases hp : p.format = .frame24
  · simp only [wordOf, hp]
    exact (readBytes_neverFaults s (by decide)).map _
  · rw [wordOf_of_ne_frame24 s hp]
    exact neverFaults_ok p

theorem fetchWord_ne_fault (s : State) (p : Packet) (rest : List Stimulus) (x : Fault) :
    fetchWord s p rest ≠ .stop (.fault x) := by
  unfold fetchWord
  split
  · rename_i e he
    exact fun h => wordOf_neverFaults s p x (by rw [he, Fetched.stop.inj h])
  · split
    · simp
    · dsimp only
      split <;> simp

theorem fetchPending_ne_fault (s : State) (rest : List Stimulus) (x : Fault) :
    fetchPending s rest ≠ .stop (.fault x) := by
  unfold fetchPending
  split
  · simp
  · exact fetchWord_ne_fault s _ rest x

theorem fetch_ne_fault (s : State) (x : Fault) : fetch s ≠ .stop (.fault x) := by
  unfold fetch
  split
  · exact fetchPending_ne_fault s _ x
  · exact fetchPending_ne_fault s _ x
  · exact fetchWord_ne_fault s _ _ x
  · split <;> simp

/-- Settles O55: every access to the buffer lies inside it, in the operations and in the fetch of a frame word. -/
theorem nothingEverFaults : Obligations.NothingEverFaults := by
  unfold Obligations.NothingEverFaults
  refine ⟨exec_ne_fault, fun s x h => ?_⟩
  cases hf : fetch s with
  | run i t => exact exec_ne_fault i t x (by rw [← step_of_run hf, h])
  | ignore t => cases (step_of_ignore hf).symm.trans h
  | stop y =>
    have hy := answer_eq_fault.mp ((step_of_stop hf).symm.trans h)
    exact fetch_ne_fault s x (by rw [hf, Except.error.inj hy])

/-! ### The record is a snapshot -/

/-- As long as no `RecordReady` is among the events of `u`, its record and `REC_VALID` are those of `s`. -/
def RecordKept (s u : State) : Prop :=
  .recordReady ∉ u.events → u.record = s.record ∧ u.recValid = s.recValid

namespace RecordKept

variable {s u t : State}

/-- Whatever an accepted frame writes, its `RecordReady` is there. -/
theorem accept (e : accept u = .ok t) : RecordKept s t := by
  simp only [Machine.accept, bind_eq_ok, pure_eq_ok, Except.ok.injEq] at e
  obtain ⟨w, -, rfl⟩ := e
  exact fun hne => absurd (by simp) hne

theorem reject (h : RecordKept s u) (rx sum : Nat) : RecordKept s (reject rx sum u) := fun hne =>
  h fun hmem => hne (List.mem_append_left _ hmem)

theorem complete (h : RecordKept s u) (e : complete u = .ok t) : RecordKept s t := by
  simp only [Machine.complete, bind_eq_ok] at e
  obtain ⟨sum, -, rx, -, e⟩ := e
  split at e
  · exact accept e
  · cases e
    exact h.reject rx sum

theorem submit {b : Byte} (h : RecordKept s u) (e : submit b u = .ok t) : RecordKept s t := by
  rcases submitCase_eq_ok (whenLive_eq_ok.mp e).2 with ⟨-, -, rfl⟩ | ⟨-, -, rfl⟩ | ⟨-, -, rfl⟩ | ⟨-, -, rfl⟩ |
    ⟨-, -, rfl⟩ | ⟨-, e⟩
  · exact h
  · exact h
  · exact h
  · exact h
  · exact h
  · exact complete (u := Machine.setN 0 (Machine.putByte 23 b u)) h e

end RecordKept

/-- Every operation but `INIT` and `EXTRACT` keeps the record or emits a `RecordReady`. -/
theorem exec_recordKept {i : Instr} {s t : State} (hi : isInit i = false) (hx : i ≠ .extract)
    (e : exec i s = .next t) : RecordKept s t := by
  have hf : RecordKept s (fresh s) := fun _ => ⟨rfl, rfl⟩
  cases i with
  | init pp => cases hi
  | extract => exact absurd rfl hx
  | take | isready | idle =>
    obtain ⟨-, h⟩ := whenLive_eq_ok.mp (answer_eq_next.mp e)
    cases h
    exact hf
  | read f =>
    rw [readReg_eq_ok (answer_eq_next.mp e)]
    exact hf
  | pollread =>
    obtain ⟨-, rfl⟩ := pollRead_eq_ok.mp (answer_eq_next.mp e)
    split
    · exact hf
    · exact hf
  | submit b => exact hf.submit (answer_eq_next.mp e)
  | sync0 | skip b | sync1 | desync b =>
    obtain ⟨-, -, h⟩ := whenSelected_eq_ok.mp (answer_eq_next.mp e)
    cases h
    exact hf
  | store n b =>
    obtain ⟨-, hsel, h⟩ := whenSelected_eq_ok.mp (answer_eq_next.mp e)
    rw [store_eq (offset_le_of_selected hsel)] at h
    cases h
    exact hf
  | final b =>
    obtain ⟨-, -, h⟩ := whenSelected_eq_ok.mp (answer_eq_next.mp e)
    exact RecordKept.complete (u := setN 0 (putByte 23 b (fresh s))) hf (final_eq _ b ▸ h)
  | bytes bs | frame p | framef x =>
    obtain ⟨-, h⟩ := execChunk_eq_next.mp e
    exact submitAll_keeps (fun _ h => h) (fun _ _ _ e h => RecordKept.submit h e) h hf
  | complete =>
    obtain ⟨-, h⟩ := whenLive_eq_ok.mp (answer_eq_next.mp e)
    exact hf.complete h
  | accept =>
    simp only [exec, execAccept, answer_eq_next, whenLive_eq_ok, bind_eq_ok] at e
    obtain ⟨-, sum, -, rx, -, h⟩ := e
    split at h
    · exact .accept h
    · cases h
  | reject =>
    simp only [exec, execReject, answer_eq_next, whenLive_eq_ok, bind_eq_ok] at e
    obtain ⟨-, sum, -, rx, -, h⟩ := e
    split at h
    · cases h
    · cases h
      exact hf.reject rx sum
  | cksum | decode c | xSeq | xFcnt | xThrIn | xThrOut | xRpm | xVbus | xIbus | xIph | xTmos | xTcap | xStatus
  | xFault =>
    obtain ⟨-, h⟩ := whenLive_eq_ok.mp (answer_eq_next.mp e)
    obtain ⟨v, -, h⟩ := bind_eq_ok.mp h
    cases h
    exact hf

/-- Settles O52: only an accepted frame writes the record, `EXTRACT` on its own apart, and it emits a `RecordReady`. -/
theorem recordIsASnapshot : Obligations.RecordIsASnapshot := by
  unfold Obligations.RecordIsASnapshot
  exact fun i s t e hi hx => exec_recordKept hi hx e

/-! ### What a step makes of the input -/

/-- A word that is not passed over as a strobe without a decoder runs the operation it decodes to. -/
theorem fetchWord_of_decode {s : State} {p q : Packet} {i : Instr} {left : Option Packet} (rest : List Stimulus)
    (hq : wordOf s p = .ok q) (hd : decode q = .ok (i, left))
    (hrun : live s = true ∨ isStrobe i = false ∨ p.format ≠ .hostCmd4) :
    fetchWord s p rest = .run i (setInput (putBack left rest) s) := by
  have hn : ¬ (p.format = .hostCmd4 ∧ isStrobe i = true ∧ live s = false) := by
    rintro ⟨hf, hi, hl⟩
    simp [hf, hi, hl] at hrun
  simp only [fetchWord, hq, hd, if_neg hn]

theorem step_word {s : State} {p q : Packet} {i : Instr} {left : Option Packet} {rest : List Stimulus}
    (hin : s.input = .word p :: rest) (hq : wordOf s p = .ok q) (hd : decode q = .ok (i, left))
    (hrun : live s = true ∨ isStrobe i = false ∨ p.format ≠ .hostCmd4) :
    step s = exec i (setInput (putBack left rest) s) :=
  step_of_run (by simp only [fetch, hin, fetchWord_of_decode rest hq hd hrun])

/-- A frame word's first 24 bytes are the buffer's. -/
theorem wordOf_frame24 {s : State} {p : Packet} {bs : List Byte} (hp : p.format = .frame24)
    (hb : readBytes s 24 = .ok bs) : wordOf s p = .ok { p with bytes := bs ++ p.bytes.drop 24 } := by
  simp only [wordOf, hp, hb, ok_bind, pure_eq_ok]

/-- With no `READ` to make, the cycle without a strobe is an `IDLE`. -/
theorem fetchPending_of_nil {s : State} (hp : s.pending = []) (hl : live s = true) (rest : List Stimulus) :
    fetchPending s rest = .run .idle (setInput rest s) := by
  rw [fetchPending, hp]
  exact fetchWord_of_decode (q := hostWord 0 0 0 0) (left := none) rest rfl rfl (.inl hl)

/-- Settles O59, by what the fetch makes of each kind of input. -/
theorem stepRunsTheDecodedInstruction : Obligations.StepRunsTheDecodedInstruction := by
  unfold Obligations.StepRunsTheDecodedInstruction
  refine ⟨fun s p i left rest hin hp hd hrun => step_word hin (wordOf_of_ne_frame24 s hp) hd hrun,
    fun s p i left rest bs hin hp hb hd => step_word hin (wordOf_frame24 hp hb) hd (.inr (.inr (by simp [hp]))),
    fun s i rest hin hw => step_of_run (by simp only [fetch, hin, if_pos hw]; rfl),
    fun s hp hl => ⟨fun hin => ?_, fun rest hin => ?_⟩⟩
  · have hself : setInput [] s = s := by rw [← hin]; rfl
    exact step_of_run (by rw [fetch, hin, ← hself]; exact fetchPending_of_nil hp hl [])
  · exact step_of_run (by rw [fetch, hin]; exact fetchPending_of_nil hp hl rest)

/-! ### The strobes of one cycle -/

/-- The order of the strobes: `rst`, `take`, `poll`, `in_valid` (R101). -/
theorem firstStrobe_eq : ∀ cmd : BitVec 4, firstStrobe cmd =
    if cmd.getLsbD 3 then .init else if cmd.getLsbD 2 then .take else if cmd.getLsbD 1 then .isready
    else if cmd.getLsbD 0 then .submit else .idle := by decide

/-- Only an `in_valid` behind a `take` or a `poll`, without `rst`, is left for another step. -/
theorem remainingStrobes_eq : ∀ cmd : BitVec 4, remainingStrobes cmd =
    if !cmd.getLsbD 3 && (cmd.getLsbD 2 || cmd.getLsbD 1) && cmd.getLsbD 0 then 1 else 0 := by decide

/-- The decoder on the pins of one cycle, with what is left of the cycle. -/
theorem decode_hostWord_left (cmd : BitVec 4) (cfg b : Byte) :
    decode (hostWord (cmd.setWidth 8) cfg b 0) = .ok (strobeInstr cmd cfg b,
      if remainingStrobes cmd = 0 then none else some (hostWord ((remainingStrobes cmd).setWidth 8) cfg b 0)) := by
  have hlt : ¬ 16 ≤ (cmd.setWidth 8).toNat := by bv_omega
  have hcmd : (cmd.setWidth 8).setWidth 4 = cmd := by simp
  simp only [decode, hostWord, if_neg hlt, hcmd, decodeHostCmd, true_or, if_true]
  split <;> rfl

/-- Settles O60, by the first strobe of the word and those that remain. -/
theorem strobesOfOneCycleAreSerialised : Obligations.StrobesOfOneCycleAreSerialised := by
  unfold Obligations.StrobesOfOneCycleAreSerialised
  intro s cmd cfg b rest hl hin
  have hstep := step_word hin rfl (decode_hostWord_left cmd cfg b) (.inl hl)
  rw [strobeInstr, firstStrobe_eq, remainingStrobes_eq] at hstep
  refine ⟨fun h3 => ?_, fun h3 h2 h0 => ?_, fun h3 h2 h0 => ?_, fun h3 h2 h1 h0 => ?_, fun h3 h2 h1 h0 => ?_,
    fun hc => ?_, fun hc => ?_⟩
  · rw [h3] at hstep
    exact hstep
  · rw [h3, h2, h0] at hstep
    exact hstep
  · rw [h3, h2, h0] at hstep
    exact hstep
  · rw [h3, h2, h1, h0] at hstep
    exact hstep
  · rw [h3, h2, h1, h0] at hstep
    exact hstep
  · subst hc
    exact hstep
  · subst hc
    exact hstep

end Sys2Proof.Machine

/-! The proofs about words and what is built of them (30_encoding.md): the rows of the dispatch table, the decoder on each
format's words, a case or an action asked for on its own, chunks and built frames, and `POLLREAD`. -/

namespace Sys2Proof.Machine

/-! ### The rows of the dispatch table (R100) -/

/-- The decoder on a dispatch word, as conditions on `N` and `b` in the priority order of R100. -/
theorem decodeSubmit_eq (n : BitVec 5) (b : Byte) :
    decodeSubmit n b =
      if n = 0 ∧ b = 0x9B then .ok .sync0 else if n = 0 then .ok (.skip b)
      else if n = 1 ∧ b = 0x16 then .ok .sync1 else if n = 1 then .ok (.desync b)
      else if n = 23 then .ok (.final b) else if 24 ≤ n.toNat then .error .unreachableOffset else .ok (.store n b) := by
  rw [decodeSubmit, caseOf_dispatchWord]
  split_ifs <;> rfl

/-- Beyond the two header offsets and short of the last the row is `STORE`; beyond the last it is the unreachable one. -/
theorem decodeSubmit_of_offset {n : BitVec 5} (h2 : 2 ≤ n.toNat) (h23 : n.toNat ≠ 23) (b : Byte) :
    decodeSubmit n b = if 24 ≤ n.toNat then .error .unreachableOffset else .ok (.store n b) := by
  have n0 : n ≠ 0 := by bv_omega
  have n1 : n ≠ 1 := by bv_omega
  have n23 : n ≠ 23 := by bv_omega
  simp only [decodeSubmit_eq, n0, n1, n23, false_and, if_false]

/-- The rows of R100 that `N` and `b` can select, each with its select condition and its operation. -/
inductive DispatchRow : BitVec 5 → Byte → Instr → Prop where
  | sync0 : DispatchRow 0 0x9B .sync0
  | skip {b : Byte} (hb : b ≠ 0x9B) : DispatchRow 0 b (.skip b)
  | sync1 : DispatchRow 1 0x16 .sync1
  | desync {b : Byte} (hb : b ≠ 0x16) : DispatchRow 1 b (.desync b)
  | store {n : BitVec 5} (h2 : 2 ≤ n.toNat) (h22 : n.toNat ≤ 22) (b : Byte) : DispatchRow n b (.store n b)
  | final (b : Byte) : DispatchRow 23 b (.final b)

namespace DispatchRow

variable {n : BitVec 5} {b : Byte} {i : Instr}

/-- With `N` in 0..23 some row is selected. -/
theorem exists_of_le (h : n.toNat ≤ 23) (b : Byte) : ∃ i, DispatchRow n b i := by
  have hrange : n = 0 ∨ n = 1 ∨ (2 ≤ n.toNat ∧ n.toNat ≤ 22) ∨ n = 23 := by bv_omega
  obtain rfl | rfl | ⟨h2, h22⟩ | rfl := hrange
  · by_cases hb : b = 0x9B
    · exact hb ▸ ⟨_, sync0⟩
    · exact ⟨_, skip hb⟩
  · by_cases hb : b = 0x16
    · exact hb ▸ ⟨_, sync1⟩
    · exact ⟨_, desync hb⟩
  · exact ⟨_, .store h2 h22 b⟩
  · exact ⟨_, .final b⟩

/-- The row's operation is one of the six cases. -/
theorem mem_cases (h : DispatchRow n b i) : i ∈ [.sync0, .skip b, .sync1, .desync b, .final b, .store n b] := by
  cases h <;> simp

/-- The decoder takes the row its conditions select. -/
theorem decodeSubmit (h : DispatchRow n b i) : decodeSubmit n b = .ok i := by
  cases h with
  | sync0 | sync1 | final => simp [decodeSubmit_eq]
  | skip hb => rw [decodeSubmit_eq, if_neg fun h => hb h.2, if_pos rfl]
  | desync hb => simpa [decodeSubmit_eq] using hb
  | store h2 h22 => rw [decodeSubmit_of_offset h2 (by omega), if_neg (by omega)]

theorem decode (h : DispatchRow n b i) : decode (submitWord n b) = .ok (i, none) := by
  rw [decode_submitWord, h.decodeSubmit]
  rfl

/-- The row's operation, asked for on its own where it is selected, does what `SUBMIT` does there. -/
theorem exec_eq_submitCase {s : State} (h : DispatchRow n b i) (hl : live s = true) (hn : s.n = n) :
    exec i s = answer (submitCase b (fresh s)) := by
  have hn' : (fresh s).n = n := hn
  cases h with
  | sync0 => rw [submitCase_sync0 hn', exec, execSync0, whenSelected_of hl (by simp [hn]), sync0_eq]
  | skip hb => rw [submitCase_skip hn' hb, exec, execSkip, whenSelected_of hl (by simpa [hn] using hb)]; rfl
  | sync1 => rw [submitCase_sync1 hn', exec, execSync1, whenSelected_of hl (by simp [hn]), sync1_eq]
  | desync hb => rw [submitCase_desync hn' hb, exec, execDesync, whenSelected_of hl (by simpa [hn] using hb)]; rfl
  | store h2 h22 =>
    subst hn
    have hs := submitCase_store (s := fresh s) b h2 h22
    rw [hs, exec, execStore, whenSelected_of hl (by simp [h2, h22]), store_eq (s := fresh s) h22]
  | final => rw [submitCase_final b hn', exec, execFinal_eq hl hn, final_eq]

end DispatchRow

/-- The seventh row, of the offsets the counter never takes. -/
theorem decode_unreachableWord {n : BitVec 5} (h : 24 ≤ n.toNat) (b : Byte) :
    decode (submitWord n b) = .error .unreachableOffset := by
  rw [decode_submitWord, decodeSubmit_of_offset (by omega) (by omega), if_pos h]
  rfl

theorem exec_submit_of_live {s : State} (hl : live s = true) (b : Byte) :
    exec (.submit b) s = answer (submitCase b (fresh s)) := by
  rw [exec, execSubmit, submit, whenLive_of_live (by simpa using hl)]

/-- Settles O15: below 24 the row that `N` and `b` select, from 24 on the unreachable one. -/
theorem submitRunsTheCaseItsWordSelects : Obligations.SubmitRunsTheCaseItsWordSelects := by
  unfold Obligations.SubmitRunsTheCaseItsWordSelects
  intro s b hl
  rw [exec_submit_of_live hl]
  refine ⟨fun h23 => ?_, fun h24 => ⟨decode_unreachableWord h24 b, ?_⟩⟩
  · obtain ⟨i, row⟩ := DispatchRow.exists_of_le h23 b
    exact ⟨i, row.decode, row.mem_cases, (row.exec_eq_submitCase hl rfl).symm⟩
  · rw [submitCase_unreachable (s := fresh s) b h24, answer_refuse]

/-! ### Encoding, then decoding -/

/-- A pole-pair count that the 8-bit port can carry comes back from it. -/
theorem toNat_ofInt_of_byte {pp : Int} (h : 0 ≤ pp ∧ pp ≤ 255) : ((BitVec.ofInt 8 pp).toNat : Int) = pp := by
  rw [BitVec.toNat_ofInt]
  omega

theorem decode_initWord {pp : Int} (h : 0 ≤ pp ∧ pp ≤ 255) :
    decode (hostWord 0x8 (BitVec.ofInt 8 pp) 0 0) = .ok (.init pp, none) := by
  have hinit : strobeInstr 0x8 (BitVec.ofInt 8 pp) 0 = .init pp := congrArg Instr.init (toNat_ofInt_of_byte h)
  rw [← hinit]
  exact decode_hostWord_left 0x8 _ 0

/-- A `READ` selector without a strobe is the `READ` of its register alone. -/
theorem decode_readWord (f : RegName) : decode (hostWord 0 0 0 (codeOfReg f)) = .ok (.read f, none) := by
  cases f <;> rfl

theorem decode_frameWord (p : List Byte) (h : p.length = 20) :
    decode (pseudoWord 1 (frameBytes p)) = .ok (.frame p, none) := by
  simp [decode, pseudoWord, decodePseudo, payloadOfFrame_frameBytes p h]

theorem decode_framefWord (x : FrameFields) :
    decode (pseudoWord 2 (frameBytes (payloadOf x))) = .ok (.framef x, none) := by
  simp [decode, pseudoWord, decodePseudo, payloadOfFrame_frameBytes _ (length_payloadOf x), fieldsOf_payloadOf]

/-- Settles O57: by the operation's format; a row with a word of fixed bytes is decoded by evaluation. -/
theorem decodeOfEncodeIsTheInstruction : Obligations.DecodeOfEncodeIsTheInstruction := by
  unfold Obligations.DecodeOfEncodeIsTheInstruction
  intro i hwf hw
  cases i with
  | init pp =>
    have h : 0 ≤ pp ∧ pp ≤ 255 := by simpa [Instr.hasWord] using hw
    exact ⟨_, if_pos h, decode_initWord h⟩
  | submit b => exact ⟨_, rfl, decode_hostWord_left 0x1 0 b⟩
  | read f => exact ⟨_, rfl, decode_readWord f⟩
  | sync0 => exact ⟨_, rfl, DispatchRow.sync0.decode⟩
  | skip b => exact ⟨_, rfl, (DispatchRow.skip (by simpa [Instr.wellFormed] using hwf)).decode⟩
  | sync1 => exact ⟨_, rfl, DispatchRow.sync1.decode⟩
  | desync b => exact ⟨_, rfl, (DispatchRow.desync (by simpa [Instr.wellFormed] using hwf)).decode⟩
  | final b => exact ⟨_, rfl, (DispatchRow.final b).decode⟩
  | store n b =>
    obtain ⟨h2, h22⟩ : 2 ≤ n.toNat ∧ n.toNat ≤ 22 := by simpa [Instr.wellFormed] using hwf
    exact ⟨_, rfl, (DispatchRow.store h2 h22 b).decode⟩
  | frame p => exact ⟨_, rfl, decode_frameWord p (by simpa [Instr.wellFormed] using hwf)⟩
  | framef x => exact ⟨_, rfl, decode_framefWord x⟩
  | take | isready | idle => exact ⟨_, rfl, rfl⟩
  | complete | accept | reject | extract => exact ⟨_, rfl, rfl⟩
  | cksum | xSeq | xFcnt | xThrIn | xThrOut | xRpm | xVbus | xIbus | xIph | xTmos | xTcap | xStatus | xFault =>
    exact ⟨_, rfl, rfl⟩
  | decode k | bytes bs | pollread => exact ⟨_, rfl, rfl⟩

/-- Settles O58: each word is decoded by evaluation. -/
theorem wordsOfTheTablesDecode : Obligations.WordsOfTheTablesDecode := by
  unfold Obligations.WordsOfTheTablesDecode
  exact ⟨rfl, rfl, rfl, rfl, rfl, rfl, rfl, rfl, rfl, rfl, rfl, rfl⟩

/-! ### A case or an action whose condition fails (log 15) -/

theorem answer_whenSelected_of_not {s : State} {c : Bool} {m : String} (hl : live s = true) (hc : c = false)
    (r : Res State) : answer (whenSelected c m s r) = .refused (.notSelected m) := by
  rw [whenSelected, whenLive_of_live hl, hc]
  rfl

/-- On a buffer that holds a frame `ACCEPT` and `REJECT` compare its two sums. -/
theorem bothSums_of_frame {s : State} {f : Nat → Byte} (h : HoldsFrame s f) (k : Nat → Nat → Res State) :
    (cksum s >>= fun sum => receivedSum s >>= k sum) = k (frameSum f) (frameTrailer f) := by
  rw [cksum_of_frame h, ok_bind, receivedSum_of_frame h, ok_bind]

theorem exec_accept_of_ne {s : State} {f : Nat → Byte} (hl : live s = true) (h : HoldsFrame s f)
    (hne : frameSum f ≠ frameTrailer f) : exec .accept s = .refused (.notSelected "ACCEPT") := by
  rw [exec, execAccept, whenLive_of_live hl, bothSums_of_frame h, checksumsAgree, beq_false_of_ne hne]
  rfl

theorem exec_reject_of_eq {s : State} {f : Nat → Byte} (hl : live s = true) (h : HoldsFrame s f)
    (he : frameSum f = frameTrailer f) : exec .reject s = .refused (.notSelected "REJECT") := by
  rw [exec, execReject, whenLive_of_live hl, bothSums_of_frame h, checksumsAgree, he, beq_self_eq_true]
  rfl

/-- Settles O27: each case's select condition fails, and so does the comparison `ACCEPT` or `REJECT` runs on. -/
theorem casesAndActionsNeedTheirCondition : Obligations.CasesAndActionsNeedTheirCondition := by
  unfold Obligations.CasesAndActionsNeedTheirCondition
  intro s n b hl
  refine ⟨fun h => ?_, fun h => ?_, fun h => ?_, fun h => ?_, fun h => ?_, fun h => ?_,
    fun f hf hne => exec_accept_of_ne hl hf hne, fun f hf he => exec_reject_of_eq hl hf he⟩
  · exact answer_whenSelected_of_not hl (by simpa using h) _
  · exact answer_whenSelected_of_not hl (by simpa [imp_iff_not_or] using h) _
  · exact answer_whenSelected_of_not hl (by simpa using h) _
  · exact answer_whenSelected_of_not hl (by simpa [imp_iff_not_or] using h) _
  · exact answer_whenSelected_of_not hl (by simpa [imp_iff_not_or, or_assoc] using h) _
  · exact answer_whenSelected_of_not hl (by simpa using h) _

/-! ### Chunks -/

/-- With a decoder configured `COMPLETE` has all its cells once the last byte is stored (R137). -/
theorem submitCase_final_answers {s : State} (hi : BlockInv s) (hl : live s = true) (hn : s.n = 23) (b : Byte) :
    ∃ t, submitCase b s = .ok t := by
  have hcells : ∀ i < 23, memRead s.buf i = some ((memRead s.buf i).getD 0) := fun i h => by
    obtain ⟨v, hv⟩ := Option.isSome_iff_exists.mp (hi.collected i (by simpa [hn] using h))
    simp [hv]
  rw [submitCase_final b hn]
  exact ⟨_, complete_of_frame (holdsFrame_putByte23 b hcells) (hi.pp_ne_zero hl)⟩

/-- With a decoder configured every `SUBMIT` answers (R216). -/
theorem submit_answers {s : State} (hi : BlockInv s) (hl : live s = true) (b : Byte) : ∃ t, submit b s = .ok t := by
  rw [submit, whenLive_of_live hl]
  obtain ⟨i, row⟩ := DispatchRow.exists_of_le hi.offset b
  generalize hn : s.n = n at row
  cases row with
  | sync0 => exact ⟨_, submitCase_sync0 hn⟩
  | skip hb => exact ⟨_, submitCase_skip hn hb⟩
  | sync1 => exact ⟨_, submitCase_sync1 hn⟩
  | desync hb => exact ⟨_, submitCase_desync hn hb⟩
  | store h2 h22 => exact ⟨_, submitCase_store b (hn ▸ h2) (hn ▸ h22)⟩
  | final => exact submitCase_final_answers hi hl hn b

theorem live_of_submit {s t : State} {b : Byte} (e : submit b s = .ok t) : live t = true := by
  obtain ⟨hl, -⟩ := whenLive_eq_ok.mp e
  obtain ⟨-, -, hhalt, hinits⟩ := (kept_parameters s).submit e ⟨rfl, rfl, rfl, rfl⟩
  rw [live_congr hinits hhalt, hl]

/-- With a decoder configured every sequence of `SUBMIT`s answers, and leaves it configured. -/
theorem submitAll_answers {s : State} (hi : BlockInv s) (hl : live s = true) (bs : List Byte) :
    ∃ t, submitAll bs s = .ok t ∧ BlockInv t ∧ live t = true := by
  induction bs generalizing s with
  | nil => exact ⟨s, rfl, hi, hl⟩
  | cons b bs ih =>
    obtain ⟨u, hu⟩ := submit_answers hi.quiet hl b
    obtain ⟨t, ht, hti, htl⟩ := ih (hi.quiet.submit hu) (live_of_submit hu)
    exact ⟨t, by rw [submitAll, hu, ok_bind, ht], hti, htl⟩

/-- Completion returns nothing and leaves what the host has still to do. -/
theorem complete_host {s t : State} (e : complete s = .ok t) :
    t.results = s.results ∧ t.input = s.input ∧ t.pending = s.pending := by
  obtain ⟨sum, rx, -, -, ⟨-, r, j, k, -, rfl⟩ | ⟨-, rfl⟩⟩ := complete_eq_ok e
  · rw [raiseMisses_eq]
    exact ⟨rfl, rfl, rfl⟩
  · exact ⟨rfl, rfl, rfl⟩

theorem submit_host {s t : State} {b : Byte} (e : submit b s = .ok t) :
    t.results = s.results ∧ t.input = s.input ∧ t.pending = s.pending := by
  rcases submitCase_eq_ok (whenLive_eq_ok.mp e).2 with ⟨-, -, rfl⟩ | ⟨-, -, rfl⟩ | ⟨-, -, rfl⟩ | ⟨-, -, rfl⟩ |
    ⟨-, -, rfl⟩ | ⟨-, e⟩
  · exact ⟨rfl, rfl, rfl⟩
  · exact ⟨rfl, rfl, rfl⟩
  · exact ⟨rfl, rfl, rfl⟩
  · exact ⟨rfl, rfl, rfl⟩
  · exact ⟨rfl, rfl, rfl⟩
  · exact complete_host (s := setN 0 (putByte 23 b s)) e

/-- A chunk returns nothing and leaves what the host has still to do. -/
theorem submitAll_host {s t : State} {bs : List Byte} (e : submitAll bs s = .ok t) :
    t.results = s.results ∧ t.input = s.input ∧ t.pending = s.pending :=
  submitAll_keeps (R := fun u => u.results = s.results ∧ u.input = s.input ∧ u.pending = s.pending) (fun _ h => h)
    (fun _ _ _ e h => by simpa only [submit_host e] using h) e ⟨rfl, rfl, rfl⟩

/-- Settles O21, by the chunk's `SUBMIT`s one after the other. -/
theorem bytesCompleteOnAConfiguredInstance : Obligations.BytesCompleteOnAConfiguredInstance := by
  unfold Obligations.BytesCompleteOnAConfiguredInstance
  intro s bs hi hl
  refine ⟨?_, execChunk_eq_next.mpr ⟨hl, rfl⟩⟩
  obtain ⟨t, ht, hti, htl⟩ := submitAll_answers hi.fresh hl bs
  obtain ⟨hres, hin, hpend⟩ := submitAll_host ht
  exact ⟨t, execChunk_eq_next.mpr ⟨hl, ht⟩, hti, htl, hres, hin, hpend⟩

/-! ### Built frames (R109, R110) -/

/-- A built frame submitted from `N = 0` is stored and accepted. -/
theorem submitAll_frameBytes {s : State} {p : List Byte} (hl : live s = true) (hq : s.pulses = []) (hn : s.n = 0)
    (hp : s.pp ≠ 0) (hlen : p.length = 20) :
    submitAll (frameBytes p) s =
      .ok (accepted (frameAt (frameBytes p)) (setBuf (writeBytes 0 (frameBytes p) s.buf) s)) := by
  obtain ⟨q, z, hqlen, hbytes⟩ : ∃ q z, q.length = 21 ∧ frameBytes p = 0x9B :: 0x16 :: (q ++ [z]) :=
    ⟨p ++ [BitVec.ofNat 8 (byteSum (summedPart p))], BitVec.ofNat 8 (byteSum (summedPart p) / 256), by simp [hlen],
      by simp [frameBytes, trailer, summedPart, bytesLE]⟩
  rw [← completed_of_eq (frameSum_frameBytes p hlen), hbytes, submitAll_frame q z s hl hq hn hp hqlen]

theorem execChunk_frameBytes {s : State} {p : List Byte} (hl : live s = true) (hn : s.n = 0) (hp : s.pp ≠ 0)
    (hlen : p.length = 20) : execChunk (frameBytes p) s =
      .next (accepted (frameAt (frameBytes p)) (setBuf (writeBytes 0 (frameBytes p) s.buf) (fresh s))) :=
  execChunk_eq_next.mpr ⟨hl, submitAll_frameBytes (s := fresh s) hl rfl hn hp hlen⟩

/-- The buffer after the bytes of a frame are written from offset 0. -/
theorem memRead_writeBytes_frameBytes {p : List Byte} (hlen : p.length = 20) (m : List Host.Cell) (i : Nat) :
    memRead (writeBytes 0 (frameBytes p) m) i = if i < 24 then some (frameAt (frameBytes p) i) else memRead m i := by
  have hb : (frameBytes p).length = 24 := by rw [length_frameBytes, hlen]
  rw [memRead_writeBytes, hb]
  split_ifs with h1 h2 h2
  · rw [Nat.sub_zero, List.getElem?_eq_getElem (by omega), frameAt, List.getD_eq_getElem _ _ (by omega)]
  · omega
  · omega
  · rfl

/-- Settles O42: the trailer a frame is built with is its sum, so the completion of its 24 bytes accepts them. -/
theorem builtFrameIsAccepted : Obligations.BuiltFrameIsAccepted := by
  unfold Obligations.BuiltFrameIsAccepted
  intro s p hl hn hp hlen
  refine ⟨_, execChunk_frameBytes hl hn hp hlen, fun i h => ?_, fun i h => ?_, rfl⟩
  · exact (memRead_writeBytes_frameBytes hlen s.buf i).trans (if_pos h)
  · exact (memRead_writeBytes_frameBytes hlen s.buf i).trans (if_neg (by omega))

/-- The record of the frame `FRAMEF` builds, in terms of its field values (R109, R91, R160). -/
theorem recordOfFrame_frameBytes_payloadOf (rom : List (Byte × BitVec 16)) (pp : BitVec 8) (x : FrameFields) :
    recordOfFrame rom pp (frameAt (frameBytes (payloadOf x))) =
      { seq := x.a ++ (0x169B : BitVec 16) ++ x.b, fcnt := x.c
        thrIn := BitVec.ofNat 21 (x.d.toNat * 25), thrOut := BitVec.ofNat 21 (x.e.toNat * 25)
        rpmQ := BitVec.ofNat 20 (x.f.toNat * 10 / pp.toNat), rpmR := BitVec.ofNat 8 (x.f.toNat * 10 % pp.toNat)
        vbus := x.g, ibus := x.h, iph := x.i
        tmos := (lut rom x.j).getD 260, tmosMiss := (lut rom x.j).isNone
        tcap := (lut rom x.k).getD 260, tcapMiss := (lut rom x.k).isNone
        status := x.l, fault := decide (x.l ≠ 0) } := by
  obtain ⟨f, hf⟩ : ∃ f, f = frameAt (frameBytes (payloadOf x)) := ⟨_, rfl⟩
  obtain ⟨h0, h1, ha, hb, hc, hd, he, hrpm, hg, hh, hi, hj, hk, hst⟩ := fields_frameBytes x f hf
  have hword : ∀ {i : Nat} {v : BitVec 16}, (f i ++ f (i + 1) : BitVec 16) = v → word16 f i = v.toNat :=
    fun h => by rw [← h, toNat_word]
  have hfault : (f 20 != 0 || f 21 != 0) = decide (x.l ≠ 0) := by
    rw [← faultFlag_word16 f 20, hword hst, faultFlag]
    simp [← BitVec.toNat_inj]
  have hseq : (f 2 ++ f 1 ++ f 0 ++ f 3 : BitVec 32) = x.a ++ (0x169B : BitVec 16) ++ x.b := by
    rw [h0, h1, ha, hb]
    exact congrArg (fun v : BitVec 24 => v ++ x.b) (BitVec.append_assoc (x₁ := x.a) (x₂ := 0x16#8) (x₃ := 0x9B#8))
  rw [← hf, recordOfFrame, hseq, hfault, hword hd, hword he, hword hrpm, hc, hg, hh, hi, hj, hk, hst]

/-- Settles O43: the built frame is accepted, and its record is its field values', which fit their registers. -/
theorem builtFrameDecodesToItsFields : Obligations.BuiltFrameDecodesToItsFields := by
  unfold Obligations.BuiltFrameDecodesToItsFields
  intro s x hl hn hp
  have hexec : exec (.framef x) s = _ := execChunk_frameBytes hl hn hp (length_payloadOf x)
  have hrec := recordOfFrame_frameBytes_payloadOf s.rom s.pp x
  -- No unification below is to compute the frame's bytes.
  generalize frameAt (frameBytes (payloadOf x)) = f at hexec hrec
  generalize writeBytes 0 (frameBytes (payloadOf x)) s.buf = m at hexec
  refine ⟨_, hexec, rfl, rfl, hn, ?_⟩
  have hrecord : (accepted f (setBuf m (fresh s))).record = _ := hrec
  rw [hrecord]
  have hpos : 0 < s.pp.toNat := Nat.pos_of_ne_zero fun h => hp (BitVec.eq_of_toNat_eq h)
  have hq : x.f.toNat * 10 / s.pp.toNat ≤ x.f.toNat * 10 := Nat.div_le_self _ _
  have hr : x.f.toNat * 10 % s.pp.toNat < s.pp.toNat := Nat.mod_lt _ hpos
  have hfit : ∀ {w v : Nat}, v < 2 ^ w → (BitVec.ofNat w v).toNat = v := fun h =>
    (BitVec.toNat_ofNat _ _).trans (Nat.mod_eq_of_lt h)
  exact ⟨rfl, rfl, hfit (by omega), hfit (by omega), hfit (by omega), hfit (by omega), rfl, rfl, rfl, rfl, rfl, rfl, rfl,
    rfl, rfl⟩

/-! ### `POLLREAD` -/

theorem exec_pollread {s : State} (hl : live s = true) : exec .pollread s = .next
    (if s.ready then setPending (s.pending ++ recordRegs) (give (.bit s.ready) (observeReady (fresh s)))
      else give (.bit s.ready) (observeReady (fresh s))) :=
  answer_eq_next.mpr (pollRead_eq_ok.mpr ⟨hl, rfl⟩)

/-- Settles O44: the poll by `pollRead`, the `READ`s by the fetch, which finds the first of them. -/
theorem pollreadReadsTheRecordWhenReady : Obligations.PollreadReadsTheRecordWhenReady := by
  unfold Obligations.PollreadReadsTheRecordWhenReady
  refine ⟨fun s hl => ?_, rfl, fun s f fs hp => ⟨fun hin => ?_, fun rest hin => ?_⟩,
    fun i s t hi e => exec_pending hi e⟩
  · have e := exec_pollread hl
    cases s
    constructor
    · rintro ⟨⟩
      exact e
    · rintro ⟨⟩
      exact e
  · refine step_of_run ?_
    simp only [fetch, hin, fetchPending, hp]
    rfl
  · refine step_of_run ?_
    simp only [fetch, hin, fetchPending, hp]
    rfl

end Sys2Proof.Machine

/-! The proofs about the temperature table (40_temperature_lut.md): a value in half degrees, the table a host supplies,
the pair a key finds in it, and `DECODE`. -/

namespace Sys2Proof.Machine

/-! ### A value in half degrees (R124) -/

/-- A rational whose double is an integer has denominator 1 or 2. -/
theorem den_eq_one_or_two_of_double {v : Rat} {t : Int} (h : (t : Rat) = 2 * v) : v.den = 1 ∨ v.den = 2 := by
  have hv : v = Rat.divInt t 2 := by
    rw [Rat.divInt_eq_div]
    push_cast
    linarith
  have hdvd : (v.den : Int) ∣ 2 := hv ▸ Rat.den_dvd t 2
  exact (Nat.dvd_prime Nat.prime_two).mp (by exact_mod_cast hdvd)

theorem double_of_den_eq_one {v : Rat} (h : v.den = 1) : ((2 * v.num : Int) : Rat) = 2 * v := by
  rw [Int.cast_mul, (Rat.den_eq_one_iff v).mp h]
  rfl

theorem double_of_den_eq_two {v : Rat} (h : v.den = 2) : (v.num : Rat) = 2 * v := by
  have hv := Rat.mul_den_eq_num v
  rw [h] at hv
  rw [← hv, mul_comm]
  rfl

theorem halfDegrees_of_double {v : Rat} {t : Int} (h : (t : Rat) = 2 * v) :
    halfDegrees v = if -32768 ≤ t ∧ t ≤ 32767 then some (BitVec.ofInt 16 t) else none := by
  obtain hd | hd := den_eq_one_or_two_of_double h
  · have ht : 2 * v.num = t := by exact_mod_cast (double_of_den_eq_one hd).trans h.symm
    simp [halfDegrees, hd, ht]
  · have ht : v.num = t := by exact_mod_cast (double_of_den_eq_two hd).trans h.symm
    simp [halfDegrees, hd, ht]

theorem halfDegrees_of_no_double {v : Rat} (h : ∀ t : Int, (t : Rat) ≠ 2 * v) : halfDegrees v = none := by
  have h1 : v.den ≠ 1 := fun hd => h _ (double_of_den_eq_one hd)
  have h2 : v.den ≠ 2 := fun hd => h _ (double_of_den_eq_two hd)
  simp [halfDegrees, h1, h2]

theorem halfDegrees_isSome_iff {v : Rat} :
    (halfDegrees v).isSome = true ↔ ∃ t : Int, (t : Rat) = 2 * v ∧ -32768 ≤ t ∧ t ≤ 32767 := by
  constructor
  · intro h
    by_contra hno
    by_cases hdouble : ∃ t : Int, (t : Rat) = 2 * v
    · obtain ⟨t, ht⟩ := hdouble
      rw [halfDegrees_of_double ht, if_neg fun hrange => hno ⟨t, ht, hrange⟩] at h
      cases h
    · rw [halfDegrees_of_no_double (not_exists.mp hdouble)] at h
      cases h
  · rintro ⟨t, ht, hrange⟩
    rw [halfDegrees_of_double ht, if_pos hrange]
    rfl

/-- The half degrees of a value are exactly its double: 16 signed bits hold it. -/
theorem toInt_of_halfDegrees {v : Rat} {b : BitVec 16} (h : halfDegrees v = some b) : (b.toInt : Rat) = 2 * v := by
  obtain ⟨t, ht, hrange⟩ := halfDegrees_isSome_iff.mp (Option.isSome_of_eq_some h)
  rw [halfDegrees_of_double ht, if_pos hrange] at h
  have hb : b.toInt = t := by
    rw [← Option.some.inj h, BitVec.toInt_ofInt]
    exact Int.bmod_eq_of_le (by omega) (by omega)
  rw [hb, ht]

/-! ### A table as supplied -/

theorem suppliedTable_cons_eq_some {x : Byte × Rat} {rest : List (Byte × Rat)} {table : List (Byte × BitVec 16)} :
    suppliedTable (x :: rest) = some table ↔
      ∃ t tail, halfDegrees x.2 = some t ∧ suppliedTable rest = some tail ∧ table = (x.1, t) :: tail := by
  rw [suppliedTable]
  cases halfDegrees x.2 <;> cases suppliedTable rest <;> simp [eq_comm]

theorem suppliedTable_cons_isSome (x : Byte × Rat) (rest : List (Byte × Rat)) :
    (suppliedTable (x :: rest)).isSome = ((halfDegrees x.2).isSome && (suppliedTable rest).isSome) := by
  rw [suppliedTable]
  cases halfDegrees x.2 <;> cases suppliedTable rest <;> rfl

/-- Settles O40: a table is taken pair by pair, each where its value has half degrees. -/
theorem tableIsRefusedExactlyByR124 : Obligations.TableIsRefusedExactlyByR124 := by
  unfold Obligations.TableIsRefusedExactlyByR124
  intro pairs
  induction pairs with
  | nil => simp [suppliedTable]
  | cons x rest ih =>
    rw [suppliedTable_cons_isSome, Bool.and_eq_true, halfDegrees_isSome_iff, ih, List.forall_mem_cons]

/-! ### The pair a key finds (R121) -/

/-- A pair replaces what its key had before. -/
theorem lut_concat (table : List (Byte × BitVec 16)) (q : Byte × BitVec 16) (k : Byte) :
    lut (table ++ [q]) k = if q.1 = k then some q.2 else lut table k :=
  List.foldl_concat ..

/-- A value found in the rest of the list stands; else the first pair's does. -/
theorem lut_cons (p : Byte × BitVec 16) (table : List (Byte × BitVec 16)) (k : Byte) :
    lut (p :: table) k = (lut table k).or (if p.1 = k then some p.2 else none) := by
  induction table using List.reverseRecOn with
  | nil => rfl
  | append_singleton table q ih =>
    rw [← List.cons_append, lut_concat, lut_concat, ih]
    split
    · rfl
    · rfl

theorem lut_of_no_pair {pairs : List (Byte × Rat)} {table : List (Byte × BitVec 16)} {k : Byte}
    (h : suppliedTable pairs = some table) (hk : ∀ x ∈ pairs, x.1 ≠ k) : lut table k = none := by
  induction pairs generalizing table with
  | nil =>
    cases h
    rfl
  | cons x rest ih =>
    obtain ⟨hx, hrest⟩ := List.forall_mem_cons.mp hk
    obtain ⟨t, tail, -, htail, rfl⟩ := suppliedTable_cons_eq_some.mp h
    rw [lut_cons, ih htail hrest, if_neg hx]
    rfl

theorem lut_of_last_pair {before after : List (Byte × Rat)} {table : List (Byte × BitVec 16)} {k : Byte} {v : Rat}
    (h : suppliedTable (before ++ (k, v) :: after) = some table) (hk : ∀ x ∈ after, x.1 ≠ k) :
    ∃ t, halfDegrees v = some t ∧ lut table k = some t := by
  induction before generalizing table with
  | nil =>
    obtain ⟨t, tail, ht, htail, rfl⟩ := suppliedTable_cons_eq_some.mp h
    exact ⟨t, ht, by rw [lut_cons, lut_of_no_pair htail hk, if_pos rfl, Option.none_or]⟩
  | cons x rest ih =>
    obtain ⟨-, tail, -, htail, rfl⟩ := suppliedTable_cons_eq_some.mp h
    obtain ⟨t, ht, hfound⟩ := ih htail
    exact ⟨t, ht, by rw [lut_cons, hfound, Option.some_or]⟩

/-! ### `DECODE` (R122, R126) -/

theorem decodeTemperature_of_hit {table : List (Byte × BitVec 16)} {k : Byte} {t : BitVec 16}
    (h : lut table k = some t) : decodeTemperature table k = (t.toInt, false) := by
  rw [decodeTemperature, h]

theorem decodeTemperature_of_miss {table : List (Byte × BitVec 16)} {k : Byte} (h : lut table k = none) :
    decodeTemperature table k = (260, true) := by
  rw [decodeTemperature, h]
  rfl

/-- With a decoder configured a function that has a value returns it, and does nothing else. -/
theorem answerFunction_of_ok {f : State → Res Value} {s : State} {v : Value} (hl : live s = true) (h : f s = .ok v) :
    answerFunction f s = .next (give v (fresh s)) := by
  rw [answerFunction, whenLive_of_live hl, h]
  rfl

theorem exec_decode_of_live {s : State} {k : Byte} {t2 : Int} {miss : Bool} (hl : live s = true)
    (h : decodeTemperature s.rom k = (t2, miss)) :
    exec (.decode k) s = .next { s with results := [.temperature t2 miss], events := [], pulses := [] } := by
  rw [exec, execDecode, answerFunction_of_ok hl (v := .temperature t2 miss) (by rw [h]; rfl)]
  rfl

/-- Settles O38, by whether the table has the key. -/
theorem decodeAnswersEveryKey : Obligations.DecodeAnswersEveryKey := by
  unfold Obligations.DecodeAnswersEveryKey
  intro s k hl
  cases h : lut s.rom k with
  | some t => exact exec_decode_of_live hl (decodeTemperature_of_hit h)
  | none => exact exec_decode_of_live hl (decodeTemperature_of_miss h)

/-- Settles O39: what the supplied table finds for the key, and `DECODE` of a hit and of a miss. -/
theorem lastPairOfAKeyWins : Obligations.LastPairOfAKeyWins := by
  unfold Obligations.LastPairOfAKeyWins
  intro s pairs k hs
  constructor
  · rintro before after v rfl hafter
    obtain ⟨t, ht, hfound⟩ := lut_of_last_pair hs hafter
    have hdecode := decodeTemperature_of_hit hfound
    exact ⟨t.toInt, toInt_of_halfDegrees ht, hdecode, fun hl => exec_decode_of_live hl hdecode⟩
  · intro hk
    have hdecode := decodeTemperature_of_miss (lut_of_no_pair hs hk)
    exact ⟨hdecode, fun hl => exec_decode_of_live hl hdecode⟩

end Sys2Proof.Machine

/-! The proofs about the synchronizer (41_sync.md): each dispatch case, alone and as the `SUBMIT` that selects it;
completion; and streams of bytes without a header, of two frames back to back, and cut into chunks. -/

namespace Sys2Proof.Machine

/-! ### The cases of the dispatch (R131 to R138) -/

/-- Where its row is selected, a case asked for on its own and the `SUBMIT` of its byte answer alike. -/
theorem DispatchRow.exec_eq_next {s t : State} {n : BitVec 5} {b : Byte} {i : Instr} (row : DispatchRow n b i)
    (hl : live s = true) (hn : s.n = n) (e : submitCase b (fresh s) = .ok t) :
    exec i s = .next t ∧ exec (.submit b) s = .next t :=
  ⟨by rw [row.exec_eq_submitCase hl hn, e, answer_ok], by rw [exec_submit_of_live hl, e, answer_ok]⟩

theorem storesByte_of_buf {s t : State} {a : Nat} {v : Byte} (h : t.buf = memWrite s.buf a v) : StoresByte s t a v :=
  ⟨by rw [h, memRead_memWrite_same], fun i hi => by rw [h, memRead_memWrite_other _ _ hi]⟩

/-- Settles O9: both forms store 0x9B at offset 0 and set `N` to 1. -/
theorem sync0StoresTheFirstHeaderByte : Obligations.Sync0StoresTheFirstHeaderByte := by
  unfold Obligations.Sync0StoresTheFirstHeaderByte
  intro s hl hn
  obtain ⟨hcase, hsubmit⟩ := DispatchRow.sync0.exec_eq_next hl hn (submitCase_sync0 (s := fresh s) hn)
  exact ⟨_, hcase, hsubmit, storesByte_of_buf rfl, rfl⟩

/-- Settles O10: the case leaves the state a step starts with. -/
theorem skipWritesNothing : Obligations.SkipWritesNothing := by
  unfold Obligations.SkipWritesNothing
  intro s b hl hn hb
  exact (DispatchRow.skip hb).exec_eq_next hl hn (submitCase_skip (s := fresh s) hn hb)

/-- Settles O11: both forms store 0x16 at offset 1 and set `N` to 2. -/
theorem sync1StoresTheSecondHeaderByte : Obligations.Sync1StoresTheSecondHeaderByte := by
  unfold Obligations.Sync1StoresTheSecondHeaderByte
  intro s hl hn
  obtain ⟨hcase, hsubmit⟩ := DispatchRow.sync1.exec_eq_next hl hn (submitCase_sync1 (s := fresh s) hn)
  exact ⟨_, hcase, hsubmit, storesByte_of_buf rfl, rfl⟩

/-- Settles O12: the case sets `N` to 0 in the state a step starts with. -/
theorem desyncDiscardsBothBytes : Obligations.DesyncDiscardsBothBytes := by
  unfold Obligations.DesyncDiscardsBothBytes
  intro s b hl hn hb
  exact (DispatchRow.desync hb).exec_eq_next hl hn (submitCase_desync (s := fresh s) hn hb)

/-- Settles O13: both forms store the byte at `N` and add 1 to it, which up to 22 does not wrap around. -/
theorem storeStoresAtTheOffset : Obligations.StoreStoresAtTheOffset := by
  unfold Obligations.StoreStoresAtTheOffset
  intro s b hl h2 h22
  obtain ⟨hcase, hsubmit⟩ :=
    (DispatchRow.store h2 h22 b).exec_eq_next hl rfl (submitCase_store (s := fresh s) b h2 h22)
  exact ⟨_, hcase, hsubmit, storesByte_of_buf rfl, toNat_offset_succ h22, rfl⟩

/-! ### Completion (R135, R136) -/

/-- Completion of a given frame does not depend on the buffer, and leaves it. -/
theorem setBuf_completed (m : List Host.Cell) (f : Nat → Byte) (s : State) :
    setBuf m (completed f s) = completed f (setBuf m s) := by
  unfold completed
  split
  · rfl
  · rfl

/-- Settles O14: the byte fills the frame, and the case is the completion of that frame. -/
theorem finalStoresThenCompletes : Obligations.FinalStoresThenCompletes := by
  unfold Obligations.FinalStoresThenCompletes
  intro s f b hl hp hn hf
  have hframe := holdsFrame_putByte23 (s := fresh s) b hf
  have hanswer := (submitCase_final (s := fresh s) b hn).trans (complete_of_frame hframe hp)
  obtain ⟨hcase, hsubmit⟩ := (DispatchRow.final b).exec_eq_next hl hn hanswer
  exact ⟨_, hcase, hsubmit, storesByte_of_buf (completed_buf _ _), setBuf_completed s.buf _ _⟩

theorem exec_complete_of_frame {s : State} {f : Nat → Byte} (hl : live s = true) (hp : s.pp ≠ 0) (hf : HoldsFrame s f) :
    exec .complete s = .next (completed f (fresh s)) := by
  rw [exec, execComplete, whenLive_of_live hl, complete_of_frame (s := fresh s) hf hp, answer_ok]

/-- Settles O22, by whether the sum is the trailer. -/
theorem completeAcceptsOrRejects : Obligations.CompleteAcceptsOrRejects := by
  unfold Obligations.CompleteAcceptsOrRejects
  intro s f hl hp hf
  have hanswer := exec_complete_of_frame hl hp hf
  exact ⟨fun he => by rw [hanswer, completed_of_eq he]; rfl, fun hne => by rw [hanswer, completed_of_ne hne]; rfl⟩

/-! ### A stream without a header (R140 (a)) -/

/-- `N` is 0 or 1, and the bytes to come, behind the `0x9B` stored where it is 1, hold no header pair. -/
def SeeksHeader (s : State) (bs : List Byte) : Prop :=
  (s.n = 0 ∧ noHeaderPair bs) ∨ (s.n = 1 ∧ noHeaderPair (0x9B :: bs))

theorem noHeaderPair_tail {b : Byte} {bs : List Byte} (h : noHeaderPair (b :: bs)) : noHeaderPair bs := by
  cases bs with
  | nil => trivial
  | cons c bs => exact h.2

/-- A byte that does not complete a header moves `N` inside 0..1 and changes at most the buffer besides. -/
theorem submitCase_of_seeksHeader {s : State} {b : Byte} {bs : List Byte} (h : SeeksHeader s (b :: bs)) :
    ∃ n m, submitCase b s = .ok (setN n (setBuf m s)) ∧ SeeksHeader (setN n (setBuf m s)) bs := by
  obtain ⟨hn, hpair⟩ | ⟨hn, hpair⟩ := h
  · by_cases hb : b = 0x9B
    · subst hb
      exact ⟨1, _, submitCase_sync0 hn, .inr ⟨rfl, hpair⟩⟩
    · exact ⟨s.n, s.buf, submitCase_skip hn hb, .inl ⟨hn, noHeaderPair_tail hpair⟩⟩
  · obtain ⟨hb, hrest⟩ := hpair
    exact ⟨0, s.buf, submitCase_desync hn fun h => hb ⟨rfl, h⟩, .inl ⟨rfl, noHeaderPair_tail hrest⟩⟩

/-- Bytes without a header, one after the other, change the buffer and `N` alone. -/
theorem submitAll_of_seeksHeader {s : State} {bs : List Byte} (hl : live s = true) (hq : s.pulses = [])
    (h : SeeksHeader s bs) : ∃ n m, n.toNat ≤ 1 ∧ submitAll bs s = .ok (setN n (setBuf m s)) := by
  induction bs generalizing s with
  | nil =>
    refine ⟨s.n, s.buf, ?_, rfl⟩
    obtain ⟨hn, -⟩ | ⟨hn, -⟩ := h <;> simp [hn]
  | cons b bs ih =>
    obtain ⟨n, m, hcase, hseek⟩ := submitCase_of_seeksHeader h
    obtain ⟨n', m', hn', hrest⟩ := ih (s := setN n (setBuf m s)) hl hq hseek
    exact ⟨n', m', hn', by rw [submitAll, quiet_of_pulses hq, submit, whenLive_of_live hl, hcase, ok_bind, hrest]; rfl⟩

/-- Settles O18: the bytes only ever seek a header. -/
theorem noHeaderPairNoReadyRecord : Obligations.NoHeaderPairNoReadyRecord := by
  unfold Obligations.NoHeaderPairNoReadyRecord
  intro s bs hl hn hpair
  obtain ⟨n, m, hle, hall⟩ := submitAll_of_seeksHeader (s := fresh s) hl rfl (.inl ⟨hn, hpair⟩)
  exact ⟨_, execChunk_eq_next.mpr ⟨hl, hall⟩, hle, rfl, rfl, rfl, rfl, rfl, rfl, rfl, rfl⟩

/-! ### Two frames back to back (R140 (b)) -/

/-- The first frame leaves `N` at 0, so the second is submitted as the first was. -/
theorem submitAll_two_frames {s : State} {p q : List Byte} (hl : live s = true) (hq : s.pulses = []) (hn : s.n = 0)
    (hp : s.pp ≠ 0) (hplen : p.length = 20) (hqlen : q.length = 20) :
    ∃ m m', submitAll (frameBytes p ++ frameBytes q) s =
      .ok (accepted (frameAt (frameBytes q)) (setBuf m' (quiet (accepted (frameAt (frameBytes p)) (setBuf m s))))) := by
  refine ⟨writeBytes 0 (frameBytes p) s.buf, writeBytes 0 (frameBytes q) (writeBytes 0 (frameBytes p) s.buf), ?_⟩
  rw [submitAll_append, submitAll_frameBytes hl hq hn hp hplen, ok_bind]
  exact submitAll_frameBytes (s := quiet (accepted _ (setBuf _ s))) hl rfl hn hp hqlen

/-- Settles O19: the record and the pulses are the second frame's, the events those of both. -/
theorem twoFramesBackToBackAreBothAccepted : Obligations.TwoFramesBackToBackAreBothAccepted := by
  unfold Obligations.TwoFramesBackToBackAreBothAccepted
  intro s p q hl hn hp hplen hqlen
  obtain ⟨m, m', hall⟩ := submitAll_two_frames (s := fresh s) hl rfl hn hp hplen hqlen
  have hexec : exec (.bytes (frameBytes p ++ frameBytes q)) s = _ := execChunk_eq_next.mpr ⟨hl, hall⟩
  -- No unification below is to compute the frames' bytes.
  generalize frameAt (frameBytes p) = f at hexec ⊢
  generalize frameAt (frameBytes q) = g at hexec ⊢
  exact ⟨_, hexec, hn, rfl, rfl, rfl, rfl, rfl⟩

/-! ### A stream cut into chunks (R141) -/

/-- A state with events emitted before its own. -/
def afterEvents (es : List Event) (s : State) : State := { s with events := es ++ s.events }

section AfterEvents

variable {s t : State} (es : List Event)

/-- An accepted frame's events follow whatever was emitted before. -/
theorem accept_afterEvents (e : accept s = .ok t) : accept (afterEvents es s) = .ok (afterEvents es t) := by
  simp only [accept, extract, bind_eq_ok, pure_eq_ok, Except.ok.injEq] at e ⊢
  obtain ⟨w, ⟨r, hr, j, hj, k, hk, rfl⟩, rfl⟩ := e
  exact ⟨_, ⟨r, hr, j, hj, k, hk, rfl⟩,
    by simp [raiseMisses_eq, emit, setReady, latchRecord, afterEvents]⟩

theorem reject_afterEvents (rx sum : Nat) : reject rx sum (afterEvents es s) = afterEvents es (reject rx sum s) := by
  simp [reject, raiseError_checksumMismatch, afterEvents]

/-- Completion reads no event, and emits behind those before it. -/
theorem complete_afterEvents (e : complete s = .ok t) : complete (afterEvents es s) = .ok (afterEvents es t) := by
  simp only [complete, bind_eq_ok] at e ⊢
  obtain ⟨sum, hsum, rx, hrx, e⟩ := e
  refine ⟨sum, hsum, rx, hrx, ?_⟩
  split at e
  · rw [if_pos ‹_›, accept_afterEvents es e]
  · cases e
    rw [if_neg ‹_›, reject_afterEvents, pure_eq_ok]

theorem submitCase_afterEvents {b : Byte} (e : submitCase b s = .ok t) :
    submitCase b (afterEvents es s) = .ok (afterEvents es t) := by
  rcases submitCase_eq_ok e with ⟨hn, rfl, rfl⟩ | ⟨hn, hb, rfl⟩ | ⟨hn, rfl, rfl⟩ | ⟨hn, hb, rfl⟩ | ⟨h2, h22, rfl⟩ |
    ⟨hn, hc⟩
  · exact submitCase_sync0 (s := afterEvents es s) hn
  · exact submitCase_skip (s := afterEvents es _) hn hb
  · exact submitCase_sync1 (s := afterEvents es s) hn
  · exact submitCase_desync (s := afterEvents es s) hn hb
  · exact submitCase_store (s := afterEvents es s) b h2 h22
  · exact (submitCase_final (s := afterEvents es s) b hn).trans (complete_afterEvents es hc)

theorem submit_afterEvents {b : Byte} (e : submit b s = .ok t) :
    submit b (afterEvents es s) = .ok (afterEvents es t) := by
  obtain ⟨hl, hcase⟩ := whenLive_eq_ok.mp e
  exact whenLive_eq_ok.mpr ⟨hl, submitCase_afterEvents es hcase⟩

/-- A sequence of `SUBMIT`s emits its events behind those before it. -/
theorem submitAll_afterEvents {bs : List Byte} (e : submitAll bs s = .ok t) :
    submitAll bs (afterEvents es s) = .ok (afterEvents es t) := by
  induction bs generalizing s with
  | nil =>
    cases e
    rfl
  | cons b bs ih =>
    simp only [submitAll, bind_eq_ok] at e ⊢
    obtain ⟨u, hu, e⟩ := e
    exact ⟨_, submit_afterEvents es hu, ih e⟩

end AfterEvents

/-- Where a step has returned nothing, its state differs from the start of the next in its events and pulses alone. -/
theorem quiet_eq_afterEvents_fresh {t : State} (h : t.results = []) : quiet t = afterEvents t.events (fresh t) := by
  cases t
  cases h
  simp [quiet, afterEvents, fresh]

/-- Settles O20: the second chunk runs from where the first ended, with the first's events before its own. -/
theorem chunksOfAStreamCompose : Obligations.ChunksOfAStreamCompose := by
  unfold Obligations.ChunksOfAStreamCompose
  intro s t u a b ha hb
  obtain ⟨hl, ha⟩ := execChunk_eq_next.mp ha
  obtain ⟨-, hb⟩ := execChunk_eq_next.mp hb
  have hres : t.results = [] := (submitAll_host ha).1
  refine execChunk_eq_next.mpr ⟨hl, ?_⟩
  rw [submitAll_append, ha, ok_bind]
  cases b with
  | nil =>
    cases hb
    cases t
    cases hres
    simp [submitAll, fresh]
  | cons x b =>
    rw [if_neg (List.cons_ne_nil x b), ← submitAll_quiet, quiet_eq_afterEvents_fresh hres]
    exact submitAll_afterEvents t.events hb

end Sys2Proof.Machine

/-! The proofs about the checksum (42_checksum.md): the plain sum and any accumulator of it; what `COMPLETE`, `ACCEPT` and
`REJECT` do with a frame whose sums agree or differ; and what the sum and the trailer make of a changed byte. -/

namespace Sys2Proof.Machine

/-! ### The plain sum (R150, R151) -/

/-- An accumulator of any width holds the sum of the bytes up to multiples of `2 ^ w`. -/
theorem toNat_foldl_add_setWidth (w : Nat) (f : Nat → Byte) (is : List Nat) :
    (is.foldl (fun acc i => acc + (f i).setWidth w) (0#w)).toNat = (is.map fun i => (f i).toNat).sum % 2 ^ w := by
  induction is using List.reverseRecOn with
  | nil => simp
  | append_singleton is i ih => simp [ih]

/-- Settles O23: the sum is at most 5610, so an accumulator of 13 bits or more does not wrap. -/
theorem cksumReturnsThePlainSum : Obligations.CksumReturnsThePlainSum := by
  unfold Obligations.CksumReturnsThePlainSum
  intro s f hl hf
  refine ⟨?_, frameSum_le f, fun w hw => ?_⟩
  · rw [exec, execCksum, answerFunction_of_ok hl (v := .unsigned (frameSum f)) (by rw [cksum_of_cells hf]; rfl)]
    rfl
  · have hsum : frameSum f < 2 ^ w :=
      calc frameSum f ≤ 5610 := frameSum_le f
        _ < 2 ^ 13 := by norm_num
        _ ≤ 2 ^ w := Nat.pow_le_pow_right (by norm_num) hw
    rw [toNat_foldl_add_setWidth, ← frameSum, Nat.mod_eq_of_lt hsum]

/-! ### Accepting and rejecting (R152 to R154) -/

theorem exec_complete_of_eq {s : State} {f : Nat → Byte} (hl : live s = true) (hp : s.pp ≠ 0) (hf : HoldsFrame s f)
    (he : frameSum f = frameTrailer f) : exec .complete s = .next (accepted f (fresh s)) :=
  (completeAcceptsOrRejects s f hl hp hf).1 he

theorem exec_complete_of_ne {s : State} {f : Nat → Byte} (hl : live s = true) (hp : s.pp ≠ 0) (hf : HoldsFrame s f)
    (hne : frameSum f ≠ frameTrailer f) : exec .complete s = .next (rejected f (fresh s)) :=
  (completeAcceptsOrRejects s f hl hp hf).2 hne

theorem exec_accept_of_eq {s : State} {f : Nat → Byte} (hl : live s = true) (hp : s.pp ≠ 0) (hf : HoldsFrame s f)
    (he : frameSum f = frameTrailer f) : exec .accept s = .next (accepted f (fresh s)) := by
  rw [exec, execAccept, whenLive_of_live hl, bothSums_of_frame hf, checksumsAgree, he, beq_self_eq_true, if_pos rfl,
    accept_of_frame (s := fresh s) hf hp, answer_ok]

theorem exec_reject_of_ne {s : State} {f : Nat → Byte} (hl : live s = true) (hf : HoldsFrame s f)
    (hne : frameSum f ≠ frameTrailer f) : exec .reject s = .next (rejected f (fresh s)) := by
  rw [exec, execReject, whenLive_of_live hl, bothSums_of_frame hf, checksumsAgree, beq_false_of_ne hne]
  rfl

/-- `CK_CALC` holds the whole sum. -/
theorem toNat_ofNat_frameSum (f : Nat → Byte) : (BitVec.ofNat 16 (frameSum f)).toNat = frameSum f := by
  have := frameSum_le f
  exact Nat.mod_eq_of_lt (by omega)

/-- `CK_RX` holds the whole trailer. -/
theorem toNat_ofNat_frameTrailer (f : Nat → Byte) : (BitVec.ofNat 16 (frameTrailer f)).toNat = frameTrailer f :=
  Nat.mod_eq_of_lt (frameTrailer_lt f)

/-- Settles O25: what `ACCEPT` makes of the frame, from a step's start without events. -/
theorem acceptWritesTheRecord : Obligations.AcceptWritesTheRecord := by
  unfold Obligations.AcceptWritesTheRecord
  intro s f hl hp hf he
  exact exec_accept_of_eq hl hp hf he

/-- Settles O26: what `REJECT` makes of the frame; sum and trailer both fit 16 bits. -/
theorem rejectLatchesBothChecksums : Obligations.RejectLatchesBothChecksums := by
  unfold Obligations.RejectLatchesBothChecksums
  intro s f hl hf hne
  exact ⟨exec_reject_of_ne hl hf hne, toNat_ofNat_frameTrailer f, toNat_ofNat_frameSum f⟩

theorem frameSum_eq_header_add_payload (f : Nat → Byte) :
    frameSum f = (f 0).toNat + (f 1).toNat + ((List.range 20).map fun i => (f (i + 2)).toNat).sum := by
  rw [frameSum, List.range_succ_eq_map, List.range_succ_eq_map]
  simp [Function.comp_def, Nat.add_assoc]

/-- Settles O24: the sum lies in 177..5277, and a trailer outside that range is not the sum; one with a high byte above
0x14 is at least 0x1500, which is 5376. -/
theorem sumRangeRejectsTrailersOutsideIt : Obligations.SumRangeRejectsTrailersOutsideIt := by
  unfold Obligations.SumRangeRejectsTrailersOutsideIt
  intro s f hl hp hf hh
  obtain ⟨hlo, hhi⟩ := frameSum_of_headed hh
  have hreject : frameTrailer f < 177 ∨ 5277 < frameTrailer f →
      exec .complete s = .next (rejected f (fresh s)) := fun hout => exec_complete_of_ne hl hp hf (by omega)
  refine ⟨?_, hlo, hhi, hreject, fun hbyte => hreject (.inr ?_)⟩
  · obtain ⟨h0, h1⟩ := hh
    rw [frameSum_eq_header_add_payload, h0, h1]
    rfl
  · rw [frameTrailer]
    omega

/-! ### A changed byte (R155, R156) -/

theorem frameSum_eq_sum_range (f : Nat → Byte) : frameSum f = ∑ i ∈ Finset.range 22, (f i).toNat := rfl

/-- Changing one summed byte moves the sum by the difference of the old byte and the new. -/
theorem frameSum_update (f : Nat → Byte) {k : Nat} (hk : k < 22) (v : Byte) :
    frameSum (Function.update f k v) + (f k).toNat = frameSum f + v.toNat := by
  have hmem : k ∈ Finset.range 22 := Finset.mem_range.mpr hk
  have hnew : frameSum (Function.update f k v) = v.toNat + ∑ i ∈ Finset.range 22 \ {k}, (f i).toNat := by
    rw [frameSum_eq_sum_range, ← Finset.sum_update_of_mem hmem]
    exact Finset.sum_congr rfl fun i _ => Function.apply_update (fun _ => BitVec.toNat) f k v i
  have hold : (f k).toNat + ∑ i ∈ Finset.range 22 \ {k}, (f i).toNat = frameSum f := by
    rw [frameSum_eq_sum_range, Finset.sdiff_singleton_eq_erase]
    exact Finset.add_sum_erase _ (fun i => (f i).toNat) hmem
  omega

/-- The trailer is not summed. -/
theorem frameSum_update_trailer (f : Nat → Byte) {k : Nat} (hk : 22 ≤ k) (v : Byte) :
    frameSum (Function.update f k v) = frameSum f := by
  refine congrArg List.sum (List.map_congr_left fun i hi => ?_)
  have := List.mem_range.mp hi
  rw [Function.update_of_ne (by omega)]

/-- The summed bytes are not in the trailer. -/
theorem frameTrailer_update_summed (f : Nat → Byte) {k : Nat} (hk : k < 22) (v : Byte) :
    frameTrailer (Function.update f k v) = frameTrailer f := by
  rw [frameTrailer, Function.update_of_ne (by omega), Function.update_of_ne (by omega), frameTrailer]

theorem frameTrailer_update_ne (f : Nat → Byte) {k : Nat} {v : Byte} (hk : k = 22 ∨ k = 23) (hv : v ≠ f k) :
    frameTrailer (Function.update f k v) ≠ frameTrailer f := by
  have hv' : v.toNat ≠ (f k).toNat := BitVec.toNat_ne_iff_ne.mpr hv
  obtain rfl | rfl := hk
  · simp [frameTrailer, hv']
  · simp [frameTrailer, hv']

theorem xor_one_shiftLeft_ne (b : Byte) {j : Nat} (hj : j < 8) : b ^^^ (1#8 <<< j) ≠ b := by
  have hbit : ∀ j < 8, (1#8 <<< j) ≠ 0#8 := by decide
  intro h
  exact hbit j hj ((BitVec.xor_right_inj b).mp (h.trans BitVec.xor_zero.symm))

/-- Settles O29: the flip changes the trailer and not the sum. -/
theorem flippedTrailerBitIsRejected : Obligations.FlippedTrailerBitIsRejected := by
  unfold Obligations.FlippedTrailerBitIsRejected
  intro s f k j hl hp he hk hj hf
  have hsum := frameSum_update_trailer f (by omega : 22 ≤ k) (f k ^^^ (1#8 <<< j))
  have htrailer := frameTrailer_update_ne f hk (xor_one_shiftLeft_ne (f k) hj)
  refine ⟨_, exec_complete_of_ne hl hp hf (by omega), rfl, rfl, rfl, rfl, ?_, toNat_ofNat_frameTrailer _, rfl⟩
  exact (toNat_ofNat_frameSum _).trans hsum

/-- The first write moves the sum by as much as the second moves it back; `k = m` changes nothing. -/
theorem frameSum_exchange (f : Nat → Byte) {k m : Nat} (hk : k < 22) (hm : m < 22) :
    frameSum (Function.update (Function.update f k (f m)) m (f k)) = frameSum f := by
  have hfirst := frameSum_update f hk (f m)
  have hsecond := frameSum_update (Function.update f k (f m)) hm (f k)
  have hkept : Function.update f k (f m) m = f m := by
    by_cases h : m = k
    · rw [h, Function.update_self]
    · rw [Function.update_of_ne h]
  rw [hkept] at hsecond
  omega

/-- Settles O30: a change moves the sum and not the trailer; an exchange moves neither. -/
theorem oneChangedPayloadByteIsRejected : Obligations.OneChangedPayloadByteIsRejected := by
  unfold Obligations.OneChangedPayloadByteIsRejected
  intro s f k m v hl hp he _ hk _ hm
  replace hk : k < 22 := by omega
  replace hm : m < 22 := by omega
  refine ⟨fun hv hf => ?_, fun hf => ?_⟩
  · have htrailer := frameTrailer_update_summed f hk v
    have hsum := frameSum_update f hk v
    have hv' : v.toNat ≠ (f k).toNat := BitVec.toNat_ne_iff_ne.mpr hv
    refine ⟨_, exec_complete_of_ne hl hp hf (by omega), rfl, ?_, rfl, rfl⟩
    exact (toNat_ofNat_frameTrailer _).trans (htrailer.trans he.symm)
  · have hsums := frameSum_exchange f hk hm
    rw [he, ← frameTrailer_update_summed f hk (f m), ← frameTrailer_update_summed _ hm (f k)] at hsums
    exact ⟨_, exec_complete_of_eq hl hp hf hsums, rfl, rfl⟩

end Sys2Proof.Machine

/-! The proofs about the extractor (43_extract.md): what each function answers from the cells it reads, `EXTRACT`, and the
engineering values of a record. -/

namespace Sys2Proof.Machine

/-! ### The functions over the frame (R161 to R172) -/

/-- With a decoder configured a function over the frame answers its value where it has one, and does nothing else. -/
theorem answerFunction_wrap_of_ok {α : Type} {f : State → Res α} {wrap : α → Value} {s : State} {v : α}
    (hl : live s = true) (h : f s = .ok v) :
    answerFunction (fun s => do let x ← f s; return wrap x) s =
      .next { s with results := [wrap v], events := [], pulses := [] } := by
  rw [answerFunction_of_ok hl (v := wrap v) (by rw [h]; rfl)]
  rfl

/-- A function that is a big-endian field answers the value of its two cells. -/
theorem answerFunction_be16 {s : State} {i : Nat} {hi lo : Byte} (hl : live s = true) (hb : i + 1 < 24)
    (h1 : memRead s.buf i = some hi) (h2 : memRead s.buf (i + 1) = some lo) :
    answerFunction (fun s => do let x ← be16 s i; return .unsigned x) s =
      .next { s with results := [.unsigned (hi.toNat * 256 + lo.toNat)], events := [], pulses := [] } :=
  answerFunction_wrap_of_ok hl (be16_of_cells hb h1 h2)

theorem throttle_of_cells {s : State} {i : Nat} {hi lo : Byte} (hb : i + 1 < 24) (h1 : memRead s.buf i = some hi)
    (h2 : memRead s.buf (i + 1) = some lo) : throttle s i = .ok ((hi.toNat * 256 + lo.toNat) * 25) := by
  rw [throttle, be16_of_cells hb h1 h2]
  rfl

theorem scaleRpm_of_ne_zero {pp : BitVec 8} (hp : pp ≠ 0) (num : Nat) :
    scaleRpm num pp = (num / pp.toNat, num % pp.toNat) := if_neg hp

theorem xRpm_of_cells {s : State} {hi lo : Byte} (hp : s.pp ≠ 0) (h1 : memRead s.buf 10 = some hi)
    (h2 : memRead s.buf 11 = some lo) :
    xRpm s = .ok ((hi.toNat * 256 + lo.toNat) * 10 / s.pp.toNat, (hi.toNat * 256 + lo.toNat) * 10 % s.pp.toNat) := by
  rw [xRpm, be16_of_cells (by omega) h1 h2, ← scaleRpm_of_ne_zero hp]
  rfl

/-- `FAULT` from the two bytes of the status (R172). -/
theorem xFault_of_cells {s : State} {hi lo : Byte} (h1 : memRead s.buf 20 = some hi)
    (h2 : memRead s.buf 21 = some lo) : xFault s = .ok (hi != 0 || lo != 0) := by
  have hflag : faultFlag (hi.toNat * 256 + lo.toNat) = (hi != 0 || lo != 0) := faultFlag_word16 (frameAt [hi, lo]) 0
  rw [xFault, be16_of_cells (by omega) h1 h2, ← hflag]
  rfl

/-- A temperature is the answer of `DECODE` for the byte at its offset (R170). -/
theorem answerFunction_temperatureAt {s : State} {i : Nat} {k : Byte} (hi : i < 24) (h : memRead s.buf i = some k) :
    answerFunction (fun s => do let v ← temperatureAt s i; return .temperature v.1 v.2) s = exec (.decode k) s := by
  rw [exec, execDecode, answerFunction, answerFunction, temperatureAt, bufRead_of_some hi h]
  rfl

theorem toNat_append_byte {w : Nat} (x : BitVec w) (b : Byte) : (x ++ b).toNat = x.toNat * 256 + b.toNat := by
  rw [BitVec.toNat_append, ← Nat.shiftLeft_add_eq_or_of_lt b.isLt, Nat.shiftLeft_eq]

/-- The joined bytes of the sequence marker are the document's sum. -/
theorem toNat_sequenceBytes (b0 b1 b2 b3 : Byte) : (b2 ++ b1 ++ b0 ++ b3 : BitVec 32).toNat =
    b0.toNat * 256 + b1.toNat * 65536 + b2.toNat * 16777216 + b3.toNat := by
  rw [toNat_append_byte, toNat_append_byte, toNat_append_byte]
  ring

/-- Behind the header the parts of the sequence marker do not overlap, so that or is addition. -/
theorem or_header_or {b0 b1 : Byte} (h0 : b0 = 0x9B) (h1 : b1 = 0x16) (b2 b3 : Byte) :
    b2.toNat <<< 24 ||| 0x00169B00 ||| b3.toNat =
      b0.toNat * 256 + b1.toNat * 65536 + b2.toNat * 16777216 + b3.toNat := by
  have hb0 : b0.toNat = 0x9B := congrArg BitVec.toNat h0
  have hb1 : b1.toNat = 0x16 := congrArg BitVec.toNat h1
  have hlow : 0x169B00 ||| b3.toNat = 0x169B * 256 + b3.toNat :=
    (Nat.shiftLeft_add_eq_or_of_lt b3.isLt 0x169B).symm
  have := b3.isLt
  rw [Nat.or_assoc, hlow, ← Nat.shiftLeft_add_eq_or_of_lt (by omega), Nat.shiftLeft_eq]
  omega

/-- Settles O32: the four bytes do not overlap, so or is addition, for any header and behind the frame's. -/
theorem xSeqFollowsTheDocumentsFormula : Obligations.XSeqFollowsTheDocumentsFormula := by
  unfold Obligations.XSeqFollowsTheDocumentsFormula
  intro s b0 b1 b2 b3 hl h0 h1 h2 h3
  have hseq := sequenceMarker_of_cells h0 h1 h2 h3
  rw [toNat_sequenceBytes] at hseq
  have hexec : exec .xSeq s = _ := answerFunction_wrap_of_ok (wrap := .unsigned) hl hseq
  refine ⟨hexec, fun e0 e1 => ?_⟩
  rw [hexec, or_header_or e0 e1]

/-- A throttle's 25 / 256 is the document's 100 / 1024. -/
theorem throttle_percent (raw : Nat) : ((raw * 25 : Nat) : Rat) / 256 = (raw : Rat) * 100 / 1024 := by
  push_cast
  ring

/-- Settles O33: each throttle from its two cells, of which the largest value is 65535. -/
theorem throttlesAreTwentyFiveTimesRaw : Obligations.ThrottlesAreTwentyFiveTimesRaw := by
  unfold Obligations.ThrottlesAreTwentyFiveTimesRaw
  intro s hi lo hl
  have hhi := hi.isLt
  have hlo := lo.isLt
  refine ⟨fun h6 h7 => ?_, fun h8 h9 => ?_, by omega, throttle_percent _⟩
  · exact answerFunction_wrap_of_ok (wrap := .unsigned) hl (throttle_of_cells (by omega) h6 h7)
  · exact answerFunction_wrap_of_ok (wrap := .unsigned) hl (throttle_of_cells (by omega) h8 h9)

/-- Settles O34: quotient and remainder of the model's division, which by Euclid's identity are the exact quotient. -/
theorem xRpmDividesByThePolePairs : Obligations.XRpmDividesByThePolePairs := by
  unfold Obligations.XRpmDividesByThePolePairs
  intro s hi lo hl hp h10 h11
  have hpos := BitVec.toNat_pos_of_ne_zero hp
  have heuclid := Nat.div_add_mod' ((hi.toNat * 256 + lo.toNat) * 10) s.pp.toNat
  have hle : (hi.toNat * 256 + lo.toNat) * 10 / s.pp.toNat ≤ 655350 :=
    (Nat.div_le_self _ _).trans (by have := hi.isLt; have := lo.isLt; omega)
  refine ⟨_, _, answerFunction_wrap_of_ok (wrap := fun v : Nat × Nat => .quotRem v.1 v.2) hl
    (xRpm_of_cells hp h10 h11), heuclid.symm, Nat.mod_lt _ hpos, hle, ?_⟩
  have hpp : (s.pp.toNat : Rat) ≠ 0 := by exact_mod_cast hpos.ne'
  rw [eq_div_iff hpp, add_mul, div_mul_cancel₀ _ hpp]
  exact_mod_cast heuclid

/-- Settles O35: each of the four is the big-endian value of its two cells. -/
theorem counterVoltageAndCurrentsAreRaw : Obligations.CounterVoltageAndCurrentsAreRaw := by
  unfold Obligations.CounterVoltageAndCurrentsAreRaw
  intro s hi lo hl
  exact ⟨answerFunction_be16 hl (by omega), answerFunction_be16 hl (by omega), answerFunction_be16 hl (by omega),
    answerFunction_be16 hl (by omega)⟩

/-- Settles O36: each temperature is `DECODE` of its byte, which answers for every key (O38). -/
theorem temperaturesAreDecoded : Obligations.TemperaturesAreDecoded := by
  unfold Obligations.TemperaturesAreDecoded
  intro s k hl
  have hdecode := decodeAnswersEveryKey s k hl
  exact ⟨fun h18 => (answerFunction_temperatureAt (by omega) h18).trans hdecode,
    fun h19 => (answerFunction_temperatureAt (by omega) h19).trans hdecode⟩

/-- Settles O37: both read the cells 20 and 21. -/
theorem statusAndFaultBit : Obligations.StatusAndFaultBit := by
  unfold Obligations.StatusAndFaultBit
  intro s hi lo hl h20 h21
  exact ⟨answerFunction_be16 hl (by omega) h20 h21,
    answerFunction_wrap_of_ok (wrap := .bit) hl (xFault_of_cells h20 h21)⟩

/-! ### `EXTRACT` (R160) -/

/-- Settles O31: what `EXTRACT` makes of the frame, from a step's start without events. -/
theorem extractWritesEveryRecordRegister : Obligations.ExtractWritesEveryRecordRegister := by
  unfold Obligations.ExtractWritesEveryRecordRegister
  intro s f hl hp hf
  rw [exec, execExtract, whenLive_of_live hl, extract_of_frame (s := fresh s) hf hp, answer_ok]
  rfl

/-! ### The engineering values (R175) -/

section RecordOfFrame

variable (rom : List (Byte × BitVec 16)) (pp : BitVec 8) (f : Nat → Byte)

theorem toNat_recordOfFrame_thrIn : (recordOfFrame rom pp f).thrIn.toNat = word16 f 6 * 25 := by
  have := word16_lt f 6
  exact Nat.mod_eq_of_lt (by omega)

theorem toNat_recordOfFrame_thrOut : (recordOfFrame rom pp f).thrOut.toNat = word16 f 8 * 25 := by
  have := word16_lt f 8
  exact Nat.mod_eq_of_lt (by omega)

theorem toNat_recordOfFrame_rpmQ : (recordOfFrame rom pp f).rpmQ.toNat = word16 f 10 * 10 / pp.toNat := by
  have := word16_lt f 10
  have := Nat.div_le_self (word16 f 10 * 10) pp.toNat
  exact Nat.mod_eq_of_lt (by omega)

theorem toNat_recordOfFrame_rpmR (hp : pp ≠ 0) :
    (recordOfFrame rom pp f).rpmR.toNat = word16 f 10 * 10 % pp.toNat := by
  have := Nat.mod_lt (word16 f 10 * 10) (BitVec.toNat_pos_of_ne_zero hp)
  exact Nat.mod_eq_of_lt (by omega)

theorem recordOfFrame_fault : (recordOfFrame rom pp f).fault = decide (word16 f 20 ≠ 0) :=
  (faultFlag_word16 f 20).symm

end RecordOfFrame

/-- A key without an entry leaves the sentinel of 130 degrees. -/
theorem celsius_of_miss {found : Option (BitVec 16)} (h : found = none) :
    ((found.getD 260).toInt : Rat) / 2 = 130 := by
  have hsentinel : (260 : BitVec 16).toInt = 260 := by decide
  rw [h, Option.getD_none]
  norm_num [hsentinel]

theorem celsius_of_hit {found : Option (BitVec 16)} {t : BitVec 16} (h : found = some t) :
    ((found.getD 260).toInt : Rat) / 2 = (t.toInt : Rat) / 2 := by rw [h, Option.getD_some]

/-- Settles O41: every field of the record fits its register, and its unit's scale is the document's. -/
theorem engineeringValuesAreExact : Obligations.EngineeringValuesAreExact := by
  unfold Obligations.EngineeringValuesAreExact
  intro rom pp f hp x
  have hthrIn : x.throttleInputPercent = (word16 f 6 : Rat) * 100 / 1024 := by
    rw [← throttle_percent, ← toNat_recordOfFrame_thrIn rom pp f]
    rfl
  have hthrOut : x.throttleOutputPercent = (word16 f 8 : Rat) * 100 / 1024 := by
    rw [← throttle_percent, ← toNat_recordOfFrame_thrOut rom pp f]
    rfl
  have hrpm : x.rotorSpeedRPM = (word16 f 10 : Rat) * 10 / pp.toNat := by
    refine congrArg (· / (pp.toNat : Rat)) ?_
    rw [toNat_recordOfFrame_rpmQ, toNat_recordOfFrame_rpmR rom pp f hp]
    exact_mod_cast Nat.div_add_mod' (word16 f 10 * 10) pp.toNat
  have hbusVoltage : x.busVoltage = (word16 f 12 : Rat) / 10 :=
    congrArg (fun v : Nat => (v : Rat) / 10) (toNat_word f 12)
  have hbusCurrent : x.busCurrent = (word16 f 14 : Rat) / 64 :=
    congrArg (fun v : Nat => (v : Rat) / 64) (toNat_word f 14)
  have hphase : x.phaseCurrent = (word16 f 16 : Rat) / 64 :=
    congrArg (fun v : Nat => (v : Rat) / 64) (toNat_word f 16)
  exact ⟨toNat_sequenceBytes .., toNat_word f 4, hthrIn, hthrOut, hrpm, hbusVoltage, hbusCurrent, hphase,
    celsius_of_miss, celsius_of_miss, fun _ => celsius_of_hit, fun _ => celsius_of_hit, toNat_word f 20,
    recordOfFrame_fault rom pp f⟩

end Sys2Proof.Machine

/-! The proofs about the host operations other than `SUBMIT` (44_host_ops.md): `INIT` on either side of its range, the
polls, the three outcomes of `READ`, `IDLE`, and the output wires. -/

namespace Sys2Proof.Machine

/-! ### The outcomes of `READ` (R194) -/

/-- On an instance that exists `READ` is decided by the two guards alone. -/
theorem exec_read_of_live {s : State} (hl : live s = true) (f : RegName) :
    exec (.read f) s = answer (readLive f (fresh s)) := by
  rw [exec, execRead, readReg]
  split
  · rename_i h
    rw [h.1]
    rfl
  · rw [whenLive_of_live (s := fresh s) hl]

/-- A `READ` whose guards hold answers the register and changes nothing else. -/
theorem exec_read_of_value {s : State} {f : RegName} (hl : live s = true) (hr : isRecordReg f = true → s.recValid = true)
    (hc : isChecksumReg f = true → s.ckValid = true) :
    exec (.read f) s = .next (give (regValue s f) (fresh s)) := by
  have hrec : ¬ (isRecordReg f && !(fresh s).recValid) = true := by simpa using hr
  have hck : ¬ (isChecksumReg f && !(fresh s).ckValid) = true := by simpa using hc
  rw [exec_read_of_live hl, readLive, if_neg hrec, if_neg hck]
  rfl

theorem exec_read_of_record_not_valid {s : State} {f : RegName} (hl : live s = true) (hf : isRecordReg f = true)
    (hv : s.recValid = false) : exec (.read f) s = .refused (.recordNotValid f) := by
  have hrec : (isRecordReg f && !(fresh s).recValid) = true := by simp [hf, hv]
  rw [exec_read_of_live hl, readLive, if_pos hrec, answer_refuse]

/-- The latched checksums are none of the record's registers. -/
theorem isRecordReg_of_isChecksumReg {f : RegName} (hf : isChecksumReg f = true) : isRecordReg f = false := by
  cases f with
  | ckRx | ckCalc => rfl
  | _ => cases hf

theorem exec_read_of_checksum_not_latched {s : State} {f : RegName} (hl : live s = true) (hf : isChecksumReg f = true)
    (hv : s.ckValid = false) : exec (.read f) s = .refused (.checksumNotLatched f) := by
  have hrec : ¬ (isRecordReg f && !(fresh s).recValid) = true := by simp [isRecordReg_of_isChecksumReg hf]
  have hck : (isChecksumReg f && !(fresh s).ckValid) = true := by simp [hf, hv]
  rw [exec_read_of_live hl, readLive, if_neg hrec, if_pos hck, answer_refuse]

/-- Settles O6: `READ` answers `regValue`, which names each register. -/
theorem readReturnsTheRegister : Obligations.ReadReturnsTheRegister := by
  unfold Obligations.ReadReturnsTheRegister
  intro s f hl hr hc
  refine ⟨regValue s f, exec_read_of_value hl hr hc, ?_⟩
  and_intros <;>
  · rintro rfl
    rfl

/-- Settles O7: either guard refuses by its own name, and `READ HALT` has none. -/
theorem readRefusesWhatHoldsNoValue : Obligations.ReadRefusesWhatHoldsNoValue := by
  unfold Obligations.ReadRefusesWhatHoldsNoValue
  refine fun s f => ⟨exec_read_of_record_not_valid, exec_read_of_checksum_not_latched, fun h0 hh => ?_⟩
  have e := exec_read_halt h0
  rw [hh] at e
  exact e

/-! ### `INIT` (R190, R215) -/

theorem exec_init_of_legal {pp : Int} (h1 : 1 ≤ pp) (h255 : pp ≤ 255) (s : State) :
    exec (.init pp) s = .next (give .ok (forget (BitVec.ofInt 8 pp) false (fresh s))) := by
  rw [exec_init, if_neg (by omega)]

theorem exec_init_of_illegal {pp : Int} (h : pp ≤ 0 ∨ 255 < pp) (s : State) :
    exec (.init pp) s = .next (give (.malformedConfiguration pp) (forget 0 true (fresh s))) := by
  rw [exec_init, if_pos h]

/-- A pole-pair count from 1 to 255 is stored as it is. -/
theorem toNat_ofInt_of_legal {pp : Int} (h1 : 1 ≤ pp) (h255 : pp ≤ 255) : ((BitVec.ofInt 8 pp).toNat : Int) = pp := by
  rw [BitVec.toNat_ofInt]
  omega

/-- Settles O1: `INIT` forgets every register, so the guards of `READ` refuse in the state it answers. -/
theorem initConstructsTheDecoder : Obligations.InitConstructsTheDecoder := by
  unfold Obligations.InitConstructsTheDecoder
  intro s pp h1 h255
  refine ⟨_, exec_init_of_legal h1 h255 s, toNat_ofInt_of_legal h1 h255, ?_⟩
  have hl : live (give .ok (forget (BitVec.ofInt 8 pp) false (fresh s))) = true := by simp
  exact ⟨rfl, rfl, rfl, rfl, rfl, hl, fun _ => rfl, fun _ hf => exec_read_of_record_not_valid hl hf rfl,
    fun _ hf => exec_read_of_checksum_not_latched hl hf rfl, rfl, rfl, rfl, rfl, rfl, rfl⟩

/-- Settles O2: the state `INIT` then answers is halted, which the wires `ready` and `cfg_error` show. -/
theorem initRejectsMalformedConfiguration : Obligations.InitRejectsMalformedConfiguration := by
  unfold Obligations.InitRejectsMalformedConfiguration
  intro s pp h
  refine ⟨_, exec_init_of_illegal h s, rfl, ?_⟩
  have hl : live (give (.malformedConfiguration pp) (forget 0 true (fresh s))) = false := by simp
  exact ⟨hl, by simp [outputs], by simp [outputs], fun _ => rfl, rfl, rfl, rfl, rfl, rfl⟩

/-! ### The polls and `IDLE` (R192, R193, R195) -/

/-- Settles O4: the poll of a step's start, without events or results. -/
theorem isreadyReturnsAndClearsReady : Obligations.IsreadyReturnsAndClearsReady := by
  unfold Obligations.IsreadyReturnsAndClearsReady
  intro s hl
  rw [exec, execIsready, isReady, whenLive_of_live (s := fresh s) hl]
  rfl

theorem exec_take_of_live {s : State} (hl : live s = true) : exec .take s =
    .next (give (.record (if s.ready then some s.record else none)) (observeReady (fresh s))) := by
  rw [exec, execTake, take, whenLive_of_live (s := fresh s) hl]
  rfl

/-- Settles O5, by `READY`: where it is 0 already, clearing it changes nothing. -/
theorem takeHandsOverTheRecordOnce : Obligations.TakeHandsOverTheRecordOnce := by
  unfold Obligations.TakeHandsOverTheRecordOnce
  intro s hl
  have e := exec_take_of_live hl
  cases s
  constructor
  · rintro ⟨⟩
    exact e
  · rintro ⟨⟩
    exact e

/-- Settles O8: a step's start, and nothing after it. -/
theorem idleChangesNothing : Obligations.IdleChangesNothing := by
  unfold Obligations.IdleChangesNothing
  intro s hl
  rw [exec, execIdle, idle, whenLive_of_live (s := fresh s) hl]
  rfl

/-! ### The output wires (R198) -/

theorem mismatchEmitted_iff {es : List Event} :
    mismatchEmitted es = true ↔ ∃ rx sum, .checksumMismatch rx sum ∈ es := by
  rw [mismatchEmitted, List.any_eq_true]
  constructor
  · rintro ⟨e, he, h⟩
    cases e with
    | checksumMismatch rx sum => exact ⟨rx, sum, he⟩
    | recordReady | tempMiss => cases h
  · rintro ⟨rx, sum, he⟩
    exact ⟨_, he, rfl⟩

theorem missEmitted_iff {x : Sensor} {es : List Event} : missEmitted x es = true ↔ ∃ raw, .tempMiss x raw ∈ es := by
  rw [missEmitted, List.any_eq_true]
  constructor
  · rintro ⟨e, he, h⟩
    cases e with
    | tempMiss y raw => exact ⟨raw, (beq_iff_eq.mp h : x = y) ▸ he⟩
    | recordReady | checksumMismatch => cases h
  · rintro ⟨raw, he⟩
    exact ⟨_, he, beq_self_eq_true x⟩

/-- On an instance that exists the guards of the record and of the checksums are the only ones left. -/
theorem outputs_of_live {s : State} (hl : live s = true) : outputs s =
    { ready := s.ready, pollResult := s.pollResult, recValid := s.recValid
      record := if s.recValid then s.record else (Config.floating s.inits).record
      evRecord := s.pulses.contains .recordReady, evCksum := mismatchEmitted s.pulses
      evTmissMos := missEmitted .mos s.pulses, evTmissCap := missEmitted .cap s.pulses, ckValid := s.ckValid
      ckRx := if s.ckValid then s.ckRx else (Config.floating s.inits).ckRx
      ckCalc := if s.ckValid then s.ckCalc else (Config.floating s.inits).ckCalc
      cfgError := false, polePairs := s.pp, offset := s.n } := by
  simp [outputs, hl]

/-- Settles O56: each wire is its register where that holds a value, each event wire the search of the pulses. -/
theorem outputsShowTheRegisters : Obligations.OutputsShowTheRegisters := by
  unfold Obligations.OutputsShowTheRegisters
  intro s hl
  have hhalt : s.halt = false := ((live_eq_true s).mp hl).2
  rw [outputs_of_live hl]
  exact ⟨rfl, rfl, rfl, fun hv => if_pos hv, rfl, fun hv => ⟨if_pos hv, if_pos hv⟩, hhalt.symm, rfl, rfl,
    List.contains_iff_mem, mismatchEmitted_iff, missEmitted_iff, missEmitted_iff⟩

end Sys2Proof.Machine

/-! The proofs about the error conditions (60_exceptions.md): `SUBMIT` answers on every configured instance, and what each
host operation emits. -/

namespace Sys2Proof.Machine

/-! ### `SUBMIT` never fails (R216) -/

/-- Settles O16: the byte is answered from a step's start, and the answer keeps the invariant and the decoder. -/
theorem submitNeverFailsOnAConfiguredInstance : Obligations.SubmitNeverFailsOnAConfiguredInstance := by
  unfold Obligations.SubmitNeverFailsOnAConfiguredInstance
  intro s b hi hl
  obtain ⟨t, ht⟩ := submit_answers hi.fresh hl b
  exact ⟨t, answer_eq_next.mpr ht, hi.fresh.submit ht, live_of_submit ht⟩

/-! ### The events of a host operation (R212) -/

/-- Completion pulses what it emits. -/
theorem complete_pulses_eq_events {s t : State} (e : complete s = .ok t) (h : s.pulses = s.events) :
    t.pulses = t.events := by
  obtain ⟨sum, rx, -, -, ⟨-, r, j, k, -, rfl⟩ | ⟨-, rfl⟩⟩ := complete_eq_ok e
  · simp [raiseMisses_eq, h]
  · simp [reject, raiseError_checksumMismatch, h]

/-- `SUBMIT` pulses what it emits, which before the last byte of a frame is nothing. -/
theorem submit_events {s t : State} {b : Byte} (e : submit b s = .ok t) (h : s.pulses = s.events) :
    t.pulses = t.events ∧ (s.n ≠ 23 → t.events = s.events) := by
  rcases submitCase_eq_ok (whenLive_eq_ok.mp e).2 with ⟨-, -, rfl⟩ | ⟨-, -, rfl⟩ | ⟨-, -, rfl⟩ | ⟨-, -, rfl⟩ |
    ⟨-, -, rfl⟩ | ⟨hn, e⟩
  · exact ⟨h, fun _ => rfl⟩
  · exact ⟨h, fun _ => rfl⟩
  · exact ⟨h, fun _ => rfl⟩
  · exact ⟨h, fun _ => rfl⟩
  · exact ⟨h, fun _ => rfl⟩
  · exact ⟨complete_pulses_eq_events e h, fun hne => absurd hn hne⟩

/-- What a host operation pulses and emits: from a step's start, which does neither, only `SUBMIT` can add an event. -/
theorem hostOperation_events {i : Instr} {s t : State} (hi : isHostOperation i = true) (e : exec i s = .next t) :
    t.pulses = t.events ∧ ((∀ b, i = .submit b → s.n ≠ 23) → t.events = []) := by
  cases i with
  | init pp =>
    obtain ⟨v, q, halt, rfl, -⟩ := exec_init_eq_next rfl e
    exact ⟨rfl, fun _ => rfl⟩
  | take | isready | idle =>
    obtain ⟨-, h⟩ := whenLive_eq_ok.mp (answer_eq_next.mp e)
    cases h
    exact ⟨rfl, fun _ => rfl⟩
  | read f =>
    rw [readReg_eq_ok (answer_eq_next.mp e)]
    exact ⟨rfl, fun _ => rfl⟩
  | submit b =>
    obtain ⟨hpulses, hevents⟩ := submit_events (answer_eq_next.mp e) rfl
    exact ⟨hpulses, fun hne => hevents (hne b rfl)⟩
  | _ => cases hi

/-- The events of a completion: the misses and then `RecordReady`, or the one mismatch. -/
theorem completed_events (f : Nat → Byte) (s : State) : (completed f s).events =
    s.events ++ if frameSum f = frameTrailer f then missEvents s.rom f ++ [.recordReady] else [mismatchEvent f] := by
  unfold completed
  split
  · exact List.append_assoc _ _ _
  · rfl

/-- The last byte of a frame is no temperature. -/
theorem missEvents_update_last (rom : List (Byte × BitVec 16)) (f : Nat → Byte) (b : Byte) :
    missEvents rom (Function.update f 23 b) = missEvents rom f := by
  simp [missEvents]

theorem frameTrailer_update_last (f : Nat → Byte) (b : Byte) :
    frameTrailer (Function.update f 23 b) = (f 22).toNat + 256 * b.toNat := by
  simp [frameTrailer]

/-- Settles O54: the events operation by operation; at `N = 23` those of the completion of the frame the byte fills, where
it counts as the trailer's high byte and nowhere else. -/
theorem eventsOfEachHostOperation : Obligations.EventsOfEachHostOperation := by
  unfold Obligations.EventsOfEachHostOperation
  refine ⟨fun i s t => hostOperation_events, fun s f b hl hp hn hf => ?_⟩
  have hanswer := (submitCase_final (s := fresh s) b hn).trans
    (complete_of_frame (holdsFrame_putByte23 (s := fresh s) b hf) hp)
  refine ⟨_, by rw [exec_submit_of_live hl, hanswer, answer_ok], ?_⟩
  rw [completed_events, mismatchEvent, frameSum_update_trailer f (by omega), frameTrailer_update_last,
    missEvents_update_last, setN_events, putByte_events, fresh_events, List.nil_append, setN_rom, putByte_rom, fresh_rom]

end Sys2Proof.Machine

/-! The proof about reset (70_reset_and_hazards.md): reset is `INIT 21` issued before any other operation. -/

namespace Sys2Proof.Machine

/-- The one answer of `INIT 21` before any `INIT`: what it forgets, and the rest of that state, is reset's but for the
result. -/
theorem exec_init_powerOn : exec (.init 21) powerOn = .next { State.reset with results := [.ok] } := by
  have hpp : BitVec.ofInt 8 21 = Config.ppDefault := by decide
  have hforget : give .ok (forget Config.ppDefault false (fresh powerOn)) = { State.reset with results := [.ok] } := rfl
  rw [exec_init_of_legal (by decide) (by decide), hpp, hforget]

/-- Settles O47: the registers of reset are constants, its buffer is empty, and `INIT 21` is a legal `INIT`. -/
theorem resetSeeksAHeader : Obligations.ResetSeeksAHeader := by
  unfold Obligations.ResetSeeksAHeader
  exact ⟨if_pos rfl, rfl, rfl, rfl, reset_live, fun _ => rfl, exec_init_powerOn⟩

end Sys2Proof.Machine
